-- ==== Sys2Proof/Word.lean ====
section
/-! DEFINITION. The word widths of the block (00_scope.md R6): every value is an unsigned integer of
a stated width, and the widths in use are 8, 32, 64 and 128 bits. -/

namespace Sys2Proof

/-- A byte: the unit of `ST`, `SP` and of every buffer. -/
abbrev Byte := BitVec 8

/-- A 32-bit word: a command, a control register, one host access to `REG`. -/
abbrev W32 := BitVec 32

/-- A 64-bit word: a mixer register, a word of the compact state. -/
abbrev W64 := BitVec 64

/-- A 128-bit word: a block, a round key, a lane-group register, a scratchpad cell. -/
abbrev W128 := BitVec 128

end Sys2Proof
end

