-- ==== Sys2Proof/Config.lean ====
section
/-! DEFINITION. What one implementation fixes (00_scope.md R4): the build parameters as plain data, the
cryptographic parameters `ROUND` and `KEYGEN` among them, the functions these stand for, the
collaborators of the host procedures, and the one value the spec leaves open. -/

namespace Sys2Proof.Config

/-- `NLANES`: one context lane or two (00_scope.md R4). -/
inductive LaneCount where
  | one
  | two
deriving DecidableEq, Repr

/-- `KS_LANE_B`: the 32-bit lane the second key-schedule sub-step extracts (00_scope.md R4,
40_round_backend.md R129, 90_conflicts.md C5). -/
inductive KsLaneB where
  | lane2
  | lane3
deriving DecidableEq, Repr

/-- `IDX_SHIFT`: the low bits of `idx` dropped before masking (00_scope.md R4, 20_memory.md R65,
90_conflicts.md C6). -/
inductive IdxShift where
  | zero
  | four
deriving DecidableEq, Repr

/-- `MIXINIT`: the compact-state words XORed into each mixer register (00_scope.md R4,
43_mixer.md R161). R4 gives the words no range; they are words 0 to 23, `ST[0..191]`, since no command
reads `ST[192..199]` (10_state.md R26) and `CORE` is a function of `ST[0..191]` (45_pipeline.md R193,
70_reset_and_hazards.md R242; DEDUCED, log 23). -/
structure MixInit where
  al : List (Fin 24)
  ah : List (Fin 24)
  bl : List (Fin 24)
  bh : List (Fin 24)
deriving DecidableEq, Repr

/-- One output bit of a total function on bits, as plain data: either a constant, or a test of input
bit `i` with a tree for each answer (DESIGN CHOICE, log 22). -/
inductive BitTree where
  | leaf (b : Bool)
  | test (i : Nat) (zero one : BitTree)
deriving DecidableEq, Repr

/-- The parameters `ROUND` and `KEYGEN` (00_scope.md R4, 40_round_backend.md R120): the defaults, or any
other total functions, one tree per output bit, least significant first (log 22). Input bits count from
bit 0 of the first argument, those of the second argument follow its bit 127. -/
inductive CipherChoice where
  | aes
  | given (round keygen : Vector BitTree 128)
deriving DecidableEq, Repr

/-- The build parameters of the block (00_scope.md R4), as plain data. `xinitCell` is `XINIT_OFF / 16`:
the offset is a multiple of 16 of at most 64, since `ST128` is defined for those offsets only
(20_memory.md R63; DEDUCED, log 14). -/
structure Build where
  nlanes      : LaneCount
  hwCap       : Bool
  memPhysLog2 : Nat
  rcon        : Vector (BitVec 8) 4
  ksLaneB     : KsLaneB
  idxShift    : IdxShift
  xinitCell   : Fin 5
  mixInit     : MixInit
  ciphers     : CipherChoice
deriving DecidableEq, Repr

/-- The legal values of the parameters of R4 that their types do not already bound:
`MEM_PHYS_LOG2` in 7 to 32, and `RCON` strictly increasing. -/
abbrev Build.Legal (b : Build) : Prop :=
  7 ≤ b.memPhysLog2 ∧ b.memPhysLog2 ≤ 32 ∧
    b.rcon[0] < b.rcon[1] ∧ b.rcon[1] < b.rcon[2] ∧ b.rcon[2] < b.rcon[3]

/-- The default `MIXINIT` (43_mixer.md R161, 93 G4). -/
def mixInit : MixInit := ⟨[0, 4], [1, 5], [2, 6], [3, 7]⟩

/-- The default build (00_scope.md R4): two lanes, hardware path present, 2 MiB of storage a lane,
`RCON = (1, 2, 4, 8)`, the default `ROUND` and `KEYGEN`, and the document's literal readings
`KS_LANE_B = 3`, `IDX_SHIFT = 0`, `XINIT_OFF = 64`. -/
def build : Build where
  nlanes      := .two
  hwCap       := true
  memPhysLog2 := 21
  rcon        := #v[0x01, 0x02, 0x04, 0x08]
  ksLaneB     := .lane3
  idxShift    := .zero
  xinitCell   := 4
  mixInit     := mixInit
  ciphers     := .aes

/-- The two cryptographic parameters as the total functions they are (00_scope.md R4,
40_round_backend.md R120). The lane operations take them as an argument; a machine applies those its
build names. -/
structure Ciphers where
  round  : W128 → W128 → W128
  keygen : W128 → BitVec 8 → W128

/-- The collaborators of the host procedures, outside the block and uninterpreted
(45_pipeline.md R196, 93 U4): `ABSORB`, `PERMUTE`, `DIGEST[0..3]`. -/
structure Collaborators where
  absorb  : List Byte → Vector Byte 200
  permute : Vector Byte 200 → Vector Byte 200
  digest  : Fin 4 → Vector Byte 200 → Vector Byte 32

/-- FREE VALUE (log 10): what `MASK` reads when `MEM_LOG2 ≥ 37`, where the stated value
`2^(MEM_LOG2-4) - 1` does not fit the 32-bit register (10_state.md R39). It has no body. -/
opaque wideMask : BitVec 6 → W32

end Sys2Proof.Config
end

