-- ==== Sys2Proof/Syntax.lean ====
section
/-! DEFINITION. The commands of CNCORE (30_encoding.md R97): one constructor per row of the opcode
table, with the operand fields of its format (R92 to R95). -/

namespace Sys2Proof

/-- `LN`: the context lane a command acts on (30_encoding.md R91). -/
inductive LaneId where
  | l0
  | l1
deriving DecidableEq, Repr

/-- The other context lane. -/
def LaneId.other : LaneId → LaneId
  | .l0 => .l1
  | .l1 => .l0

/-- `SEL`: the key seed, A (state bytes 0 to 31) or B (state bytes 32 to 63) (30_encoding.md R91). -/
inductive Seed where
  | a
  | b
deriving DecidableEq, Repr

/-- The eleven commands (30_encoding.md R97). `KR` keeps its four encoded bits; which values are
legal is the well-formedness check (R99). -/
inductive Instr where
  | nop
  | encr (ln : LaneId) (xd xs : Fin 8) (kr : BitVec 4)
  | kstep (ln : LaneId) (kr : BitVec 4) (rc : BitVec 8)
  | kexp (ln : LaneId) (sel : Seed)
  | explode (ln : LaneId)
  | mixi (ln : LaneId)
  | mixs (ln : LaneId)
  | mix (ln : LaneId)
  | implode (ln : LaneId)
  | core (ln : LaneId)
  | core2
deriving DecidableEq, Repr

end Sys2Proof
end

