-- ==== Sys2Proof/WellFormed.lean ====
section
/-! DEFINITION. The constraints on a command that its format's mask cannot express
(30_encoding.md R97, R99). -/

namespace Sys2Proof

/-- A context lane exists: lane 1 only when `NLANES = 2` (30_encoding.md R99). -/
def LaneId.exists (n : Config.LaneCount) : LaneId → Bool
  | .l0 => true
  | .l1 => n == .two

/-- The values of `KR` that `ENCR` admits: `K[10..15]` do not exist (R99). -/
def encrKeyLegal (kr : BitVec 4) : Bool := kr.toNat ≤ 9

/-- The values of `KR` that `KSTEP` admits: an even start whose written pair exists (R99). -/
def kstepKeyLegal (kr : BitVec 4) : Bool := kr == 0 || kr == 2 || kr == 4 || kr == 6

/-- The operand constraint of a command's row (R97, R99), the lane count aside. -/
def Instr.operandsLegal : Instr → Bool
  | .nop => true
  | .encr _ _ _ kr => encrKeyLegal kr
  | .kstep _ kr _ => kstepKeyLegal kr
  | .kexp _ _ => true
  | .explode _ => true
  | .mixi _ => true
  | .mixs _ => true
  | .mix _ => true
  | .implode _ => true
  | .core _ => true
  | .core2 => true

/-- The lanes a command names exist in this build (R97, R99). -/
def Instr.lanesExist (n : Config.LaneCount) : Instr → Bool
  | .nop => true
  | .encr ln _ _ _ => ln.exists n
  | .kstep ln _ _ => ln.exists n
  | .kexp ln _ => ln.exists n
  | .explode ln => ln.exists n
  | .mixi ln => ln.exists n
  | .mixs ln => ln.exists n
  | .mix ln => ln.exists n
  | .implode ln => ln.exists n
  | .core ln => ln.exists n
  | .core2 => n == .two

/-- A command that some legal word encodes in a build with `n` lanes (R97 to R99). -/
def Instr.wellFormed (n : Config.LaneCount) (i : Instr) : Bool :=
  i.operandsLegal && i.lanesExist n

end Sys2Proof
end

