-- ==== Sys2Proof/Decode.lean ====
section
/-! DEFINITION. The command word (30_encoding.md R90 to R100): its fields, the opcode table as rows of
mask and match, the total decoder, and the encoder. -/

namespace Sys2Proof

/-- Why a word is illegal (30_encoding.md R98): a name for each clause of R100. Every one of them
ends in the one fault 6 (60_exceptions.md R221). -/
inductive Illegal where
  /-- `OP` in `0x0B .. 0xFF`. -/
  | unknownOpcode
  /-- A field the format does not use is not zero. -/
  | mustBeZero
  /-- `KR` outside the values of R99. -/
  | badKeyIndex
  /-- A lane that this build does not have. -/
  | noSuchLane
deriving DecidableEq, Repr

namespace Field

/-- `OP`, bits 7:0 (R91). -/
def op (w : W32) : BitVec 8 := w.extractLsb' 0 8

/-- `LN`, bit 8 (R91). -/
def ln (w : W32) : LaneId := if w.getLsbD 8 then .l1 else .l0

/-- `XD`, bits 11:9 (R91). -/
def xd (w : W32) : Fin 8 := (w.extractLsb' 9 3).toFin

/-- `XS`, bits 14:12 (R91). -/
def xs (w : W32) : Fin 8 := (w.extractLsb' 12 3).toFin

/-- `SEL`, bit 15 (R91). -/
def sel (w : W32) : Seed := if w.getLsbD 15 then .b else .a

/-- `KR`, bits 19:16 (R91). -/
def kr (w : W32) : BitVec 4 := w.extractLsb' 16 4

/-- `RC`, bits 31:24 (R91). -/
def rc (w : W32) : BitVec 8 := w.extractLsb' 24 8

end Field

/-- One row of the opcode table (R97): the masked bits, their value, and the command read from the
fields of R91. -/
structure Row where
  mask : W32
  make : W32 → Instr

/-- The row of R97 with this opcode; its match value is the opcode itself, every other masked bit
being zero (R100). -/
def rowOf (op : BitVec 8) : Option Row :=
  match op.toNat with
  | 0x00 => some ⟨0xFFFFFFFF, fun _ => .nop⟩
  | 0x01 => some ⟨0xFFF080FF, fun w => .encr (Field.ln w) (Field.xd w) (Field.xs w) (Field.kr w)⟩
  | 0x02 => some ⟨0x00F0FEFF, fun w => .kstep (Field.ln w) (Field.kr w) (Field.rc w)⟩
  | 0x03 => some ⟨0xFFFF7EFF, fun w => .kexp (Field.ln w) (Field.sel w)⟩
  | 0x04 => some ⟨0xFFFFFEFF, fun w => .explode (Field.ln w)⟩
  | 0x05 => some ⟨0xFFFFFEFF, fun w => .mixi (Field.ln w)⟩
  | 0x06 => some ⟨0xFFFFFEFF, fun w => .mixs (Field.ln w)⟩
  | 0x07 => some ⟨0xFFFFFEFF, fun w => .mix (Field.ln w)⟩
  | 0x08 => some ⟨0xFFFFFEFF, fun w => .implode (Field.ln w)⟩
  | 0x09 => some ⟨0xFFFFFEFF, fun w => .core (Field.ln w)⟩
  | 0x0A => some ⟨0xFFFFFFFF, fun _ => .core2⟩
  | _ => none

/-- R100: decoding is total, and an illegal word is rejected by name. -/
def decode (n : Config.LaneCount) (w : W32) : Except Illegal Instr :=
  match rowOf (Field.op w) with
  | none => .error .unknownOpcode
  | some row =>
    if w &&& row.mask ≠ (Field.op w).setWidth 32 then .error .mustBeZero
    else if (row.make w).operandsLegal = false then .error .badKeyIndex
    else if (row.make w).lanesExist n = false then .error .noSuchLane
    else .ok (row.make w)

/-- The `LN` bit of a lane (R91). -/
def LaneId.bit : LaneId → BitVec 1
  | .l0 => 0
  | .l1 => 1

/-- The `SEL` bit of a seed (R91). -/
def Seed.bit : Seed → BitVec 1
  | .a => 0
  | .b => 1

/-- A command word laid out field by field, most significant first (R91): `RC`, `Z`, `KR`, `SEL`,
`XS`, `XD`, `LN`, `OP`. -/
def assemble (op : BitVec 8) (ln : BitVec 1) (xd xs : BitVec 3) (sel : BitVec 1) (kr : BitVec 4)
    (rc : BitVec 8) : W32 :=
  rc ++ (0 : BitVec 4) ++ kr ++ sel ++ xs ++ xd ++ ln ++ op

/-- The word of a command (R91 to R95): a field its format does not use is zero. -/
def encode : Instr → W32
  | .nop => assemble 0x00 0 0 0 0 0 0
  | .encr ln xd xs kr => assemble 0x01 ln.bit (.ofFin xd) (.ofFin xs) 0 kr 0
  | .kstep ln kr rc => assemble 0x02 ln.bit 0 0 0 kr rc
  | .kexp ln sel => assemble 0x03 ln.bit 0 0 sel.bit 0 0
  | .explode ln => assemble 0x04 ln.bit 0 0 0 0 0
  | .mixi ln => assemble 0x05 ln.bit 0 0 0 0 0
  | .mixs ln => assemble 0x06 ln.bit 0 0 0 0 0
  | .mix ln => assemble 0x07 ln.bit 0 0 0 0 0
  | .implode ln => assemble 0x08 ln.bit 0 0 0 0 0
  | .core ln => assemble 0x09 ln.bit 0 0 0 0 0
  | .core2 => assemble 0x0A 0 0 0 0 0 0

/-- The command the decoder of the default build reads from a table word: its `nbits` low bits, every
bit above them zero. -/
def decodeTableWord (nbits w : Nat) : Option Instr :=
  match decode Config.build.nlanes (BitVec.ofNat 32 (w % 2 ^ nbits)) with
  | .ok i => some i
  | .error _ => none

end Sys2Proof
end

