-- ==== Sys2Proof/Machine/Bits.lean ====
section
/-! DEFINITION. The notation of 00_scope.md R6 to R8 and the byte order of 20_memory.md R60: fields,
lanes and halves of a value, little-endian bytes, and the counted loop. -/

namespace Sys2Proof.Machine

/-- `byte(v, i) = v[8i+7 : 8i]` (R6). -/
def byteOf {n : Nat} (v : BitVec n) (i : Nat) : Byte := v.extractLsb' (8 * i) 8

/-- `lane32(v, i) = v[32i+31 : 32i]` (R6). -/
def lane32 {n : Nat} (v : BitVec n) (i : Nat) : W32 := v.extractLsb' (32 * i) 32

/-- `v` with `lane32(v, i)` replaced, every other bit kept: a host write of one word of a wide
register (20_memory.md R72). -/
def setLane32 {n : Nat} (v : BitVec n) (i : Nat) (w : W32) : BitVec n :=
  (v &&& ~~~((0xFFFFFFFF : W32).setWidth n <<< (32 * i))) ||| (w.setWidth n <<< (32 * i))

/-- `lo64(v) = v[63:0]` (R6). -/
def lo64 (v : W128) : W64 := v.extractLsb' 0 64

/-- `hi64(v) = v[127:64]` (R6). -/
def hi64 (v : W128) : W64 := v.extractLsb' 64 64

/-- `cat(h, l)`: the 128-bit value with high half `h` and low half `l` (R6). -/
def cat (h l : W64) : W128 := h ++ l

/-- Four 32-bit lanes as a 128-bit value, lane 0 least significant (R6). -/
def ofLanes (l0 l1 l2 l3 : W32) : W128 := l3 ++ l2 ++ l1 ++ l0

/-- `bcast32(w)`: `w` in every 32-bit lane (R7). -/
def bcast32 (w : W32) : W128 := ofLanes w w w w

/-- The value of a byte string, byte 0 least significant (20_memory.md R60). -/
def leNat : List Byte → Nat
  | [] => 0
  | b :: bs => b.toNat + 256 * leNat bs

/-- The `n`-byte little-endian value at offset `a` of a buffer given by its bytes (R60). -/
def leRead (buf : Nat → Byte) (a n : Nat) : Nat := leNat ((List.range n).map fun i => buf (a + i))

/-- The `n` low bytes of a value, byte 0 first (R60). -/
def leBytes {w : Nat} (n : Nat) (v : BitVec w) : List Byte := (List.range n).map (byteOf v)

/-- `for i in start .. start+count-1` in that order, carrying a value (R8). -/
def forRange {α : Type} (f : Nat → α → α) : Nat → Nat → α → α
  | _, 0, a => a
  | i, n + 1, a => forRange f (i + 1) n (f i a)

/-- Register `i` of a file. The indices of every caller are below `n`. -/
def fileRead {n w : Nat} (f : Vector (BitVec w) n) (i : Nat) : BitVec w := f[i]?.getD 0

/-- A file with register `i` replaced; nothing changes for an index outside it. -/
def fileWrite {n w : Nat} (f : Vector (BitVec w) n) (i : Nat) (v : BitVec w) :
    Vector (BitVec w) n := f.setIfInBounds i v

end Sys2Proof.Machine
end

