-- ==== Sys2Proof/Machine/Aes.lean ====
section
/-! DEFINITION. The default values of the cryptographic parameters (40_round_backend.md R121 to R127),
which the spec supplies from general knowledge (93 G1, G2; PRESUMED, log 8): one AES round, its
word-and-table form, and the key-generation sub-step. -/

namespace Sys2Proof.Machine

/-- A row of the S-box table of 40_round_backend.md R122, the entry of column 0 first. -/
def sboxRow (hi : Nat) : Nat :=
  match hi with
  | 0x0 => 0x637c777bf26b6fc53001672bfed7ab76
  | 0x1 => 0xca82c97dfa5947f0add4a2af9ca472c0
  | 0x2 => 0xb7fd9326363ff7cc34a5e5f171d83115
  | 0x3 => 0x04c723c31896059a071280e2eb27b275
  | 0x4 => 0x09832c1a1b6e5aa0523bd6b329e32f84
  | 0x5 => 0x53d100ed20fcb15b6acbbe394a4c58cf
  | 0x6 => 0xd0efaafb434d338545f9027f503c9fa8
  | 0x7 => 0x51a3408f929d38f5bcb6da2110fff3d2
  | 0x8 => 0xcd0c13ec5f974417c4a77e3d645d1973
  | 0x9 => 0x60814fdc222a908846eeb814de5e0bdb
  | 0xa => 0xe0323a0a4906245cc2d3ac629195e479
  | 0xb => 0xe7c8376d8dd54ea96c56f4ea657aae08
  | 0xc => 0xba78252e1ca6b4c6e8dd741f4bbd8b8a
  | 0xd => 0x703eb5664803f60e613557b986c11d9e
  | 0xe => 0xe1f8981169d98e949b1e87e9ce5528df
  | _ => 0x8ca1890dbfe6426841992d0fb054bb16

/-- `SBOX[v]` (40_round_backend.md R122): row = high nibble, column = low nibble. -/
def sbox (v : Byte) : Byte :=
  BitVec.ofNat 8 (sboxRow (v.toNat / 16) >>> (8 * (15 - v.toNat % 16)))

/-- `mul2` on bytes (40_round_backend.md R124). -/
def mul2 (a : Byte) : Byte := (a <<< 1) ^^^ (if a.getLsbD 7 then 0x1B else 0)

/-- `mul3` on bytes (40_round_backend.md R124). -/
def mul3 (a : Byte) : Byte := mul2 a ^^^ a

/-- Four bytes as a 32-bit word, byte 0 least significant (00_scope.md R6). -/
def ofBytes4 (b0 b1 b2 b3 : Byte) : W32 := b3 ++ b2 ++ b1 ++ b0

/-- `byte(v, i)` after SubBytes and ShiftRows, for row `r` and column `c` (R122, R123):
`t[r + 4c] = SBOX[b[r + 4*((c + r) mod 4)]]`. -/
def shiftedByte (x : W128) (r c : Nat) : Byte := sbox (byteOf x (r + 4 * ((c + r) % 4)))

/-- Column `c` after MixColumns (40_round_backend.md R124). -/
def mixedColumn (x : W128) (c : Nat) : W32 :=
  let a0 := shiftedByte x 0 c
  let a1 := shiftedByte x 1 c
  let a2 := shiftedByte x 2 c
  let a3 := shiftedByte x 3 c
  ofBytes4 (mul2 a0 ^^^ mul3 a1 ^^^ a2 ^^^ a3) (a0 ^^^ mul2 a1 ^^^ mul3 a2 ^^^ a3)
    (a0 ^^^ a1 ^^^ mul2 a2 ^^^ mul3 a3) (mul3 a0 ^^^ a1 ^^^ a2 ^^^ mul2 a3)

/-- `ROUND_AES(x, k) = MixColumns(ShiftRows(SubBytes(x))) ^ k` (40_round_backend.md R121, R125). -/
def roundAes (x k : W128) : W128 :=
  ofLanes (mixedColumn x 0) (mixedColumn x 1) (mixedColumn x 2) (mixedColumn x 3) ^^^ k

/-- The table `T0` of the software path (40_round_backend.md R126):
`mul2(S) | S<<8 | S<<16 | mul3(S)<<24`. -/
def tableZero (v : Byte) : W32 :=
  ofBytes4 (mul2 (sbox v)) (sbox v) (sbox v) (mul3 (sbox v))

/-- `Tn[v]`: `T0[v]` rotated left by `8n` bits (40_round_backend.md R126). -/
def tableEntry (n : Nat) (v : Byte) : W32 := (tableZero v).rotateLeft (8 * n)

/-- One output column of the word-and-table form, before the key (40_round_backend.md R126). -/
def tableColumn (x : W128) (c : Nat) : W32 :=
  tableEntry 0 (byteOf x (4 * c)) ^^^ tableEntry 1 (byteOf x (4 * ((c + 1) % 4) + 1)) ^^^
    tableEntry 2 (byteOf x (4 * ((c + 2) % 4) + 2)) ^^^
    tableEntry 3 (byteOf x (4 * ((c + 3) % 4) + 3))

/-- The software path of the round (40_round_backend.md R126), on 32-bit words. -/
def roundTable (x k : W128) : W128 :=
  ofLanes (tableColumn x 0 ^^^ lane32 k 0) (tableColumn x 1 ^^^ lane32 k 1)
    (tableColumn x 2 ^^^ lane32 k 2) (tableColumn x 3 ^^^ lane32 k 3)

/-- `SubWord` (40_round_backend.md R127): the S-box on each of the four bytes. -/
def subWord (w : W32) : W32 :=
  ofBytes4 (sbox (byteOf w 0)) (sbox (byteOf w 1)) (sbox (byteOf w 2)) (sbox (byteOf w 3))

/-- `RotWord(w) = (w >> 8) | (w << 24)` (40_round_backend.md R127). -/
def rotWord (w : W32) : W32 := (w >>> 8) ||| (w <<< 24)

/-- `KEYGEN_AES(x, rc)` (40_round_backend.md R127). -/
def keygenAes (x : W128) (rc : BitVec 8) : W128 :=
  let w1 := subWord (lane32 x 1)
  let w3 := subWord (lane32 x 3)
  ofLanes w1 (rotWord w1 ^^^ rc.setWidth 32) w3 (rotWord w3 ^^^ rc.setWidth 32)

/-- The default `ROUND` and `KEYGEN` (00_scope.md R4). One `ROUND` serves both values of
`CFG_BACKEND.HW` (40_round_backend.md R131). -/
def ciphers : Config.Ciphers := ⟨roundAes, keygenAes⟩

end Sys2Proof.Machine
end

