-- ==== Sys2Proof/Machine/Ciphers.lean ====
section
/-! DEFINITION. The functions `ROUND` and `KEYGEN` that a build names (00_scope.md R4,
40_round_backend.md R120): the defaults, or any others given as plain data (log 22). -/

namespace Sys2Proof.Machine

/-- The output bit a tree gives on input bits `x`. -/
def evalTree (x : Nat → Bool) : Config.BitTree → Bool
  | .leaf b => b
  | .test i zero one => if x i then evalTree x one else evalTree x zero

/-- The word with the given bits, bit 0 least significant. -/
def bitsOf (f : Nat → Bool) : (w : Nat) → BitVec w
  | 0 => 0
  | w + 1 => BitVec.cons (f w) (bitsOf f w)

/-- The 128-bit value of 128 trees on input bits `x`. -/
def evalTrees (t : Vector Config.BitTree 128) (x : Nat → Bool) : W128 :=
  bitsOf (fun i => evalTree x (t.toList.getD i (.leaf false))) 128

/-- The bits of two arguments, the second after the first (the model's form, log 22). -/
def argBits {w : Nat} (x : W128) (y : BitVec w) (i : Nat) : Bool := (y ++ x).getLsbD i

/-- `ROUND` and `KEYGEN` of a build (00_scope.md R4). -/
def ciphersOf (b : Config.Build) : Config.Ciphers :=
  match b.ciphers with
  | .aes => ciphers
  | .given round keygen =>
    ⟨fun x k => evalTrees round (argBits x k), fun x rc => evalTrees keygen (argBits x rc)⟩

end Sys2Proof.Machine
end

