-- ==== Sys2Proof/Machine/State.lean ====
section
/-! DEFINITION. The state of CNCORE as plain data (10_state.md R20 to R43), the reasons a step can
stop, and the state after reset. -/

namespace Sys2Proof.Machine

/-- A scratchpad: (address, byte) pairs in one canonical form, addresses strictly rising and no entry
holding what an unlisted address reads as (10_state.md R27). -/
abbrev Memory := List Host.Cell

/-- What an unlisted scratchpad byte reads as. DESIGN CHOICE, unsafe (log 6): the spec leaves the
contents after reset unspecified (10_state.md R42). -/
def Memory.unlisted : Byte := 0

/-- The canonical form of a scratchpad: no entry equals the unlisted byte, and addresses rise. -/
def Memory.wf : Memory → Bool
  | [] => true
  | [c] => c.2 != Memory.unlisted
  | c :: d :: m => c.2 != Memory.unlisted && decide (c.1 < d.1) && Memory.wf (d :: m)

/-- One context lane (10_state.md R20): the compact state (R26), the scratchpad (R27), the round-key
file (R22), the lane-group file (R23) and the mixer registers (R24). -/
structure Lane where
  st  : Vector Byte 200
  sp  : Memory
  k   : Vector W128 10
  x   : Vector W128 8
  al  : W64
  ah  : W64
  bl  : W64
  bh  : W64
  idx : W64
deriving DecidableEq, Repr

/-- The run states of `STATUS.RUN` (10_state.md R38). -/
inductive RunState where
  | unconfigured
  | ready
  | busy
  | fault
deriving DecidableEq, Repr

/-- One input of the machine: a host access to `REG` or `SPAD` (20_memory.md R72, R73), or the
external reset (70_reset_and_hazards.md R240). The reset carries the lane contents it leaves: the
spec says they are arbitrary (10_state.md R42, 93 U1), so the input supplies them (log 7). -/
inductive HostAccess where
  /-- A 32-bit write to a `REG` offset. -/
  | regWrite (off : Nat) (v : W32)
  /-- A 32-bit read of a `REG` offset. -/
  | regRead (off : Nat)
  /-- A write of any width to a lane's scratchpad, lowest address first. -/
  | spadWrite (l : LaneId) (a : Nat) (bytes : List Byte)
  /-- A read of any width of a lane's scratchpad. -/
  | spadRead (l : LaneId) (a n : Nat)
  /-- The external reset, with the contents the two lanes happen to hold after it. -/
  | reset (lane0 lane1 : Lane)
deriving DecidableEq, Repr

/-- What the last host read returned. The model's own field (log 2). -/
inductive Reply where
  | none
  | word (v : W32)
  | bytes (bs : List Byte)
deriving DecidableEq, Repr

/-- The machine (10_state.md R20). `build` and the two fields `inbox` and `reply` are the model's own
(log 1, 2, 3); everything else is the spec's. -/
structure State where
  build        : Config.Build
  cfgBackendHw : Bool
  cfgMemLog2   : BitVec 6
  cfgIter      : W32
  lock         : Bool
  run          : RunState
  done         : Bool
  faultCode    : BitVec 8
  lane0        : Lane
  lane1        : Lane
  inbox        : List HostAccess
  reply        : Reply
deriving DecidableEq, Repr

/-- Why a step stops with a fault. The faults of 60_exceptions.md are none of these: they are next
states with `RUN = FAULT` (R216). -/
inductive Fault where
  /-- Raised by a host access outside an address space: past the end of `REG` (20_memory.md R70) or
  past a lane's `2^MEM_PHYS_LOG2` scratchpad bytes, or a scratchpad of a lane the build lacks
  (93 U6). Safe: the machine stops. -/
  | noSuchAddress
deriving DecidableEq, Repr

/-- Why a step has no meaning. -/
inductive Refusal where
  /-- Raised by an arm of `exec` whose instruction has no meaning yet. Safe: the machine stops. -/
  | notModelled (mnemonic : String)
  /-- Raised by any host access but a `STATUS` read or a reset while `RUN = BUSY`
  (70_reset_and_hazards.md R245, 93 U5). Safe: the machine stops. -/
  | hostMoveWhileBusy
  /-- Raised by a host access to an undefined or misaligned offset inside `REG`
  (10_state.md R40, 93 U6). Safe: the machine stops. -/
  | undefinedOffset
deriving DecidableEq, Repr

/-- A lane whose unspecified contents are all zero. DESIGN CHOICE, unsafe (log 5). -/
def Lane.reset : Lane where
  st  := Vector.replicate 200 0
  sp  := []
  k   := Vector.replicate 10 0
  x   := Vector.replicate 8 0
  al  := 0
  ah  := 0
  bl  := 0
  bh  := 0
  idx := 0

/-- The table of 10_state.md R42 for a build: the control registers at their stated values, the lanes
at contents the caller supplies, and `inbox` as the accesses still to come. -/
def State.resetWith (b : Config.Build) (lane0 lane1 : Lane) (inbox : List HostAccess)
    (reply : Reply) : State where
  build        := b
  cfgBackendHw := false
  cfgMemLog2   := 0
  cfgIter      := 0
  lock         := false
  run          := .unconfigured
  done         := false
  faultCode    := 0
  lane0        := lane0
  lane1        := lane1
  inbox        := inbox
  reply        := reply

/-- The machine right after reset (10_state.md R42), default build, unspecified contents zero. -/
def State.reset : State := State.resetWith Config.build Lane.reset Lane.reset [] .none

end Sys2Proof.Machine
end

