-- ==== Sys2Proof/Machine/Flags.lean ====
section
/-! DEFINITION. The status fields and the read-only registers computed from them (10_state.md R31 to
R39): there are no arithmetic flags (R30), the flag-like state is `RUN`, `DONE` and `FAULT_CODE`. -/

namespace Sys2Proof.Machine

/-- The two-bit code of `STATUS.RUN` (10_state.md R38). -/
def RunState.code : RunState → BitVec 2
  | .unconfigured => 0
  | .ready => 1
  | .busy => 2
  | .fault => 3

/-- `STATUS` (10_state.md R38): `RUN` in bits 1:0, `DONE` in bit 2, `FAULT_CODE` in bits 15:8, the
reserved bits zero (R38, 93 U11). -/
def State.statusWord (s : State) : W32 :=
  (0 : BitVec 16) ++ s.faultCode ++ (0 : BitVec 5) ++ BitVec.ofBool s.done ++ s.run.code

/-- `ID` (10_state.md R31). -/
def idWord : W32 := 0x434E0001

/-- `CAP` (10_state.md R32): `HWROUND`, `DUAL` and `MEM_PHYS_LOG2`, hard-wired from the build. -/
def capWord (b : Config.Build) : W32 :=
  (0 : BitVec 18) ++ BitVec.ofNat 6 b.memPhysLog2 ++ (0 : BitVec 6) ++
    BitVec.ofBool (b.nlanes == .two) ++ BitVec.ofBool b.hwCap

/-- `MEM = 2^MEM_LOG2` bytes (10_state.md R34). -/
def memBytes (m : BitVec 6) : Nat := 2 ^ m.toNat

/-- `MASK` as a number (10_state.md R39): `MEM/16 - 1` when `MEM_LOG2 ≥ 4`, else 0. -/
def maskNat (m : BitVec 6) : Nat := if 4 ≤ m.toNat then 2 ^ (m.toNat - 4) - 1 else 0

/-- The `MASK` register (10_state.md R39). For `MEM_LOG2 ≥ 37` the stated value does not fit 32 bits
and a free value is read (log 10); no such configuration passes the lock. -/
def maskWord (m : BitVec 6) : W32 :=
  if m.toNat ≤ 36 then BitVec.ofNat 32 (maskNat m) else Config.wideMask m

/-- A command starts (10_state.md R38): `RUN ← BUSY`, `DONE ← 0`. -/
def State.start (s : State) : State := { s with run := .busy, done := false }

/-- A command completes without fault (10_state.md R38): `RUN ← READY`, `DONE ← 1`. -/
def State.complete (s : State) : State := { s with run := .ready, done := true }

end Sys2Proof.Machine
end

