-- ==== Sys2Proof/Machine/Ops.lean ====
section
/-! DEFINITION. The named operations over the scratchpad, the register files, the lanes and the run
state, and the entry into the FAULT run state (60_exceptions.md R216), once for every command. -/

namespace Sys2Proof.Machine

/-- One byte of a scratchpad; reads have no side effect (20_memory.md R68). -/
def Memory.read : Memory → Nat → Byte
  | [], _ => Memory.unlisted
  | c :: m, a => if c.1 = a then c.2 else Memory.read m a

/-- The cells of a byte string placed at `a`; a byte equal to the unlisted one is not listed. -/
def Memory.cellsAt : Nat → List Byte → Memory
  | _, [] => []
  | a, b :: bs =>
    if b = Memory.unlisted then Memory.cellsAt (a + 1) bs else (a, b) :: Memory.cellsAt (a + 1) bs

/-- Replaces the bytes from `a` on by the byte string and changes nothing else (20_memory.md R63). -/
def Memory.write (m : Memory) (a : Nat) (bs : List Byte) : Memory :=
  m.filter (fun c => c.1 < a) ++ Memory.cellsAt a bs ++ m.filter (fun c => a + bs.length ≤ c.1)

/-- `MemRead(SP, a, 16)` (20_memory.md R62). -/
def Lane.memRead (l : Lane) (a : Nat) : W128 := BitVec.ofNat 128 (leRead l.sp.read a 16)

/-- `MemWrite(SP, a, 16, v)` (20_memory.md R63). -/
def Lane.memWrite (l : Lane) (a : Nat) (v : W128) : Lane :=
  { l with sp := l.sp.write a (leBytes 16 v) }

/-- `K[r]` (10_state.md R22). -/
def Lane.key (l : Lane) (r : Nat) : W128 := fileRead l.k r

/-- `K[r] ← v`. -/
def Lane.setKey (l : Lane) (r : Nat) (v : W128) : Lane := { l with k := fileWrite l.k r v }

/-- `X[j]` (10_state.md R23). -/
def Lane.xreg (l : Lane) (j : Nat) : W128 := fileRead l.x j

/-- `X[j] ← v`. -/
def Lane.setXreg (l : Lane) (j : Nat) (v : W128) : Lane := { l with x := fileWrite l.x j v }

/-- The lane `LN` names (30_encoding.md R96). -/
def State.lane (s : State) : LaneId → Lane
  | .l0 => s.lane0
  | .l1 => s.lane1

/-- One lane replaced; the other is separate storage (10_state.md R28). -/
def State.setLane (s : State) : LaneId → Lane → State
  | .l0, l => { s with lane0 := l }
  | .l1, l => { s with lane1 := l }

/-- A lane rewritten by a function of it. -/
def State.onLane (s : State) (ln : LaneId) (f : Lane → Lane) : State :=
  s.setLane ln (f (s.lane ln))

/-- The fault codes that are raised (60_exceptions.md R211); codes 4 and 5 never are (R219, R220). -/
inductive FaultCode where
  | backendUnsupported
  | bufferTooSmall
  | badMemSize
  | illegalCmd
  | notConfigured
  | cfgLocked
deriving DecidableEq, Repr

/-- The number recorded in `STATUS.FAULT_CODE` (60_exceptions.md R211). -/
def faultNumber : FaultCode → BitVec 8
  | .backendUnsupported => 1
  | .bufferTooSmall => 2
  | .badMemSize => 3
  | .illegalCmd => 6
  | .notConfigured => 7
  | .cfgLocked => 8

/-- `raise Fault(code)` (60_exceptions.md R216): `RUN ← FAULT`, `FAULT_CODE ← code`, `DONE ← 0`, and
nothing else changes. There is no return from it but reset (R217). -/
def State.raiseFault (s : State) (c : FaultCode) : State :=
  { s with run := .fault, faultCode := faultNumber c, done := false }

/-- A write to `CMD`, seen by run state first and legality second (60_exceptions.md R225): fault 7
while UNCONFIGURED (R222), ignored in FAULT (R217), no meaning while BUSY (R223), fault 6 for an
illegal command in READY (R221), and otherwise the command runs from BUSY to READY
(10_state.md R38) as one atomic transition (R29, 70_reset_and_hazards.md R252). -/
def command (legal : Bool) (body : State → State) (s : State) :
    Host.Outcome State Fault Refusal :=
  match s.run with
  | .unconfigured => .next (s.raiseFault .notConfigured)
  | .ready => if legal then .next (body s.start).complete else .next (s.raiseFault .illegalCmd)
  | .fault => .next s
  | .busy => .refused .hostMoveWhileBusy

/-- A write to `CMD` of a word that decodes to no command (60_exceptions.md R221, R222). -/
def illegalCommand (s : State) : Host.Outcome State Fault Refusal := command false id s

end Sys2Proof.Machine
end

