-- ==== Sys2Proof/Machine/Operands.lean ====
section
/-! DEFINITION. The operand forms (00_scope.md R8, 20_memory.md R60 to R66): the 128-bit and 64-bit
views of the compact state, and the cell address of a data-dependent index. -/

namespace Sys2Proof.Machine

/-- `ST[a]` (10_state.md R26). -/
def Lane.stByte (l : Lane) (a : Nat) : Byte := fileRead l.st a

/-- `ST128(a)`: bytes `a .. a+15` of the compact state (00_scope.md R8). -/
def Lane.st128 (l : Lane) (a : Nat) : W128 := BitVec.ofNat 128 (leRead l.stByte a 16)

/-- `ST64(i)`: bytes `8i .. 8i+7` of the compact state (00_scope.md R8). -/
def Lane.st64 (l : Lane) (i : Nat) : W64 := BitVec.ofNat 64 (leRead l.stByte (8 * i) 8)

/-- The compact state with the `n` low bytes of a value at `a .. a+n-1` (20_memory.md R60, R63). -/
def stWrite {w : Nat} (st : Vector Byte 200) (a n : Nat) (v : BitVec w) : Vector Byte 200 :=
  forRange (fun i st => fileWrite st (a + i) (byteOf v i)) 0 n st

/-- `ST128(a) ← v` (20_memory.md R63). -/
def Lane.setSt128 (l : Lane) (a : Nat) (v : W128) : Lane := { l with st := stWrite l.st a 16 v }

/-- The byte offset of a key seed (41_key_schedule.md R142): `32 * SEL`. -/
def seedOffset : Seed → Nat
  | .a => 0
  | .b => 32

/-- `XINIT_OFF` (00_scope.md R4). -/
def xinitOff (b : Config.Build) : Nat := 16 * b.xinitCell.val

/-- `IDX_SHIFT` as a number (00_scope.md R4). -/
def idxShiftNat : Config.IdxShift → Nat
  | .zero => 0
  | .four => 4

/-- `cell(idx) = (idx >> IDX_SHIFT) & MASK`, `MASK` zero-extended to 64 bits (20_memory.md R65). -/
def cellOf (b : Config.Build) (m : BitVec 6) (idx : W64) : Nat :=
  ((idx >>> idxShiftNat b.idxShift) &&& BitVec.ofNat 64 (maskNat m)).toNat

/-- `EA(idx) = 16 * cell(idx)` (20_memory.md R65). -/
def ea (b : Config.Build) (m : BitVec 6) (idx : W64) : Nat := 16 * cellOf b m idx

end Sys2Proof.Machine
end

