-- ==== Sys2Proof/Machine/Backend.lean ====
section
/-! DEFINITION. The block-cipher round backend (40_round_backend.md): the cascade, `keyScheduleStep`,
and the commands `ENCR` and `KSTEP`. -/

namespace Sys2Proof.Machine

/-- The cascade (40_round_backend.md R128): `s ^ (s << 32) ^ (s << 64) ^ (s << 96)`. -/
def cascade (s : W128) : W128 := s ^^^ (s <<< 32) ^^^ (s <<< 64) ^^^ (s <<< 96)

/-- `KS_LANE_B` as a lane number (00_scope.md R4). -/
def ksLaneNat : Config.KsLaneB → Nat
  | .lane2 => 2
  | .lane3 => 3

/-- `KSTEPF(rc, (s0, s2)) = (s0', s2')` (40_round_backend.md R129): the second sub-step applies
`KEYGEN` to the updated `s0'` with round constant 0. -/
def kstepf (C : Config.Ciphers) (b : Config.Build) (rc : BitVec 8) (s0 s2 : W128) : W128 × W128 :=
  let s0' := cascade s0 ^^^ bcast32 (lane32 (C.keygen s2 rc) 3)
  let s2' := cascade s2 ^^^ bcast32 (lane32 (C.keygen s0' 0) (ksLaneNat b.ksLaneB))
  (s0', s2')

/-- The lane effect of `ENCR` (40_round_backend.md R130): `X[XD] ← ROUND(X[XS], K[KR])`. -/
def Lane.encr (C : Config.Ciphers) (xd xs kr : Nat) (l : Lane) : Lane :=
  l.setXreg xd (C.round (l.xreg xs) (l.key kr))

/-- The lane effect of `KSTEP` (40_round_backend.md R132):
`(K[KR+2], K[KR+3]) ← KSTEPF(RC, (K[KR], K[KR+1]))`. -/
def Lane.kstep (C : Config.Ciphers) (b : Config.Build) (kr : Nat) (rc : BitVec 8) (l : Lane) : Lane :=
  let p := kstepf C b rc (l.key kr) (l.key (kr + 1))
  (l.setKey (kr + 2) p.1).setKey (kr + 3) p.2

/-- `ENCR.l xd, xs, kr` (40_round_backend.md R130). -/
def execEncr (ln : LaneId) (xd xs : Fin 8) (kr : BitVec 4) (s : State) :
    Host.Outcome State Fault Refusal :=
  command (encrKeyLegal kr && ln.exists s.build.nlanes)
    (fun s => s.onLane ln (Lane.encr (ciphersOf s.build) xd xs kr.toNat)) s

/-- `KSTEP.l kr, rc` (40_round_backend.md R132). -/
def execKstep (ln : LaneId) (kr : BitVec 4) (rc : BitVec 8) (s : State) :
    Host.Outcome State Fault Refusal :=
  command (kstepKeyLegal kr && ln.exists s.build.nlanes)
    (fun s => s.onLane ln (Lane.kstep (ciphersOf s.build) s.build kr.toNat rc)) s

end Sys2Proof.Machine
end

