-- ==== Sys2Proof/Machine/KeySchedule.lean ====
section
/-! DEFINITION. The key schedule expander (41_key_schedule.md) and the command `KEXP`. -/

namespace Sys2Proof.Machine

/-- Step `i` of the expansion (41_key_schedule.md R141):
`(k[2i+2], k[2i+3]) ← KSTEPF(RCON[i], (k[2i], k[2i+1]))`. -/
def kexpStep (C : Config.Ciphers) (b : Config.Build) (i : Nat) (k : Vector W128 10) :
    Vector W128 10 :=
  let p := kstepf C b (fileRead b.rcon i) (fileRead k (2 * i)) (fileRead k (2 * i + 1))
  fileWrite (fileWrite k (2 * i + 2) p.1) (2 * i + 3) p.2

/-- `KEXPF` (41_key_schedule.md R141) on the two 16-byte halves of the seed: they are the first two
keys, and four steps over `RCON` give the other eight. All ten places are written. -/
def kexpf (C : Config.Ciphers) (b : Config.Build) (s0 s2 : W128) : Vector W128 10 :=
  forRange (kexpStep C b) 0 4 (fileWrite (fileWrite (Vector.replicate 10 0) 0 s0) 1 s2)

/-- The lane effect of `KEXP` (41_key_schedule.md R142): `K[0..9] ← KEXPF(ST[off .. off+31])`. -/
def Lane.kexp (C : Config.Ciphers) (b : Config.Build) (off : Nat) (l : Lane) : Lane :=
  { l with k := kexpf C b (l.st128 off) (l.st128 (off + 16)) }

/-- `KEXP.l A|B` (41_key_schedule.md R142). -/
def execKexp (ln : LaneId) (sel : Seed) (s : State) : Host.Outcome State Fault Refusal :=
  command (ln.exists s.build.nlanes)
    (fun s => s.onLane ln (Lane.kexp (ciphersOf s.build) s.build (seedOffset sel))) s

end Sys2Proof.Machine
end

