-- ==== Sys2Proof/Machine/Explode.lean ====
section
/-! DEFINITION. The scratchpad expander (42_explode.md) and the command `EXPLODE`. -/

namespace Sys2Proof.Machine

/-- Loads the lane group from 128 bytes of the compact state (42_explode.md R151,
44_implode.md R181): `X[j] ← ST128(off + 16j)` for `j` in 0..7. -/
def Lane.loadGroup (off : Nat) (l : Lane) : Lane :=
  forRange (fun j l => l.setXreg j (l.st128 (off + 16 * j))) 0 8 l

/-- One round key applied to the whole lane group: `X[j] ← ROUND(X[j], K[r])` for `j` in 0..7. -/
def Lane.roundGroup (C : Config.Ciphers) (r : Nat) (l : Lane) : Lane :=
  forRange (fun j l => l.setXreg j (C.round (l.xreg j) (l.key r))) 0 8 l

/-- All ten round keys in sequence, `K[0]` first (42_explode.md R151). -/
def Lane.tenRounds (C : Config.Ciphers) (l : Lane) : Lane :=
  forRange (Lane.roundGroup C) 0 10 l

/-- The lane group written to chunk `c`: cell `j` of the chunk gets `X[j]` (42_explode.md R151). -/
def Lane.storeGroup (c : Nat) (l : Lane) : Lane :=
  forRange (fun j l => l.memWrite (128 * c + 16 * j) (l.xreg j)) 0 8 l

/-- One chunk of `EXPLODE`: ten rounds, then the write; the group is the next chunk's input. -/
def Lane.explodeChunk (C : Config.Ciphers) (c : Nat) (l : Lane) : Lane :=
  (l.tenRounds C).storeGroup c

/-- The number of 128-byte chunks of the scratchpad (42_explode.md R151): `MEM/128`. -/
def chunkCount (m : BitVec 6) : Nat := memBytes m / 128

/-- The lane effect of `EXPLODE` (42_explode.md R151). -/
def Lane.explode (C : Config.Ciphers) (b : Config.Build) (m : BitVec 6) (l : Lane) : Lane :=
  forRange (Lane.explodeChunk C) 0 (chunkCount m)
    ((l.kexp C b (seedOffset .a)).loadGroup (xinitOff b))

/-- `EXPLODE.l` (42_explode.md R151). -/
def execExplode (ln : LaneId) (s : State) : Host.Outcome State Fault Refusal :=
  command (ln.exists s.build.nlanes)
    (fun s => s.onLane ln (Lane.explode (ciphersOf s.build) s.build s.cfgMemLog2)) s

end Sys2Proof.Machine
end

