-- ==== Sys2Proof/Machine/Implode.lean ====
section
/-! DEFINITION. The scratchpad compressor (44_implode.md) and the command `IMPLODE`. -/

namespace Sys2Proof.Machine

/-- Chunk `c` XORed into the lane group (44_implode.md R181): `X[j] ← X[j] ^ MemRead(128c + 16j)`. -/
def Lane.absorbGroup (c : Nat) (l : Lane) : Lane :=
  forRange (fun j l => l.setXreg j (l.xreg j ^^^ l.memRead (128 * c + 16 * j))) 0 8 l

/-- One chunk of `IMPLODE`: the XOR, then ten rounds (44_implode.md R181). -/
def Lane.implodeChunk (C : Config.Ciphers) (c : Nat) (l : Lane) : Lane :=
  (l.absorbGroup c).tenRounds C

/-- The lane group written back to the compact state (44_implode.md R181):
`ST128(64 + 16j) ← X[j]` for `j` in 0..7. -/
def Lane.writeGroup (l : Lane) : Lane :=
  forRange (fun j l => l.setSt128 (64 + 16 * j) (l.xreg j)) 0 8 l

/-- The lane effect of `IMPLODE` (44_implode.md R181). -/
def Lane.implode (C : Config.Ciphers) (b : Config.Build) (m : BitVec 6) (l : Lane) : Lane :=
  (forRange (Lane.implodeChunk C) 0 (chunkCount m)
    ((l.kexp C b (seedOffset .b)).loadGroup 64)).writeGroup

/-- `IMPLODE.l` (44_implode.md R181). -/
def execImplode (ln : LaneId) (s : State) : Host.Outcome State Fault Refusal :=
  command (ln.exists s.build.nlanes)
    (fun s => s.onLane ln (Lane.implode (ciphersOf s.build) s.build s.cfgMemLog2)) s

end Sys2Proof.Machine
end

