-- ==== Sys2Proof/Machine/Mixer.lean ====
section
/-! DEFINITION. The memory-hard mixer (43_mixer.md) and the commands `MIXI`, `MIXS`, `MIX`. -/

namespace Sys2Proof.Machine

/-- The XOR of the named words of the compact state (43_mixer.md R161). -/
def Lane.xorWords (l : Lane) : List (Fin 24) → W64
  | [] => 0
  | i :: is => l.st64 i.val ^^^ l.xorWords is

/-- The lane effect of `MIXI` (43_mixer.md R161): the words `MIXINIT` names, and `IDX ← AL`. -/
def Lane.mixi (b : Config.Build) (l : Lane) : Lane :=
  { l with
    al := l.xorWords b.mixInit.al
    ah := l.xorWords b.mixInit.ah
    bl := l.xorWords b.mixInit.bl
    bh := l.xorWords b.mixInit.bh
    idx := l.xorWords b.mixInit.al }

/-- The exact unsigned 64 by 64 product (43_mixer.md R165): it never overflows 128 bits. -/
def wideMul (a b : W64) : W128 := a.setWidth 128 * b.setWidth 128

/-- Steps 1 to 4 of an iteration (43_mixer.md R162): one round on the cell `IDX` selects, the XOR with
the old carry pair stored back, and the round result carried in `IDX`, `BL`, `BH`. -/
def Lane.mixFirst (C : Config.Ciphers) (b : Config.Build) (m : BitVec 6) (l : Lane) : Lane :=
  let ea1 := ea b m l.idx
  let cx := C.round (l.memRead ea1) (cat l.ah l.al)
  { l.memWrite ea1 (cx ^^^ cat l.bh l.bl) with idx := lo64 cx, bl := lo64 cx, bh := hi64 cx }

/-- Steps 5 to 9 of an iteration (43_mixer.md R162): the product with the cell the new `IDX` selects,
added crosswise to the accumulators modulo `2^64` (R166), stored, and XORed with the loaded cell. -/
def Lane.mixSecond (b : Config.Build) (m : BitVec 6) (l : Lane) : Lane :=
  let ea2 := ea b m l.idx
  let d := l.memRead ea2
  let p := wideMul l.idx (lo64 d)
  let al := l.al + hi64 p
  let ah := l.ah + lo64 p
  { l.memWrite ea2 (cat ah al) with
    ah := ah ^^^ hi64 d, al := al ^^^ lo64 d, idx := al ^^^ lo64 d }

/-- The lane effect of `MIXS` (43_mixer.md R162), the nine steps in order. -/
def Lane.mixs (C : Config.Ciphers) (b : Config.Build) (m : BitVec 6) (l : Lane) : Lane :=
  (l.mixFirst C b m).mixSecond b m

/-- The lane effect of `MIX` (43_mixer.md R163): `MIXI`, then `ITERATIONS` times `MIXS`. -/
def Lane.mix (C : Config.Ciphers) (b : Config.Build) (m : BitVec 6) (iterations : Nat) (l : Lane) :
    Lane :=
  forRange (fun _ l => l.mixs C b m) 1 iterations (l.mixi b)

/-- `MIXI.l` (43_mixer.md R161). -/
def execMixi (ln : LaneId) (s : State) : Host.Outcome State Fault Refusal :=
  command (ln.exists s.build.nlanes) (fun s => s.onLane ln (Lane.mixi s.build)) s

/-- `MIXS.l` (43_mixer.md R162). -/
def execMixs (ln : LaneId) (s : State) : Host.Outcome State Fault Refusal :=
  command (ln.exists s.build.nlanes)
    (fun s => s.onLane ln (Lane.mixs (ciphersOf s.build) s.build s.cfgMemLog2)) s

/-- `MIX.l` (43_mixer.md R163). -/
def execMix (ln : LaneId) (s : State) : Host.Outcome State Fault Refusal :=
  command (ln.exists s.build.nlanes)
    (fun s => s.onLane ln (Lane.mix (ciphersOf s.build) s.build s.cfgMemLog2 s.cfgIter.toNat)) s

end Sys2Proof.Machine
end

