-- ==== Sys2Proof/Machine/Pipeline.lean ====
section
/-! DEFINITION. The pipeline (45_pipeline.md): the commands `NOP`, `CORE` and `CORE2`. -/

namespace Sys2Proof.Machine

/-- The lane effect of `CORE` (45_pipeline.md R191): `EXPLODE; MIX; IMPLODE`. -/
def Lane.core (C : Config.Ciphers) (b : Config.Build) (m : BitVec 6) (iterations : Nat) (l : Lane) :
    Lane :=
  ((l.explode C b m).mix C b m iterations).implode C b m

/-- `NOP` (45_pipeline.md R190): no lane state changes. -/
def execNop (s : State) : Host.Outcome State Fault Refusal := command true id s

/-- The effect of `CORE` on a machine, one lane (45_pipeline.md R191). -/
def State.runCore (ln : LaneId) (s : State) : State :=
  s.onLane ln (Lane.core (ciphersOf s.build) s.build s.cfgMemLog2 s.cfgIter.toNat)

/-- `CORE.l` (45_pipeline.md R191). -/
def execCore (ln : LaneId) (s : State) : Host.Outcome State Fault Refusal :=
  command (ln.exists s.build.nlanes) (State.runCore ln) s

/-- `CORE2` (45_pipeline.md R192): `CORE.0`, then `CORE.1`; legal only with two lanes. -/
def execCore2 (s : State) : Host.Outcome State Fault Refusal :=
  command (s.build.nlanes == .two) (fun s => State.runCore .l1 (State.runCore .l0 s)) s

end Sys2Proof.Machine
end

