-- ==== Sys2Proof/Machine/Dispatch.lean ====
section
/-! DEFINITION. The meaning of every command: one arm per constructor of `Instr`
(30_encoding.md R97). -/

namespace Sys2Proof.Machine

def exec (i : Instr) (s : State) : Host.Outcome State Fault Refusal :=
  match i with
  | .nop => Sys2Proof.Machine.execNop s
  | .encr ln xd xs kr => Sys2Proof.Machine.execEncr ln xd xs kr s
  | .kstep ln kr rc => Sys2Proof.Machine.execKstep ln kr rc s
  | .kexp ln sel => Sys2Proof.Machine.execKexp ln sel s
  | .explode ln => Sys2Proof.Machine.execExplode ln s
  | .mixi ln => Sys2Proof.Machine.execMixi ln s
  | .mixs ln => Sys2Proof.Machine.execMixs ln s
  | .mix ln => Sys2Proof.Machine.execMix ln s
  | .implode ln => Sys2Proof.Machine.execImplode ln s
  | .core ln => Sys2Proof.Machine.execCore ln s
  | .core2 => Sys2Proof.Machine.execCore2 s

end Sys2Proof.Machine
end

