-- ==== Sys2Proof/Machine/Registers.lean ====
section
/-! DEFINITION. The register space `REG` (10_state.md R31 to R40, 20_memory.md R70, R72): the map of
offsets, what each register reads, and what a plain store to it does. -/

namespace Sys2Proof.Machine

/-- The five mixer registers (10_state.md R24). -/
inductive MixReg where
  | al
  | ah
  | bl
  | bh
  | idx
deriving DecidableEq, Repr

/-- The 32-bit words of a lane window (10_state.md R40): `k` numbers the words of a wide register,
least significant first (20_memory.md R72). -/
inductive LaneReg where
  | st (k : Fin 50)
  | key (r : Fin 10) (k : Fin 4)
  | x (j : Fin 8) (k : Fin 4)
  | mixer (r : MixReg) (k : Fin 2)
deriving DecidableEq, Repr

/-- The registers of `REG` (10_state.md R31 to R40). -/
inductive Reg where
  | id
  | cap
  | cfgBackend
  | cfgMem
  | cfgIter
  | ctrl
  | cmd
  | status
  | mask
  | lane (l : LaneId) (r : LaneReg)
deriving DecidableEq, Repr

/-- The number of a mixer register in its window (10_state.md R40). -/
def mixRegNumber : MixReg → Nat
  | .al => 0
  | .ah => 1
  | .bl => 2
  | .bh => 3
  | .idx => 4

/-- The offset of a word inside a lane window (10_state.md R40). -/
def laneRegOffset : LaneReg → Nat
  | .st k => 4 * k.val
  | .key r k => 0x100 + 16 * r.val + 4 * k.val
  | .x j k => 0x200 + 16 * j.val + 4 * k.val
  | .mixer r k => 0x300 + 8 * mixRegNumber r + 4 * k.val

/-- The base of a lane's window (10_state.md R40): `0x400 + 0x400*l`. -/
def windowBase : LaneId → Nat
  | .l0 => 0x400
  | .l1 => 0x800

/-- The offset of a register in `REG` (10_state.md R31 to R40). -/
def regOffset : Reg → Nat
  | .id => 0x000
  | .cap => 0x004
  | .cfgBackend => 0x008
  | .cfgMem => 0x00C
  | .cfgIter => 0x010
  | .ctrl => 0x014
  | .cmd => 0x018
  | .status => 0x01C
  | .mask => 0x020
  | .lane l r => windowBase l + laneRegOffset r

/-- The mixer register of a number, for the numbers in use (10_state.md R40). -/
def mixRegOf : Nat → Option MixReg
  | 0 => some .al
  | 1 => some .ah
  | 2 => some .bl
  | 3 => some .bh
  | 4 => some .idx
  | _ => none

/-- The word at word offset `n` of a lane window, none where it is undefined (10_state.md R40). -/
def laneRegAt (n : Nat) : Option LaneReg :=
  if h : n < 50 then some (.st ⟨n, h⟩)
  else if n < 64 then none
  else if h : n < 104 then
    some (.key ⟨(n - 64) / 4, by omega⟩ ⟨n % 4, Nat.mod_lt _ (by decide)⟩)
  else if n < 128 then none
  else if h : n < 160 then
    some (.x ⟨(n - 128) / 4, by omega⟩ ⟨n % 4, Nat.mod_lt _ (by decide)⟩)
  else if n < 192 then none
  else (mixRegOf ((n - 192) / 2)).map fun r => .mixer r ⟨n % 2, Nat.mod_lt _ (by decide)⟩

/-- The register at word offset `n` of the global part (10_state.md R31 to R39). -/
def globalRegAt : Nat → Option Reg
  | 0 => some .id
  | 1 => some .cap
  | 2 => some .cfgBackend
  | 3 => some .cfgMem
  | 4 => some .cfgIter
  | 5 => some .ctrl
  | 6 => some .cmd
  | 7 => some .status
  | 8 => some .mask
  | _ => none

/-- The size of `REG` in bytes (20_memory.md R70): `0x400 + 0x400*NLANES`. -/
def regSpaceBytes : Config.LaneCount → Nat
  | .one => 0x800
  | .two => 0xC00

/-- The register at a byte offset of `REG`: none where the offset is undefined, misaligned, or in the
window of a lane the build lacks (10_state.md R40, 93 U6). -/
def regAt (n : Config.LaneCount) (off : Nat) : Option Reg :=
  if off % 4 ≠ 0 then none
  else if off < 0x400 then globalRegAt (off / 4)
  else if off < 0x800 then (laneRegAt (off / 4 - 0x100)).map (.lane .l0)
  else if off < regSpaceBytes n then (laneRegAt (off / 4 - 0x200)).map (.lane .l1)
  else none

/-- A mixer register of a lane (10_state.md R24). -/
def Lane.mixReg (l : Lane) : MixReg → W64
  | .al => l.al
  | .ah => l.ah
  | .bl => l.bl
  | .bh => l.bh
  | .idx => l.idx

/-- One mixer register replaced. -/
def Lane.setMixReg (l : Lane) (r : MixReg) (v : W64) : Lane :=
  match r with
  | .al => { l with al := v }
  | .ah => { l with ah := v }
  | .bl => { l with bl := v }
  | .bh => { l with bh := v }
  | .idx => { l with idx := v }

/-- What a lane word reads (10_state.md R40, 20_memory.md R72). -/
def Lane.readWord (l : Lane) : LaneReg → W32
  | .st k => BitVec.ofNat 32 (leRead l.stByte (4 * k.val) 4)
  | .key r k => lane32 (l.key r.val) k.val
  | .x j k => lane32 (l.xreg j.val) k.val
  | .mixer r k => lane32 (l.mixReg r) k.val

/-- A store to a lane word: that word of its register and nothing else (10_state.md R40,
20_memory.md R72). -/
def Lane.writeWord (l : Lane) (r : LaneReg) (v : W32) : Lane :=
  match r with
  | .st k => { l with st := stWrite l.st (4 * k.val) 4 v }
  | .key r k => l.setKey r.val (setLane32 (l.key r.val) k.val v)
  | .x j k => l.setXreg j.val (setLane32 (l.xreg j.val) k.val v)
  | .mixer r k => l.setMixReg r (setLane32 (l.mixReg r) k.val v)

/-- What a register reads (10_state.md R31 to R40): reserved bits 0 (93 U11), `CMD` 0 (R37). -/
def State.readReg (s : State) : Reg → W32
  | .id => idWord
  | .cap => capWord s.build
  | .cfgBackend => (BitVec.ofBool s.cfgBackendHw).setWidth 32
  | .cfgMem => s.cfgMemLog2.setWidth 32
  | .cfgIter => s.cfgIter
  | .ctrl => (BitVec.ofBool s.lock).setWidth 32
  | .cmd => 0
  | .status => s.statusWord
  | .mask => maskWord s.cfgMemLog2
  | .lane l r => (s.lane l).readWord r

/-- The configuration check of the lock (60_exceptions.md R213), in its order of priority. -/
def State.lockCheck (s : State) : State :=
  if s.cfgBackendHw && !s.build.hwCap then s.raiseFault .backendUnsupported
  else if s.build.memPhysLog2 < s.cfgMemLog2.toNat then s.raiseFault .bufferTooSmall
  else if s.cfgMemLog2.toNat < 7 then s.raiseFault .badMemSize
  else { s with lock := true, run := .ready }

/-- A write to `CTRL` while UNCONFIGURED (10_state.md R36): a 1 in `LOCK` runs the check, a 0 does
nothing, the reserved bits are ignored. -/
def State.writeCtrl (s : State) (v : W32) : State := if v.getLsbD 0 then s.lockCheck else s

/-- A write to a `CFG_*` register before the lock keeps the defined bits (10_state.md R33 to R35). -/
def State.writeCfgBackend (s : State) (v : W32) : State := { s with cfgBackendHw := v.getLsbD 0 }

/-- `CFG_MEM` keeps bits 5:0 (10_state.md R34). -/
def State.writeCfgMem (s : State) (v : W32) : State := { s with cfgMemLog2 := v.extractLsb' 0 6 }

/-- `CFG_ITER` keeps all 32 bits (10_state.md R35). -/
def State.writeCfgIter (s : State) (v : W32) : State := { s with cfgIter := v }

/-- A write to a configuration register or `CTRL` by run state: performed while UNCONFIGURED, fault 8
after the lock (60_exceptions.md R224), ignored in FAULT (R217), no meaning while BUSY (93 U5). -/
def configWrite (s : State) (store : State → State) : Host.Outcome State Fault Refusal :=
  match s.run with
  | .unconfigured => .next (store s)
  | .ready => .next (s.raiseFault .cfgLocked)
  | .fault => .next s
  | .busy => .refused .hostMoveWhileBusy

/-- A store to lane state by run state: performed while UNCONFIGURED or READY (10_state.md R40,
20_memory.md R73), ignored in FAULT (60_exceptions.md R217), no meaning while BUSY (93 U5). -/
def laneWrite (s : State) (store : State → State) : Host.Outcome State Fault Refusal :=
  match s.run with
  | .unconfigured => .next (store s)
  | .ready => .next (store s)
  | .fault => .next s
  | .busy => .refused .hostMoveWhileBusy

/-- A write to a read-only register is ignored (10_state.md section 7), no meaning while BUSY. -/
def readOnlyWrite (s : State) : Host.Outcome State Fault Refusal :=
  match s.run with
  | .unconfigured => .next s
  | .ready => .next s
  | .fault => .next s
  | .busy => .refused .hostMoveWhileBusy

/-- A read of the host by run state (10_state.md R38, R40): while BUSY `STATUS` only. -/
def hostRead (s : State) (whileBusy : Bool) (r : Reply) : Host.Outcome State Fault Refusal :=
  match s.run, whileBusy with
  | .busy, false => .refused .hostMoveWhileBusy
  | _, _ => .next { s with reply := r }

/-- A host access to a `REG` offset where no register is: past the end of the space, or undefined
(20_memory.md R70, 10_state.md R40; log 11). -/
def noRegister (n : Config.LaneCount) (off : Nat) : Host.Outcome State Fault Refusal :=
  if off < regSpaceBytes n then .refused .undefinedOffset else .fault .noSuchAddress

/-- A host read of `REG` (20_memory.md R72); no read has a side effect. -/
def regRead (off : Nat) (s : State) : Host.Outcome State Fault Refusal :=
  match regAt s.build.nlanes off with
  | none => noRegister s.build.nlanes off
  | some r => hostRead s (r == .status) (.word (s.readReg r))

/-- The bytes `a .. a+n-1` lie in the scratchpad storage of a lane this build has
(20_memory.md R70, 93 U6). -/
def State.spadInRange (s : State) (l : LaneId) (a n : Nat) : Bool :=
  l.exists s.build.nlanes && decide (a + n ≤ 2 ^ s.build.memPhysLog2)

/-- A host write to a scratchpad (20_memory.md R73). -/
def spadWrite (l : LaneId) (a : Nat) (bs : List Byte) (s : State) :
    Host.Outcome State Fault Refusal :=
  if s.spadInRange l a bs.length then
    laneWrite s fun s => s.onLane l fun ln => { ln with sp := ln.sp.write a bs }
  else .fault .noSuchAddress

/-- A host read of a scratchpad (20_memory.md R73). -/
def spadRead (l : LaneId) (a n : Nat) (s : State) : Host.Outcome State Fault Refusal :=
  if s.spadInRange l a n then
    hostRead s false (.bytes ((List.range n).map fun i => (s.lane l).sp.read (a + i)))
  else .fault .noSuchAddress

end Sys2Proof.Machine
end

