-- ==== Sys2Proof/Machine/Access.lean ====
section
/-! DEFINITION. What each host access does (20_memory.md R72, R73, 70_reset_and_hazards.md R240): the
writes to `REG`, of which a write to `CMD` decodes and runs a command, and the external reset. -/

namespace Sys2Proof.Machine

/-- A write to `CMD` (10_state.md R37): the word is decoded (30_encoding.md R100) and the command
executed to completion, or the word is illegal (60_exceptions.md R221). -/
def cmdWrite (w : W32) (s : State) : Host.Outcome State Fault Refusal :=
  match decode s.build.nlanes w with
  | .ok i => exec i s
  | .error _ => illegalCommand s

/-- A host write of `REG` (20_memory.md R72). -/
def regWrite (off : Nat) (v : W32) (s : State) : Host.Outcome State Fault Refusal :=
  match regAt s.build.nlanes off with
  | none => noRegister s.build.nlanes off
  | some .id => readOnlyWrite s
  | some .cap => readOnlyWrite s
  | some .cfgBackend => configWrite s (State.writeCfgBackend · v)
  | some .cfgMem => configWrite s (State.writeCfgMem · v)
  | some .cfgIter => configWrite s (State.writeCfgIter · v)
  | some .ctrl => configWrite s (State.writeCtrl · v)
  | some .cmd => cmdWrite v s
  | some .status => readOnlyWrite s
  | some .mask => readOnlyWrite s
  | some (.lane l r) => laneWrite s fun s => s.onLane l (Lane.writeWord · r v)

/-- One host access or the external reset, the accesses after it still to come. Reset may be applied
in any run state (70_reset_and_hazards.md R240) and leaves the table of 10_state.md R42. -/
def access (a : HostAccess) (s : State) : Host.Outcome State Fault Refusal :=
  match a with
  | .regWrite off v => regWrite off v s
  | .regRead off => regRead off s
  | .spadWrite l a bs => spadWrite l a bs s
  | .spadRead l a n => spadRead l a n s
  | .reset lane0 lane1 => .next (State.resetWith s.build lane0 lane1 s.inbox s.reply)

/-- The offset of `CMD` (10_state.md R37). -/
def cmdOffset : Nat := 0x018

/-- A configuration that a command can run under: the one the machine has when it is READY, else the
smallest legal one, locked (10_state.md R36; log 12). -/
def State.configured (s : State) : State :=
  if s.run = .ready then s
  else { s with cfgBackendHw := false, cfgMemLog2 := 7, lock := true, run := .ready, faultCode := 0 }

end Sys2Proof.Machine
end

