-- ==== Sys2Proof/Machine/Step.lean ====
section
/-! DEFINITION. One step: the sequencer takes the host's next access, or waits for one
(10_state.md R29). -/

namespace Sys2Proof.Machine

/-- One step of the machine. With no access pending the sequencer waits and nothing changes
(10_state.md R29); otherwise the oldest access is taken and performed. -/
def step (s : State) : Host.Outcome State Fault Refusal :=
  match s.inbox with
  | [] => .next s
  | a :: rest => access a { s with inbox := rest }

/-- The state whose next step runs a table word: the host's next access writes it to `CMD`, under a
configuration a command can run under (log 12). -/
def State.withFetchWord (s : State) (nbits w : Nat) : State :=
  { s.configured with
    inbox := .regWrite cmdOffset (BitVec.ofNat 32 (w % 2 ^ nbits)) :: s.inbox }

end Sys2Proof.Machine
end

