-- ==== Sys2Proof/Machine/Platform.lean ====
section
/-! DEFINITION. Where the platform places the address spaces on the host bus (20_memory.md R71,
93 U2): parameters that no rule of the block reads, and the conditions on them. -/

namespace Sys2Proof.Machine

/-- The bus addresses of the windows (00_scope.md R4): `REG_BASE`, `SPAD_BASE[0]`, `SPAD_BASE[1]`. -/
structure Platform where
  regBase   : Nat
  spadBase0 : Nat
  spadBase1 : Nat
deriving DecidableEq, Repr

/-- What a bus address selects: an offset of `REG`, or a byte of a lane's scratchpad. -/
inductive Located where
  | reg (off : Nat)
  | spad (l : LaneId) (a : Nat)
deriving DecidableEq, Repr

/-- `SPAD_BASE[l]` (20_memory.md R71). -/
def Platform.spadBase (p : Platform) : LaneId → Nat
  | .l0 => p.spadBase0
  | .l1 => p.spadBase1

/-- Two windows, base and length, share no address. -/
def apart (a n b m : Nat) : Bool := decide (a + n ≤ b) || decide (b + m ≤ a)

/-- The conditions on the bases (20_memory.md R71, 70_reset_and_hazards.md R248, R249): multiples of
16, windows pairwise disjoint; lane 1's window counts only if the lane exists. -/
def Platform.legal (b : Config.Build) (p : Platform) : Bool :=
  let reg := regSpaceBytes b.nlanes
  let spad := 2 ^ b.memPhysLog2
  p.regBase % 16 == 0 && p.spadBase0 % 16 == 0 &&
    apart p.regBase reg p.spadBase0 spad &&
    (b.nlanes == .one ||
      (p.spadBase1 % 16 == 0 && apart p.regBase reg p.spadBase1 spad &&
        apart p.spadBase0 spad p.spadBase1 spad))

/-- The space and offset a bus address selects, if any (20_memory.md R70, R71). -/
def Platform.locate (b : Config.Build) (p : Platform) (addr : Nat) : Option Located :=
  if p.regBase ≤ addr ∧ addr < p.regBase + regSpaceBytes b.nlanes then
    some (.reg (addr - p.regBase))
  else if p.spadBase0 ≤ addr ∧ addr < p.spadBase0 + 2 ^ b.memPhysLog2 then
    some (.spad .l0 (addr - p.spadBase0))
  else if b.nlanes = .two ∧ p.spadBase1 ≤ addr ∧ addr < p.spadBase1 + 2 ^ b.memPhysLog2 then
    some (.spad .l1 (addr - p.spadBase1))
  else none

/-- The bus address of a located byte (20_memory.md R71). -/
def Platform.address (p : Platform) : Located → Nat
  | .reg off => p.regBase + off
  | .spad l a => p.spadBase l + a

/-- A located byte lies in its window: an offset of `REG`, or a byte of an existing lane's storage. -/
def Located.inWindow (b : Config.Build) : Located → Bool
  | .reg off => decide (off < regSpaceBytes b.nlanes)
  | .spad l a => l.exists b.nlanes && decide (a < 2 ^ b.memPhysLog2)

end Sys2Proof.Machine
end

