-- ==== Sys2Proof/Machine/Procedures.lean ====
section
/-! DEFINITION. The assembler form and the pseudo-commands (30_encoding.md R102, R103), and the host
procedures `HASH` and `DOUBLEHASH` with the collaborators as parameters (45_pipeline.md R196, R199 to
R201). -/

namespace Sys2Proof.Machine

/-- Commands issued one after the other, each when the one before has ended (45_pipeline.md R203). -/
def runCommands : List Instr → State → Host.Outcome State Fault Refusal
  | [], s => .next s
  | i :: is, s =>
    match exec i s with
    | .next t => runCommands is t
    | .fault r => .fault r
    | .refused r => .refused r

/-- The pseudo-commands that are command sequences (30_encoding.md R103). -/
inductive Pseudo where
  | kexpa (ln : LaneId)
  | kexpb (ln : LaneId)
  | encrk (ln : LaneId) (kr : BitVec 4)
deriving DecidableEq, Repr

/-- The expansion of a pseudo-command (30_encoding.md R103). -/
def expand : Pseudo → List Instr
  | .kexpa ln => [.kexp ln .a]
  | .kexpb ln => [.kexp ln .b]
  | .encrk ln kr =>
    [.encr ln 0 0 kr, .encr ln 1 1 kr, .encr ln 2 2 kr, .encr ln 3 3 kr,
     .encr ln 4 4 kr, .encr ln 5 5 kr, .encr ln 6 6 kr, .encr ln 7 7 kr]

/-- A hexadecimal digit. -/
def hexDigit (n : Nat) : Char := "0123456789abcdef".toList.getD n '0'

/-- The lane suffix of a mnemonic (30_encoding.md R102). -/
def laneSuffix : LaneId → String
  | .l0 => ".0"
  | .l1 => ".1"

/-- A register operand: its letter and one decimal digit (30_encoding.md R102). -/
def regOperand (letter : String) (n : Nat) : String := letter ++ String.singleton (hexDigit n)

/-- The assembler form of a command, destination first (30_encoding.md R102). -/
def assembly : Instr → String
  | .nop => "NOP"
  | .encr ln xd xs kr =>
    "ENCR" ++ laneSuffix ln ++ " " ++ regOperand "x" xd.val ++ ", " ++ regOperand "x" xs.val ++
      ", " ++ regOperand "k" kr.toNat
  | .kstep ln kr rc =>
    "KSTEP" ++ laneSuffix ln ++ " " ++ regOperand "k" kr.toNat ++ ", 0x" ++
      String.singleton (hexDigit (rc.toNat / 16)) ++ String.singleton (hexDigit (rc.toNat % 16))
  | .kexp ln .a => "KEXP" ++ laneSuffix ln ++ " A"
  | .kexp ln .b => "KEXP" ++ laneSuffix ln ++ " B"
  | .explode ln => "EXPLODE" ++ laneSuffix ln
  | .mixi ln => "MIXI" ++ laneSuffix ln
  | .mixs ln => "MIXS" ++ laneSuffix ln
  | .mix ln => "MIX" ++ laneSuffix ln
  | .implode ln => "IMPLODE" ++ laneSuffix ln
  | .core ln => "CORE" ++ laneSuffix ln
  | .core2 => "CORE2"

/-- Host accesses performed in order, with the words the register reads returned, oldest first. -/
def perform : List HostAccess → State → Host.Outcome (State × List W32) Fault Refusal
  | [], s => .next (s, [])
  | a :: as, s =>
    match access a s with
    | .next t =>
      match perform as t with
      | .next (u, ws) =>
        .next (u, match a, t.reply with
          | .regRead _, .word w => w :: ws
          | _, _ => ws)
      | .fault r => .fault r
      | .refused r => .refused r
    | .fault r => .fault r
    | .refused r => .refused r

/-- Word `k` of a compact state: bytes `4k .. 4k+3` (20_memory.md R60, R72). -/
def stWord (st : Vector Byte 200) (k : Nat) : W32 :=
  BitVec.ofNat 32 (leRead (fileRead st) (4 * k) 4)

/-- The fifty writes that load the compact state of a lane (45_pipeline.md R200). -/
def loadSt (l : LaneId) (st : Vector Byte 200) : List HostAccess :=
  (List.range 50).map fun k => .regWrite (windowBase l + 4 * k) (stWord st k)

/-- The fifty reads of the compact state of a lane (45_pipeline.md R200). -/
def readSt (l : LaneId) : List HostAccess :=
  (List.range 50).map fun k => .regRead (windowBase l + 4 * k)

/-- The 200 bytes of fifty words read (20_memory.md R72). -/
def stOfWords (ws : List W32) : Vector Byte 200 :=
  Vector.ofFn fun i : Fin 200 => byteOf (ws.getD (i.val / 4) 0) (i.val % 4)

/-- `FINAL(st)` (45_pipeline.md R199): permute, select by the two low bits of byte 0, digest. -/
def finalDigest (C : Config.Collaborators) (st : Vector Byte 200) : Vector Byte 32 :=
  let st' := C.permute st
  C.digest ((st'[0]).extractLsb' 0 2).toFin st'

/-- `WAIT` (30_encoding.md R102): a command is atomic in the model, so one poll of `STATUS` sees its
end (log 4). -/
def waitPoll : HostAccess := .regRead 0x01C

/-- A polled `STATUS` word says that the command completed: `RUN = READY` and `DONE = 1`
(45_pipeline.md R200, R203). -/
def saysCompleted (status : W32) : Bool := status.extractLsb' 0 2 == 1 && status.getLsbD 2

/-- Loads, then a `CMD` write, then `WAIT`: the state it leaves, and whether the command completed
(45_pipeline.md R200, R203). The poll is the only read, so its word is the last. -/
def issueAndWait (loads : List HostAccess) (cmd : W32) (s : State) :
    Host.Outcome (State × Bool) Fault Refusal :=
  match perform (loads ++ [.regWrite cmdOffset cmd, waitPoll]) s with
  | .next (t, ws) => .next (t, saysCompleted (ws.getLastD 0))
  | .fault r => .fault r
  | .refused r => .refused r

/-- What a host does after reset, before the first command (70_reset_and_hazards.md R243, steps 1 to 4):
read `ID` and `CAP`, write the configuration, lock it, and read `STATUS`. -/
def startup (backend memLog2 iterations : W32) : List HostAccess :=
  [.regRead 0x000, .regRead 0x004, .regWrite 0x008 backend, .regWrite 0x00C memLog2,
   .regWrite 0x010 iterations, .regWrite 0x014 1, .regRead 0x01C]

/-- The compact state of a lane read back through its window, with the state the reads leave. -/
def fetchSt (l : LaneId) (s : State) :
    Host.Outcome (State × Vector Byte 200) Fault Refusal :=
  match perform (readSt l) s with
  | .next (t, ws) => .next (t, stOfWords ws)
  | .fault r => .fault r
  | .refused r => .refused r

/-- `HASH input` (45_pipeline.md R200): load lane 0, `CORE.0`, wait until `RUN = READY` and `DONE = 1`,
read back, finalize. The rule's precondition is `RUN = READY`; there is "no partial/degraded hash result",
so where the wait does not see the command complete (UNCONFIGURED, FAULT) there is no digest. That the
procedure then ends after its one poll, without a digest, is a DESIGN CHOICE (log 21). -/
def hash (C : Config.Collaborators) (input : List Byte) (s : State) :
    Host.Outcome (State × Option (List Byte)) Fault Refusal :=
  match issueAndWait (loadSt .l0 (C.absorb input)) 0x00000009 s with
  | .next (t, true) =>
    match fetchSt .l0 t with
    | .next (u, st) => .next (u, some (finalDigest C st).toList)
    | .fault r => .fault r
    | .refused r => .refused r
  | .next (t, false) => .next (t, none)
  | .fault r => .fault r
  | .refused r => .refused r

/-- `DOUBLEHASH inputA, inputB` (45_pipeline.md R201): both lanes loaded, `CORE2`, wait, both read back;
the digest of A first. R103 and R201 leave the host one `CORE2` or `CORE.0`, `WAIT`, `CORE.1`; DESIGN CHOICE
(log 24): `CORE2`. The rule's precondition is `RUN = READY` and `NLANES = 2`. DESIGN CHOICE outside it
(log 21): as for `HASH` in the other run states; with one lane the first write to lane 1's window has no
register and stops the procedure. -/
def doubleHash (C : Config.Collaborators) (inputA inputB : List Byte) (s : State) :
    Host.Outcome (State × Option (List Byte)) Fault Refusal :=
  match issueAndWait (loadSt .l0 (C.absorb inputA) ++ loadSt .l1 (C.absorb inputB)) 0x0000000A s with
  | .next (t, true) =>
    match fetchSt .l0 t with
    | .next (u, stA) =>
      match fetchSt .l1 u with
      | .next (v, stB) =>
        .next (v, some ((finalDigest C stA).toList ++ (finalDigest C stB).toList))
      | .fault r => .fault r
      | .refused r => .refused r
    | .fault r => .fault r
    | .refused r => .refused r
  | .next (t, false) => .next (t, none)
  | .fault r => .fault r
  | .refused r => .refused r

end Sys2Proof.Machine
end

