-- ==== Sys2Proof/Machine/Reference.lean ====
section
/-! DEFINITION. The closed forms in which the spec describes what its loops compute (42_explode.md
R152, 44_implode.md R182): the statements speak in these terms, no command uses them. -/

namespace Sys2Proof.Machine

/-- `f` applied `n` times. -/
def iterated {α : Type} (f : α → α) : Nat → α → α
  | 0, a => a
  | n + 1, a => f (iterated f n a)

/-- `R10(x) = ROUND(...ROUND(ROUND(x, K[0]), K[1])..., K[9])` (42_explode.md R152). -/
def tenRoundsOf (C : Config.Ciphers) (k : Vector W128 10) (v : W128) : W128 :=
  forRange (fun r v => C.round v (fileRead k r)) 0 10 v

/-- The accumulator of one X lane of `IMPLODE` after `n` chunks (44_implode.md R182):
`a_0` is the start value and `a_(c+1) = R10(a_c ^ S_c)`. -/
def foldCells (C : Config.Ciphers) (k : Vector W128 10) (cells : Nat → W128) (n : Nat) (a : W128) :
    W128 :=
  forRange (fun c a => tenRoundsOf C k (a ^^^ cells c)) 0 n a

/-- A key file is the schedule of a seed (41_key_schedule.md R141): the first two keys are the seed
halves and each later pair is one step from the pair before it, in the order of `RCON`. -/
def IsSchedule (C : Config.Ciphers) (b : Config.Build) (s0 s2 : W128) (k : Vector W128 10) : Prop :=
  k[0] = s0 ∧ k[1] = s2 ∧
    (k[2], k[3]) = kstepf C b b.rcon[0] k[0] k[1] ∧
    (k[4], k[5]) = kstepf C b b.rcon[1] k[2] k[3] ∧
    (k[6], k[7]) = kstepf C b b.rcon[2] k[4] k[5] ∧
    (k[8], k[9]) = kstepf C b b.rcon[3] k[6] k[7]

/-- The state effect of a command, run state and flags aside (40 to 45, the pseudocode of each). -/
def effect : Instr → State → State
  | .nop => id
  | .encr ln xd xs kr => fun s => s.onLane ln (Lane.encr (ciphersOf s.build) xd xs kr.toNat)
  | .kstep ln kr rc => fun s => s.onLane ln (Lane.kstep (ciphersOf s.build) s.build kr.toNat rc)
  | .kexp ln sel => fun s => s.onLane ln (Lane.kexp (ciphersOf s.build) s.build (seedOffset sel))
  | .explode ln => fun s => s.onLane ln (Lane.explode (ciphersOf s.build) s.build s.cfgMemLog2)
  | .mixi ln => fun s => s.onLane ln (Lane.mixi s.build)
  | .mixs ln => fun s => s.onLane ln (Lane.mixs (ciphersOf s.build) s.build s.cfgMemLog2)
  | .mix ln => fun s =>
    s.onLane ln (Lane.mix (ciphersOf s.build) s.build s.cfgMemLog2 s.cfgIter.toNat)
  | .implode ln => fun s => s.onLane ln (Lane.implode (ciphersOf s.build) s.build s.cfgMemLog2)
  | .core ln => State.runCore ln
  | .core2 => fun s => State.runCore .l1 (State.runCore .l0 s)

/-- The lane a single-lane command names (30_encoding.md R96). -/
def laneOf : Instr → Option LaneId
  | .nop => none
  | .encr ln _ _ _ => some ln
  | .kstep ln _ _ => some ln
  | .kexp ln _ => some ln
  | .explode ln => some ln
  | .mixi ln => some ln
  | .mixs ln => some ln
  | .mix ln => some ln
  | .implode ln => some ln
  | .core ln => some ln
  | .core2 => none

/-- A function applied to the next state, if there is one. -/
def mapNext (f : State → State) :
    Host.Outcome State Fault Refusal → Host.Outcome State Fault Refusal
  | .next s => .next (f s)
  | .fault r => .fault r
  | .refused r => .refused r

/-- `LN` of a word, by arithmetic (30_encoding.md R91). -/
def lnOf (w : W32) : Nat := w.toNat / 2 ^ 8 % 2

/-- `KR` of a word, by arithmetic (30_encoding.md R91). -/
def krOf (w : W32) : Nat := w.toNat / 2 ^ 16 % 16

/-- `LN = 1` only if `NLANES = 2` (30_encoding.md R99). -/
def laneBitLegal (n : Config.LaneCount) (w : W32) : Bool := lnOf w == 0 || n == .two

/-- The table of 30_encoding.md R97 as printed: match, mask, constraint. -/
def specTable : List (W32 × W32 × (Config.LaneCount → W32 → Bool)) :=
  [(0x00000000, 0xFFFFFFFF, fun _ _ => true),
   (0x00000001, 0xFFF080FF, fun n w => decide (krOf w ≤ 9) && laneBitLegal n w),
   (0x00000002, 0x00F0FEFF, fun n w => [0, 2, 4, 6].contains (krOf w) && laneBitLegal n w),
   (0x00000003, 0xFFFF7EFF, laneBitLegal),
   (0x00000004, 0xFFFFFEFF, laneBitLegal),
   (0x00000005, 0xFFFFFEFF, laneBitLegal),
   (0x00000006, 0xFFFFFEFF, laneBitLegal),
   (0x00000007, 0xFFFFFEFF, laneBitLegal),
   (0x00000008, 0xFFFFFEFF, laneBitLegal),
   (0x00000009, 0xFFFFFEFF, laneBitLegal),
   (0x0000000A, 0xFFFFFFFF, fun n _ => n == .two)]

/-- The encoded examples of 30_encoding.md R101: assembler form, word, command. -/
def specWords : List (String × W32 × Instr) :=
  [("NOP", 0x00000000, .nop),
   ("ENCR.0 x1, x2, k3", 0x00032201, .encr .l0 1 2 3),
   ("ENCR.1 x7, x7, k9", 0x00097F01, .encr .l1 7 7 9),
   ("KSTEP.0 k0, 0x01", 0x01000002, .kstep .l0 0 0x01),
   ("KSTEP.0 k6, 0x08", 0x08060002, .kstep .l0 6 0x08),
   ("KEXP.0 A", 0x00000003, .kexp .l0 .a),
   ("KEXP.1 B", 0x00008103, .kexp .l1 .b),
   ("EXPLODE.0", 0x00000004, .explode .l0),
   ("MIXI.0", 0x00000005, .mixi .l0),
   ("MIXS.0", 0x00000006, .mixs .l0),
   ("MIX.1", 0x00000107, .mix .l1),
   ("IMPLODE.0", 0x00000008, .implode .l0),
   ("CORE.0", 0x00000009, .core .l0),
   ("CORE.1", 0x00000109, .core .l1),
   ("CORE2", 0x0000000A, .core2)]

/-- The illegal examples of 30_encoding.md R101. -/
def specIllegalWords : List W32 :=
  [0x0000000B, 0x000A0001, 0x01010002, 0x01080002, 0x01000004, 0x0000010A, 0x00000100]

/-- Multiplication in GF(2^8) modulo `x^8 + x^4 + x^3 + x + 1`, by the bits of the second factor
(40_round_backend.md R122). -/
def gfMul (a b : Byte) : Byte :=
  (forRange (fun i p => ((if b.getLsbD i then p.1 ^^^ p.2 else p.1), mul2 p.2)) 0 8 (0, a)).1

/-- The affine map of the S-box (40_round_backend.md R122). -/
def sboxAffine (y : Byte) : Byte :=
  y ^^^ y.rotateLeft 1 ^^^ y.rotateLeft 2 ^^^ y.rotateLeft 3 ^^^ y.rotateLeft 4 ^^^ 0x63

/-- Output bit `i` of the toy round of the worked example of 43_mixer.md R162, `ROUND(x, k) = x ^ k`. -/
def toyTree (i : Nat) : Config.BitTree :=
  .test i (.test (128 + i) (.leaf false) (.leaf true)) (.test (128 + i) (.leaf true) (.leaf false))

/-- The default build but for the round, which is the toy one; `KEYGEN` is zero, the example needs
none. -/
def toyBuild : Config.Build := { Config.build with
  ciphers := .given (Vector.ofFn fun i => toyTree i.val) (Vector.replicate 128 (.leaf false)) }

/-- The start state of that example: cell `n` is `cat(0x1000 + n, 0x100*(n+1) + 3)`. -/
def toyLane : Lane :=
  { forRange (fun n l =>
      l.memWrite (16 * n) (cat (BitVec.ofNat 64 (0x1000 + n)) (BitVec.ofNat 64 (0x100 * (n + 1) + 3))))
      0 8 Lane.reset with
    al := 0x25, ah := 0x7, bl := 0xB0, bh := 0xB1, idx := 0x25 }

end Sys2Proof.Machine
end

