-- ==== Sys2Proof/Safety.lean ====
section
/-! DEFINITION. The states a CNCORE can be in: the invariant every step keeps, in the terms the
statements use. -/

namespace Sys2Proof.Machine

/-- The cells of a scratchpad lie in its storage of `2^p` bytes (10_state.md R27). -/
def Memory.within (p : Nat) (m : Memory) : Bool := m.all fun c => decide (c.1 < 2 ^ p)

/-- A lane's scratchpad is in canonical form and within its storage. -/
def Lane.sound (p : Nat) (l : Lane) : Bool := l.sp.wf && l.sp.within p

/-- An input that leaves sound lanes: every host access does, and a reset supplies sound lanes. -/
def HostAccess.sound (p : Nat) : HostAccess → Bool
  | .regWrite _ _ => true
  | .regRead _ => true
  | .spadWrite _ _ _ => true
  | .spadRead _ _ _ => true
  | .reset lane0 lane1 => lane0.sound p && lane1.sound p

/-- The fault codes that are ever recorded (60_exceptions.md R211, R219, R220). -/
def recordedCodes : List (BitVec 8) := [1, 2, 3, 6, 7, 8]

/-- The invariant of the machine. -/
structure State.Inv (s : State) : Prop where
  /-- The build parameters are legal (00_scope.md R4). -/
  build_legal : s.build.Legal
  /-- A command is atomic, so no state between steps is BUSY (10_state.md R29). -/
  not_busy : s.run ≠ .busy
  /-- READY is entered by the lock only (10_state.md R38). -/
  ready_locked : s.run = .ready → s.lock = true
  /-- `LOCK` is 0 before the lock (10_state.md R36). -/
  unconfigured_unlocked : s.run = .unconfigured → s.lock = false
  /-- A locked configuration passed the check (60_exceptions.md R213). -/
  locked_legal : s.lock = true →
    7 ≤ s.cfgMemLog2.toNat ∧ s.cfgMemLog2.toNat ≤ s.build.memPhysLog2 ∧
      (s.cfgBackendHw = true → s.build.hwCap = true)
  /-- `FAULT_CODE` is 0 outside FAULT (10_state.md R38). -/
  code_zero : s.run ≠ .fault → s.faultCode = 0
  /-- In FAULT one of the raised codes stands (60_exceptions.md R211). -/
  code_known : s.run = .fault → s.faultCode ∈ recordedCodes
  /-- `DONE` is 0 in FAULT and before the lock (60_exceptions.md R216, 10_state.md R42). -/
  done_ready : s.done = true → s.run = .ready
  /-- Both scratchpads are canonical and within their storage. -/
  lanes_sound : s.lane0.sound s.build.memPhysLog2 = true ∧ s.lane1.sound s.build.memPhysLog2 = true
  /-- Every pending reset supplies such scratchpads. -/
  inbox_sound : ∀ a ∈ s.inbox, a.sound s.build.memPhysLog2 = true

end Sys2Proof.Machine
end

