-- ==== Sys2Proof/Certificates/Slice0/Obligations.lean ====
section
/-! DEFINITION. The statements for the provers, each from the rules of spec/ its docstring cites. A
statement about a command says the whole next state: where it writes `{ s.setLane ln l' with
done := true }`, every field of the machine but that lane and `DONE` is as before, so the frame is
part of the equation. -/

open Sys2Proof Sys2Proof.Machine

/-! ## Encoding -/

/-- Decoding the encoding of a well-formed command gives it back, for every build and every operand
(30_encoding.md R91 to R95, R100). -/
def Obligations.DecodeOfEncode : Prop :=
  ∀ (n : Config.LaneCount) (i : Instr), i.wellFormed n = true → decode n (encode i) = .ok i

/-- A word that decodes is the encoding of what it decodes to, and that is well-formed: no two words
mean the same command and no bit is dropped (30_encoding.md R91, R99, R100). -/
def Obligations.DecodedWordsAreEncodings : Prop :=
  ∀ (n : Config.LaneCount) (w : W32) (i : Instr),
    decode n w = .ok i → encode i = w ∧ i.wellFormed n = true

/-- The words the decoder accepts are those the printed table selects by mask, match and constraint
(30_encoding.md R97, R98, R99, R100). -/
def Obligations.LegalWordsAreTheTableRows : Prop :=
  ∀ (n : Config.LaneCount) (w : W32),
    (∃ i, decode n w = .ok i) ↔
      ∃ row ∈ specTable, w &&& row.2.1 = row.1 ∧ row.2.2 n w = true

/-- The encoded examples of 30_encoding.md R101 with two lanes: each word decodes to its command, is
its encoding and has its assembler form; the illegal ones are rejected. -/
def Obligations.SpecExampleWords : Prop :=
  (∀ p ∈ specWords, assembly p.2.2 = p.1 ∧ encode p.2.2 = p.2.1 ∧
    decode .two p.2.1 = .ok p.2.2) ∧
  ∀ w ∈ specIllegalWords, ∀ i, decode .two w ≠ .ok i

/-! ## The step -/

/-- A step whose next access writes a word to `CMD` runs the command the word decodes to, on the
machine with that access taken (10_state.md R37, 30_encoding.md R90). -/
def Obligations.StepRunsDecodedCommand : Prop :=
  ∀ (s : State) (w : W32) (rest : List HostAccess) (i : Instr),
    s.inbox = .regWrite 0x018 w :: rest → decode s.build.nlanes w = .ok i →
      step s = exec i { s with inbox := rest }

/-- A step takes the oldest access and performs it; with none pending the sequencer waits
(10_state.md R29, 20_memory.md R72). -/
def Obligations.StepTakesOneAccess : Prop :=
  ∀ s : State,
    (s.inbox = [] → step s = .next s) ∧
    ∀ (a : HostAccess) (rest : List HostAccess), s.inbox = a :: rest →
      step s = access a { s with inbox := rest }

/-! ## Run states and faults -/

/-- 60_exceptions.md R221: an illegal word written to `CMD` in READY raises fault 6, clears `DONE` and
changes nothing else. -/
def Obligations.IllegalWordRaisesFaultSix : Prop :=
  ∀ (s : State) (w : W32), s.run = .ready → (∃ e, decode s.build.nlanes w = .error e) →
    access (.regWrite 0x018 w) s = .next { s with run := .fault, faultCode := 6, done := false }

/-- 60_exceptions.md R222: any word written to `CMD` before the lock raises fault 7, legal or not. -/
def Obligations.CommandBeforeLockRaisesFaultSeven : Prop :=
  ∀ (s : State) (w : W32), s.run = .unconfigured →
    access (.regWrite 0x018 w) s = .next { s with run := .fault, faultCode := 7, done := false }

/-- 60_exceptions.md R224: a write to `CFG_BACKEND`, `CFG_MEM`, `CFG_ITER` or `CTRL` in READY raises
fault 8 whatever the value. -/
def Obligations.ConfigWriteAfterLockRaisesFaultEight : Prop :=
  ∀ (s : State) (v : W32), s.run = .ready →
    ∀ off ∈ [0x008, 0x00C, 0x010, 0x014],
      access (.regWrite off v) s = .next { s with run := .fault, faultCode := 8, done := false }

/-- 60_exceptions.md R213, 10_state.md R36: what a write to `CTRL` does before the lock, in the order
of priority of the checks. -/
def Obligations.LockRunsTheConfigurationCheck : Prop :=
  ∀ (s : State) (v : W32), s.run = .unconfigured →
    access (.regWrite 0x014 v) s = .next (
      if v.getLsbD 0 = false then s
      else if s.cfgBackendHw = true ∧ s.build.hwCap = false then
        { s with run := .fault, faultCode := 1, done := false }
      else if s.cfgMemLog2.toNat > s.build.memPhysLog2 then
        { s with run := .fault, faultCode := 2, done := false }
      else if s.cfgMemLog2.toNat < 7 then
        { s with run := .fault, faultCode := 3, done := false }
      else { s with lock := true, run := .ready })

/-- 60_exceptions.md R217: in FAULT no step but a reset changes anything, the answer of a read and the
list of pending accesses aside; the first fault is kept. -/
def Obligations.OnlyResetLeavesFault : Prop :=
  ∀ (s t : State), s.run = .fault → step s = .next t →
    (∀ l0 l1, s.inbox.head? ≠ some (.reset l0 l1)) →
    t = { s with inbox := s.inbox.tail, reply := t.reply }

/-- 60_exceptions.md R217: in FAULT every register can be read and every write to one is ignored, and
so with the scratchpads. -/
def Obligations.FaultAllowsReadsIgnoresWrites : Prop :=
  ∀ (s : State), s.run = .fault →
    (∀ r, (∀ l w, r = .lane l w → l.exists s.build.nlanes = true) →
      (∀ v, access (.regWrite (regOffset r) v) s = .next s) ∧
      access (.regRead (regOffset r)) s = .next { s with reply := .word (s.readReg r) }) ∧
    ∀ l a bs, l.exists s.build.nlanes = true → a + bs.length ≤ 2 ^ s.build.memPhysLog2 →
      access (.spadWrite l a bs) s = .next s ∧
      access (.spadRead l a bs.length) s = .next { s with
        reply := .bytes ((List.range bs.length).map fun i => (s.lane l).sp.read (a + i)) }

/-- 70_reset_and_hazards.md R245, 93 U5: while BUSY the host can read `STATUS`, and no other host
access has a next state; reset may be applied (R240). -/
def Obligations.BusyAllowsStatusReadOnly : Prop :=
  ∀ (s : State), s.run = .busy →
    access (.regRead 0x01C) s = .next { s with reply := .word s.statusWord } ∧
    (∀ l0 l1, ∃ t, access (.reset l0 l1) s = .next t) ∧
    ∀ (a : HostAccess) (t : State), a ≠ .regRead 0x01C → (∀ l0 l1, a ≠ .reset l0 l1) →
      access a s ≠ .next t

/-- 10_state.md R40, 93 U6: an access to an offset that is no register's, or outside the scratchpad
storage, has no next state. -/
def Obligations.UndefinedAddressesStop : Prop :=
  ∀ (s t : State),
    (∀ off, (∀ r, (∀ l w, r = .lane l w → l.exists s.build.nlanes = true) → regOffset r ≠ off) →
      (∀ v, access (.regWrite off v) s ≠ .next t) ∧ access (.regRead off) s ≠ .next t) ∧
    ∀ l a bs, (l.exists s.build.nlanes = false ∨ 2 ^ s.build.memPhysLog2 < a + bs.length) →
      access (.spadWrite l a bs) s ≠ .next t ∧ access (.spadRead l a bs.length) s ≠ .next t

/-- 60_exceptions.md R210, R234, 10_state.md R43: every well-formed command in READY completes with
`DONE = 1` in READY, whatever the lanes hold, and changes nothing outside the lanes. -/
def Obligations.EveryCommandCompletes : Prop :=
  ∀ (i : Instr) (s : State), s.run = .ready → i.wellFormed s.build.nlanes = true →
    ∃ t, exec i s = .next t ∧
      t = { s with done := true, lane0 := t.lane0, lane1 := t.lane1 }

/-- 60_exceptions.md R225: what a command does outside READY, and an ill-formed one in READY. Two clauses
are the model's: fault 6 for an ill-formed term handed to `exec`, which no word encodes (DEDUCED, log 13),
and the refusal while BUSY, where R223 gives the write no meaning (DESIGN CHOICE, log 11). -/
def Obligations.CommandsByRunState : Prop :=
  ∀ (i : Instr) (s : State),
    (s.run = .unconfigured →
      exec i s = .next { s with run := .fault, faultCode := 7, done := false }) ∧
    (s.run = .fault → exec i s = .next s) ∧
    (s.run = .busy → exec i s = .refused .hostMoveWhileBusy) ∧
    (s.run = .ready → i.wellFormed s.build.nlanes = false →
      exec i s = .next { s with run := .fault, faultCode := 6, done := false })

/-- 70_reset_and_hazards.md R247, 10_state.md R36: after the lock, and in FAULT, no step but a reset
changes the configuration or the lock. -/
def Obligations.ConfigurationIsImmutableAfterLock : Prop :=
  ∀ (s t : State), s.run ≠ .unconfigured → step s = .next t →
    (∀ l0 l1, s.inbox.head? ≠ some (.reset l0 l1)) →
    t.cfgBackendHw = s.cfgBackendHw ∧ t.cfgMemLog2 = s.cfgMemLog2 ∧ t.cfgIter = s.cfgIter ∧
      t.lock = s.lock

/-- 10_state.md R21: the build parameters are no state; no step changes them. -/
def Obligations.BuildParametersAreConstant : Prop :=
  ∀ (s t : State), step s = .next t → t.build = s.build

/-! ## Registers and the host window -/

/-- 10_state.md R31 to R40: the register map. Every existing register is found at its offset, and what
is found at an offset has that offset, and exists. -/
def Obligations.RegisterMapRoundTrip : Prop :=
  ∀ (n : Config.LaneCount) (off : Nat) (r : Reg),
    regAt n off = some r ↔
      regOffset r = off ∧ ∀ l w, r = .lane l w → l.exists n = true

/-- 10_state.md R40, 20_memory.md R72: a host write of a lane word before the lock or in READY stores
it; the word reads back, every other register reads as before, no scratchpad byte changes. -/
def Obligations.HostWriteStoresOneWord : Prop :=
  ∀ (s : State) (l : LaneId) (r : LaneReg) (v : W32),
    (s.run = .unconfigured ∨ s.run = .ready) → l.exists s.build.nlanes = true →
    ∃ t, access (.regWrite (regOffset (.lane l r)) v) s = .next t ∧
      t = { s with lane0 := t.lane0, lane1 := t.lane1 } ∧
      t.readReg (.lane l r) = v ∧
      (∀ r', r' ≠ .lane l r → t.readReg r' = s.readReg r') ∧
      ∀ ln, (t.lane ln).sp = (s.lane ln).sp

/-- 20_memory.md R72: outside BUSY a read of an existing register answers its word and changes nothing
else. -/
def Obligations.RegisterReadsHaveNoSideEffect : Prop :=
  ∀ (s : State) (r : Reg), s.run ≠ .busy →
    (∀ l w, r = .lane l w → l.exists s.build.nlanes = true) →
    access (.regRead (regOffset r)) s = .next { s with reply := .word (s.readReg r) }

/-- 10_state.md R33 to R35, D36: what a configuration write keeps before the lock; and, from the RO marks
of R31, R32, R38 and R39 (section 7), that a write to `ID`, `CAP`, `STATUS` or `MASK` is ignored outside
BUSY. -/
def Obligations.ConfigurationWritesKeepDefinedBits : Prop :=
  ∀ (s : State) (v : W32),
    (s.run = .unconfigured →
      access (.regWrite 0x008 v) s = .next { s with cfgBackendHw := v.getLsbD 0 } ∧
      access (.regWrite 0x00C v) s = .next { s with cfgMemLog2 := v.extractLsb' 0 6 } ∧
      access (.regWrite 0x010 v) s = .next { s with cfgIter := v }) ∧
    (s.run ≠ .busy → ∀ off ∈ [0x000, 0x004, 0x01C, 0x020],
      access (.regWrite off v) s = .next s)

/-- 10_state.md R38: the fields of `STATUS`, bit by bit. -/
def Obligations.StatusFields : Prop :=
  ∀ (s : State),
    (s.readReg .status).extractLsb' 0 2 =
      (match s.run with | .unconfigured => 0 | .ready => 1 | .busy => 2 | .fault => 3) ∧
    (s.readReg .status).getLsbD 2 = s.done ∧
    (s.readReg .status).extractLsb' 3 5 = 0 ∧
    (s.readReg .status).extractLsb' 8 8 = s.faultCode ∧
    (s.readReg .status).extractLsb' 16 16 = 0

/-- 10_state.md R31 to R37, R39: what `ID`, `CAP`, `CMD`, the configuration registers, `CTRL` and `MASK`
read; `MASK` where its stated value fits the register (above that it is the free value of log 10). -/
def Obligations.IdentityCapabilityAndMask : Prop :=
  ∀ (s : State),
    s.readReg .id = 0x434E0001 ∧ s.readReg .cmd = 0 ∧
    (s.readReg .cap).getLsbD 0 = s.build.hwCap ∧
    (s.readReg .cap).getLsbD 1 = (s.build.nlanes == .two) ∧
    (s.readReg .cap).extractLsb' 2 6 = 0 ∧
    (s.build.memPhysLog2 < 64 →
      ((s.readReg .cap).extractLsb' 8 6).toNat = s.build.memPhysLog2) ∧
    (s.readReg .cap).extractLsb' 14 18 = 0 ∧
    (s.readReg .cfgBackend).toNat = s.cfgBackendHw.toNat ∧
    (s.readReg .cfgMem).toNat = s.cfgMemLog2.toNat ∧
    s.readReg .cfgIter = s.cfgIter ∧
    (s.readReg .ctrl).toNat = s.lock.toNat ∧
    (s.cfgMemLog2.toNat ≤ 36 → (s.readReg .mask).toNat =
      if 4 ≤ s.cfgMemLog2.toNat then 2 ^ (s.cfgMemLog2.toNat - 4) - 1 else 0)

/-- 20_memory.md R73: host access to a scratchpad before the lock or in READY, any width. -/
def Obligations.ScratchpadHostAccess : Prop :=
  ∀ (s : State) (l : LaneId) (a : Nat) (bs : List Byte),
    (s.run = .unconfigured ∨ s.run = .ready) → l.exists s.build.nlanes = true →
    a + bs.length ≤ 2 ^ s.build.memPhysLog2 →
    ∃ t, access (.spadWrite l a bs) s = .next t ∧
      t = s.setLane l { s.lane l with sp := (t.lane l).sp } ∧
      access (.spadRead l a bs.length) t = .next { t with reply := .bytes bs } ∧
      ∀ x, (x < a ∨ a + bs.length ≤ x) → (t.lane l).sp.read x = (s.lane l).sp.read x

/-! ## Reset -/

/-- 10_state.md R42, 70_reset_and_hazards.md R240: reset in any run state leaves the control registers
at the values of the table and the lanes at whatever contents come with it; and the model's reset state
has those values. -/
def Obligations.ResetLeavesTheStatedValues : Prop :=
  (∀ (s : State) (l0 l1 : Lane),
    ∃ t, access (.reset l0 l1) s = .next t ∧
      t.readReg .status = 0 ∧ t.readReg .ctrl = 0 ∧ t.readReg .cfgBackend = 0 ∧
      t.readReg .cfgMem = 0 ∧ t.readReg .cfgIter = 0 ∧ t.readReg .mask = 0 ∧
      t.run = .unconfigured ∧ t.lane0 = l0 ∧ t.lane1 = l1 ∧
      t.build = s.build ∧ t.inbox = s.inbox ∧ t.reply = s.reply) ∧
  State.reset.run = .unconfigured ∧ State.reset.done = false ∧ State.reset.faultCode = 0 ∧
    State.reset.lock = false ∧ State.reset.cfgBackendHw = false ∧ State.reset.cfgMemLog2 = 0 ∧
    State.reset.cfgIter = 0 ∧ State.reset.readReg .id = 0x434E0001 ∧
    State.reset.readReg .cap = 0x00001503 ∧ State.reset.readReg .mask = 0

/-! ## Memory -/

/-- 20_memory.md R62, R63, R69: a 16-byte read after a 16-byte write to the same address gives the
value, the bytes lie little-endian, and every other byte is as before. -/
def Obligations.CellReadAfterWrite : Prop :=
  ∀ (l : Lane) (a : Nat) (v : W128),
    (l.memWrite a v).memRead a = v ∧
    (∀ i, i < 16 → (l.memWrite a v).sp.read (a + i) = v.extractLsb' (8 * i) 8) ∧
    (∀ x, (x < a ∨ a + 16 ≤ x) → (l.memWrite a v).sp.read x = l.sp.read x) ∧
    l.memWrite a v = { l with sp := (l.memWrite a v).sp }

/-- Scratchpads in canonical form that read alike at every address are the same data (the model's
canonical form, log 6). -/
def Obligations.CanonicalMemoriesReadingAlikeAreEqual : Prop :=
  ∀ (m m' : Memory), m.wf = true → m'.wf = true → (∀ a, m.read a = m'.read a) → m = m'

/-- 20_memory.md R65, R66, 43_mixer.md R169: for every index and every legal `MEM`, the effective
address is a multiple of 16 in `[0, MEM-16]`. -/
def Obligations.EffectiveAddressesStayInRange : Prop :=
  ∀ (b : Config.Build) (m : BitVec 6) (idx : W64), 7 ≤ m.toNat →
    ea b m idx % 16 = 0 ∧ ea b m idx + 16 ≤ memBytes m ∧
      ea b m idx = 16 * ((idx.toNat / 2 ^ idxShiftNat b.idxShift) % (memBytes m / 16))

/-- 10_state.md R27: no command changes a scratchpad byte at `MEM` or above, in any lane. -/
def Obligations.ScratchpadAboveMemIsUntouched : Prop :=
  ∀ (i : Instr) (s t : State), 7 ≤ s.cfgMemLog2.toNat → exec i s = .next t →
    ∀ (ln : LaneId) (a : Nat), memBytes s.cfgMemLog2 ≤ a →
      (t.lane ln).sp.read a = (s.lane ln).sp.read a

/-- 10_state.md R26, 42_explode.md R150, 44_implode.md R180, 45_pipeline.md R193: no command writes
`ST[0..63]` or `ST[192..199]`, and only `IMPLODE`, `CORE` and `CORE2` write `ST` at all. -/
def Obligations.CompactStateWriters : Prop :=
  ∀ (i : Instr) (s t : State), exec i s = .next t → ∀ (ln : LaneId),
    (∀ a, (a < 64 ∨ 192 ≤ a) → (t.lane ln).stByte a = (s.lane ln).stByte a) ∧
    ((∀ l, i ≠ .implode l) → (∀ l, i ≠ .core l) → i ≠ .core2 →
      (t.lane ln).st = (s.lane ln).st)

/-! ## The invariant -/

/-- The state after reset meets the invariant (with the model's reset lanes, log 5). -/
def Obligations.ResetStateMeetsInvariant : Prop := State.reset.Inv

/-- Every step keeps the invariant: legal build, never BUSY between steps, READY only when locked
under a legal configuration, `FAULT_CODE` as R38 and R211 say, scratchpads canonical and within their
storage (10_state.md R27, R29, R38, 60_exceptions.md R211, R213). -/
def Obligations.StepKeepsInvariant : Prop :=
  ∀ (s t : State), s.Inv → step s = .next t → t.Inv

/-! ## Commands -/

/-- 45_pipeline.md R190: `NOP` sets `DONE` and changes nothing else; its word is zero, and with `LN = 1`
it is illegal in every build. -/
def Obligations.NopSetsDone : Prop :=
  (∀ (s : State), s.run = .ready → exec .nop s = .next { s with done := true }) ∧
  encode .nop = 0x00000000 ∧ ∀ n i, decode n 0x00000100 ≠ .ok i

/-- 40_round_backend.md R130: `ENCR.l xd, xs, kr` with the `ROUND` of the build, source read before
destination written. Two clauses are not the rule's plain words: an illegal `KR` handed to `exec` is fault
6 (DEDUCED, log 13), and the worked example is of the default `ROUND` (PRESUMED, log 8). -/
def Obligations.EncrAppliesOneRound : Prop :=
  (∀ (s : State) (ln : LaneId) (xd xs : Fin 8) (kr : BitVec 4), s.run = .ready →
    ln.exists s.build.nlanes = true →
    (∀ h : kr.toNat ≤ 9, exec (.encr ln xd xs kr) s = .next { s.setLane ln { s.lane ln with
        x := (s.lane ln).x.set xd ((ciphersOf s.build).round (s.lane ln).x[xs]
          ((s.lane ln).k[kr.toNat]'(by omega))) } with done := true }) ∧
    (9 < kr.toNat → exec (.encr ln xd xs kr) s =
      .next { s with run := .fault, faultCode := 6, done := false })) ∧
  encode (.encr .l0 1 2 3) = 0x00032201 ∧
  roundAes 0x7b5b54657374566563746f725d53475d 0x48692853686179295b477565726f6e5d =
    0xa8311c2f9fdba3c58b104b58ded7e595

/-- 40_round_backend.md R132 with R129: `KSTEP.l kr, rc` with the `KEYGEN` of the build writes the next
pair and leaves the pair it reads, for any `RC`. Two clauses are not the rules' plain words: an illegal `KR`
handed to `exec` is fault 6 (DEDUCED, log 13), and the worked example is of the default `KEYGEN` (PRESUMED,
log 8). -/
def Obligations.KstepWritesTheNextPair : Prop :=
  (∀ (s : State) (ln : LaneId) (kr : BitVec 4) (rc : BitVec 8), s.run = .ready →
    ln.exists s.build.nlanes = true →
    (kr ∈ [0, 2, 4, 6] → ∃ k, exec (.kstep ln kr rc) s =
        .next { s.setLane ln { s.lane ln with k := k } with done := true } ∧
      (∀ r, r ≠ kr.toNat + 2 → r ≠ kr.toNat + 3 → fileRead k r = (s.lane ln).key r) ∧
      let s0 := (s.lane ln).key kr.toNat
      let s2 := (s.lane ln).key (kr.toNat + 1)
      let C := ciphersOf s.build
      let s0' := cascade s0 ^^^ bcast32 (lane32 (C.keygen s2 rc) 3)
      fileRead k (kr.toNat + 2) = s0' ∧
      fileRead k (kr.toNat + 3) =
        cascade s2 ^^^ bcast32 (lane32 (C.keygen s0' 0) (ksLaneNat s.build.ksLaneB))) ∧
    (kr ∉ [0, 2, 4, 6] → exec (.kstep ln kr rc) s =
      .next { s with run := .fault, faultCode := 6, done := false })) ∧
  encode (.kstep .l0 0 0x01) = 0x01000002 ∧
  kstepf ciphers Config.build 0x01 0x0f0e0d0c0b0a09080706050403020100
      0x1f1e1d1c1b1a19181716151413121110 =
    (0x9cc072a593ce7fa998c476a19fc273a5, 0x06deba4019c0a75c02dabe4415ccab50) ∧
  kstepf ciphers { Config.build with ksLaneB := .lane2 } 0x01 0x0f0e0d0c0b0a09080706050403020100
      0x1f1e1d1c1b1a19181716151413121110 =
    (0x9cc072a593ce7fa998c476a19fc273a5, 0xdeba4006c1a45d1adabe4402cda85116)

/-- 41_key_schedule.md R141, R142: `KEXP.l A|B` fills `K[0..9]` with the schedule of the seed at
`32 * SEL`, with the `KEYGEN`, `RCON` and `KS_LANE_B` of the build, and changes nothing else. The worked
example and the all-zero seed are of the default build: `KEYGEN` and `RCON` PRESUMED (log 8), `KS_LANE_B`
the spec's chosen default (log 9). -/
def Obligations.KexpWritesTheSchedule : Prop :=
  (∀ (s : State) (ln : LaneId) (sel : Seed), s.run = .ready →
    ln.exists s.build.nlanes = true →
    let off := match sel with | .a => 0 | .b => 32
    ∃ k, exec (.kexp ln sel) s =
        .next { s.setLane ln { s.lane ln with k := k } with done := true } ∧
      IsSchedule (ciphersOf s.build) s.build ((s.lane ln).st128 off) ((s.lane ln).st128 (off + 16)) k) ∧
  encode (.kexp .l0 .a) = 0x00000003 ∧
  (∀ k, IsSchedule ciphers Config.build 0x0f0e0d0c0b0a09080706050403020100
      0x1f1e1d1c1b1a19181716151413121110 k →
    k[2] = 0x9cc072a593ce7fa998c476a19fc273a5 ∧ k[3] = 0x06deba4019c0a75c02dabe4415ccab50 ∧
      k[9] = 0x4cc657f404c1aa60ffb2daa5b16b9d71) ∧
  ∀ k, IsSchedule ciphers Config.build 0 0 k →
    k[0] = 0 ∧ k[1] = 0 ∧ k[2] = 0x63636362636363626363636263636362

/-- 42_explode.md R151, and R152, which the spec derives from it: `EXPLODE.l` leaves schedule A in `K`,
cell `8c + j` of the scratchpad is `c + 1` times ten rounds of `ST128(XINIT_OFF + 16j)`, `X[j]` is the
last chunk's, the bytes from `MEM` on are as before, and nothing else changes. -/
def Obligations.ExplodeFillsTheScratchpad : Prop :=
  ∀ (s : State) (ln : LaneId), s.run = .ready → ln.exists s.build.nlanes = true →
    7 ≤ s.cfgMemLog2.toNat →
    ∃ l, exec (.explode ln) s = .next { s.setLane ln l with done := true } ∧
      l = { s.lane ln with k := l.k, x := l.x, sp := l.sp } ∧
      IsSchedule (ciphersOf s.build) s.build ((s.lane ln).st128 0) ((s.lane ln).st128 16) l.k ∧
      (∀ c j, c < memBytes s.cfgMemLog2 / 128 → j < 8 → l.memRead (128 * c + 16 * j) =
        iterated (tenRoundsOf (ciphersOf s.build) l.k) (c + 1)
          ((s.lane ln).st128 (16 * s.build.xinitCell.val + 16 * j))) ∧
      (∀ j, j < 8 → l.xreg j = l.memRead (memBytes s.cfgMemLog2 - 128 + 16 * j)) ∧
      ∀ a, memBytes s.cfgMemLog2 ≤ a → l.sp.read a = (s.lane ln).sp.read a

/-- 43_mixer.md R161: `MIXI.l` with the default `MIXINIT` (PRESUMED: the spec marks the choice of words as
general knowledge, log 8), and the worked example. -/
def Obligations.MixiLoadsTheMixerRegisters : Prop :=
  (∀ (s : State) (ln : LaneId), s.run = .ready → ln.exists s.build.nlanes = true →
    s.build.mixInit = Config.mixInit →
    exec (.mixi ln) s = .next { s.setLane ln { s.lane ln with
        al := (s.lane ln).st64 0 ^^^ (s.lane ln).st64 4
        ah := (s.lane ln).st64 1 ^^^ (s.lane ln).st64 5
        bl := (s.lane ln).st64 2 ^^^ (s.lane ln).st64 6
        bh := (s.lane ln).st64 3 ^^^ (s.lane ln).st64 7
        idx := (s.lane ln).st64 0 ^^^ (s.lane ln).st64 4 } with done := true }) ∧
  encode (.mixi .l0) = 0x00000005 ∧
  ∀ l : Lane, (∀ a, a < 64 → l.stByte a = BitVec.ofNat 8 a) →
    l.st64 0 = 0x0706050403020100 ∧ l.st64 4 = 0x2726252423222120 ∧
    l.mixi Config.build = { l with
      al := 0x2020202020202020
      ah := 0x2020202020202020
      bl := 0x2020202020202020
      bh := 0x2020202020202020
      idx := 0x2020202020202020 }

/-- 43_mixer.md R162: the nine steps of `MIXS.l` in terms of reads and writes of the scratchpad, for
every register content and the `ROUND` of the build (by default the PRESUMED one, log 8); and the worked
example on a build with the toy round, which stands as data (DESIGN CHOICE, log 22). -/
def Obligations.MixsPerformsTheNineSteps : Prop :=
  (∀ (s : State) (ln : LaneId), s.run = .ready → ln.exists s.build.nlanes = true →
    let l := s.lane ln
    let ea1 := ea s.build s.cfgMemLog2 l.idx
    let cx := (ciphersOf s.build).round (l.memRead ea1) (l.ah ++ l.al)
    let l1 := l.memWrite ea1 (cx ^^^ (l.bh ++ l.bl))
    let idx := cx.extractLsb' 0 64
    let ea2 := ea s.build s.cfgMemLog2 idx
    let d := l1.memRead ea2
    let cl := d.extractLsb' 0 64
    let ch := d.extractLsb' 64 64
    let hi := BitVec.ofNat 64 (idx.toNat * cl.toNat / 2 ^ 64)
    let lo := BitVec.ofNat 64 (idx.toNat * cl.toNat % 2 ^ 64)
    exec (.mixs ln) s = .next { s.setLane ln { l1.memWrite ea2 ((l.ah + lo) ++ (l.al + hi)) with
        bl := cx.extractLsb' 0 64
        bh := cx.extractLsb' 64 64
        ah := (l.ah + lo) ^^^ ch
        al := (l.al + hi) ^^^ cl
        idx := (l.al + hi) ^^^ cl } with done := true }) ∧
  encode (.mixs .l0) = 0x00000006 ∧
  (let t := Lane.mixs (ciphersOf toyBuild) toyBuild 7 toyLane;
    t.al = 0x726 ∧ t.ah = 0x2B0C7F ∧ t.bl = 0x626 ∧ t.bh = 0x1002 ∧ t.idx = 0x726 ∧
    t.memRead 80 = cat 0x10B3 0x696 ∧ t.memRead 96 = cat 0x2B1C79 0x25)

/-- 43_mixer.md R162 at the level of bytes: `MIXS.l` changes no scratchpad byte outside the two cells
its two indices select, the second being the low half of the round result; where they differ, the first
cell holds the XOR of step 3. -/
def Obligations.MixsTouchesTwoCells : Prop :=
  ∀ (s : State) (ln : LaneId), s.run = .ready → ln.exists s.build.nlanes = true →
    let l := s.lane ln
    let ea1 := ea s.build s.cfgMemLog2 l.idx
    let cx := (ciphersOf s.build).round (l.memRead ea1) (cat l.ah l.al)
    let ea2 := ea s.build s.cfgMemLog2 (lo64 cx)
    ∃ t, exec (.mixs ln) s = .next t ∧
      (∀ x, (x < ea1 ∨ ea1 + 16 ≤ x) → (x < ea2 ∨ ea2 + 16 ≤ x) →
        (t.lane ln).sp.read x = l.sp.read x) ∧
      (ea2 ≠ ea1 → (t.lane ln).memRead ea1 = cx ^^^ cat l.bh l.bl) ∧
      (t.lane ln).k = l.k ∧ (t.lane ln).x = l.x ∧ (t.lane ln).st = l.st ∧
      t.lane ln.other = s.lane ln.other

/-- 43_mixer.md R168: when both indices select one cell, step 5 reads what step 3 stored, and step 8
overwrites it. -/
def Obligations.MixsSameCellReadsItsOwnStore : Prop :=
  ∀ (s : State) (ln : LaneId), s.run = .ready → ln.exists s.build.nlanes = true →
    let l := s.lane ln
    let ea1 := ea s.build s.cfgMemLog2 l.idx
    let cx := (ciphersOf s.build).round (l.memRead ea1) (cat l.ah l.al)
    ea s.build s.cfgMemLog2 (lo64 cx) = ea1 →
    let d := cx ^^^ cat l.bh l.bl
    let p := wideMul (lo64 cx) (lo64 d)
    ∃ t, exec (.mixs ln) s = .next t ∧
      (t.lane ln).memRead ea1 = cat (l.ah + lo64 p) (l.al + hi64 p) ∧
      (t.lane ln).al = (l.al + hi64 p) ^^^ lo64 d ∧
      (t.lane ln).ah = (l.ah + lo64 p) ^^^ hi64 d ∧
      (t.lane ln).idx = (t.lane ln).al

/-- 43_mixer.md R163: `MIX.l` is `MIXI.l` followed by `ITERATIONS` times `MIXS.l`, and completes. -/
def Obligations.MixIsMixiThenIterations : Prop :=
  ∀ (s : State) (ln : LaneId), s.run = .ready → ln.exists s.build.nlanes = true →
    ∃ t, exec (.mix ln) s = .next t ∧
      runCommands (.mixi ln :: List.replicate s.cfgIter.toNat (.mixs ln)) s = .next t

/-- 44_implode.md R181, and R182, which the spec derives from it: `IMPLODE.l` leaves schedule B in `K`,
the accumulator of X lane `j` folds the cells congruent to `j` modulo 8, it is left in `X[j]` and
written to `ST128(64 + 16j)`, the other bytes of `ST` and the whole scratchpad are as before, and
nothing else changes. -/
def Obligations.ImplodeFoldsTheScratchpad : Prop :=
  ∀ (s : State) (ln : LaneId), s.run = .ready → ln.exists s.build.nlanes = true →
    ∃ l, exec (.implode ln) s = .next { s.setLane ln l with done := true } ∧
      l = { s.lane ln with k := l.k, x := l.x, st := l.st } ∧
      IsSchedule (ciphersOf s.build) s.build ((s.lane ln).st128 32) ((s.lane ln).st128 48) l.k ∧
      (∀ j, j < 8 → l.st128 (64 + 16 * j) = foldCells (ciphersOf s.build) l.k
          (fun c => (s.lane ln).memRead (128 * c + 16 * j)) (memBytes s.cfgMemLog2 / 128)
          ((s.lane ln).st128 (64 + 16 * j)) ∧
        l.xreg j = l.st128 (64 + 16 * j)) ∧
      ∀ a, (a < 64 ∨ 192 ≤ a) → l.stByte a = (s.lane ln).stByte a

/-- 45_pipeline.md R191: `CORE.l` is `EXPLODE.l; MIX.l; IMPLODE.l`, and completes. -/
def Obligations.CoreIsExplodeMixImplode : Prop :=
  ∀ (s : State) (ln : LaneId), s.run = .ready → ln.exists s.build.nlanes = true →
    ∃ t, exec (.core ln) s = .next t ∧ runCommands [.explode ln, .mix ln, .implode ln] s = .next t

/-- 45_pipeline.md R192, R197: `CORE2` is `CORE.0; CORE.1` and equally `CORE.1; CORE.0`; with one lane
it is illegal, and the term handed to `exec`, which no word decodes to then, is fault 6 (DEDUCED,
log 13). -/
def Obligations.CoreTwoIsBothCoresInEitherOrder : Prop :=
  ∀ (s : State), s.run = .ready →
    (s.build.nlanes = .two → ∃ t, exec .core2 s = .next t ∧
      runCommands [.core .l0, .core .l1] s = .next t ∧
      runCommands [.core .l1, .core .l0] s = .next t) ∧
    (s.build.nlanes = .one → exec .core2 s =
      .next { s with run := .fault, faultCode := 6, done := false })

/-- 45_pipeline.md R198: after `CORE2` each lane holds what its own `CORE` alone produces. -/
def Obligations.DualLaneDecomposition : Prop :=
  ∀ (s : State), s.run = .ready → s.build.nlanes = .two →
    ∃ t t0 t1, exec .core2 s = .next t ∧ exec (.core .l0) s = .next t0 ∧
      exec (.core .l1) s = .next t1 ∧ t.lane0 = t0.lane0 ∧ t.lane1 = t1.lane1

/-- 45_pipeline.md R193, 70_reset_and_hazards.md R242: in every build (93 U10), the end state of `CORE` on
a lane is a function of `ST[0..191]` of that lane, the build (any `ROUND` and `KEYGEN` among it), `MEM` and
`ITERATIONS`, and of nothing else: not the old `SP`, `K`, `X`, mixer registers, the other lane, the backend,
or which lane it is; `ST[0..63]` and `ST[192..199]` are as before. That `MIXINIT` names words of `ST[0..191]`
in every build is DEDUCED (log 23), and likewise `XINIT_OFF` (log 14). -/
def Obligations.CoreIsPure : Prop :=
  ∀ (s s' : State) (ln ln' : LaneId), s.run = .ready → s'.run = .ready →
    ln.exists s.build.nlanes = true → ln'.exists s.build.nlanes = true → s'.build = s.build →
    s'.cfgMemLog2 = s.cfgMemLog2 → s'.cfgIter = s.cfgIter → 7 ≤ s.cfgMemLog2.toNat →
    (∀ a, a < 192 → (s.lane ln).stByte a = (s'.lane ln').stByte a) →
    ∃ t t', exec (.core ln) s = .next t ∧ exec (.core ln') s' = .next t' ∧
      (∀ a, (a < 64 ∨ 192 ≤ a) → (t.lane ln).stByte a = (s.lane ln).stByte a) ∧
      (∀ a, a < 192 → (t.lane ln).stByte a = (t'.lane ln').stByte a) ∧
      (t.lane ln).k = (t'.lane ln').k ∧ (t.lane ln).x = (t'.lane ln').x ∧
      (t.lane ln).al = (t'.lane ln').al ∧ (t.lane ln).ah = (t'.lane ln').ah ∧
      (t.lane ln).bl = (t'.lane ln').bl ∧ (t.lane ln).bh = (t'.lane ln').bh ∧
      (t.lane ln).idx = (t'.lane ln').idx ∧
      ∀ a, a < memBytes s.cfgMemLog2 → (t.lane ln).sp.read a = (t'.lane ln').sp.read a

/-- 45_pipeline.md R197, 70_reset_and_hazards.md R248: a single-lane command leaves the other lane alone
and does not look at it. -/
def Obligations.SingleLaneCommandsIgnoreTheOtherLane : Prop :=
  ∀ (i : Instr) (ln : LaneId) (s : State) (l' : Lane), laneOf i = some ln → s.run = .ready →
    i.wellFormed s.build.nlanes = true →
    ∃ t, exec i s = .next t ∧ t.lane ln.other = s.lane ln.other ∧
      exec i (s.setLane ln.other l') = .next (t.setLane ln.other l')

/-- 40_round_backend.md R131: for every command and state, the backend bit has no effect but on
itself. -/
def Obligations.BackendHasNoEffect : Prop :=
  ∀ (i : Instr) (s : State) (hw : Bool),
    exec i { s with cfgBackendHw := hw } = mapNext (fun t => { t with cfgBackendHw := hw }) (exec i s)

/-- 30_encoding.md R103: `ENCRK.l kr` applies one round, the build's, to all eight X lanes. -/
def Obligations.EncrkRoundsAllEightLanes : Prop :=
  ∀ (s : State) (ln : LaneId) (kr : BitVec 4), s.run = .ready → ln.exists s.build.nlanes = true →
    kr.toNat ≤ 9 →
    ∃ x, runCommands (expand (.encrk ln kr)) s =
        .next { s.setLane ln { s.lane ln with x := x } with done := true } ∧
      ∀ j, j < 8 → fileRead x j = (ciphersOf s.build).round ((s.lane ln).xreg j) ((s.lane ln).key kr.toNat)

/-! ## Host procedures -/

/-- 45_pipeline.md R199, R200: in READY `HASH input` runs `CORE.0` on `ABSORB(input)` and returns the
digest of the compact state it leaves, 32 bytes; lane 1 is untouched. Outside READY, where R200's
precondition fails, it never returns a digest (how it ends there is the model's, log 21). -/
def Obligations.HashIsTheDigestOfCore : Prop :=
  ∀ (C : Config.Collaborators) (input : List Byte) (s : State),
    (s.run = .ready →
      ∃ t, let l := Lane.core (ciphersOf s.build) s.build s.cfgMemLog2 s.cfgIter.toNat
            { s.lane0 with st := C.absorb input }
        let st' := C.permute l.st
        hash C input s = .next (t, some (C.digest ⟨st'[0].toNat % 4, by omega⟩ st').toList) ∧
        t = { s with lane0 := l, done := true, reply := t.reply }) ∧
    (s.run ≠ .ready → ∀ t d, hash C input s ≠ .next (t, some d))

/-- 45_pipeline.md R198, R201: in READY with two lanes `DOUBLEHASH A, B`, in its `CORE2` form (log 24), is
`HASH A` followed by `HASH B`, 64 bytes, digest of A first. Where R201's precondition fails it never returns a digest (how it ends there
is the model's, log 21). -/
def Obligations.DoubleHashIsTheConcatenation : Prop :=
  ∀ (C : Config.Collaborators) (inputA inputB : List Byte) (s : State),
    (s.run = .ready → s.build.nlanes = .two → 7 ≤ s.cfgMemLog2.toNat →
      ∃ t tA tB dA dB, hash C inputA s = .next (tA, some dA) ∧
        hash C inputB s = .next (tB, some dB) ∧
        doubleHash C inputA inputB s = .next (t, some (dA ++ dB)) ∧ (dA ++ dB).length = 64) ∧
    (s.run ≠ .ready ∨ s.build.nlanes = .one →
      ∀ t d, doubleHash C inputA inputB s ≠ .next (t, some d))

/-! ## Functions -/

/-- 40_round_backend.md R126: the word-and-table form of the round equals it (both general knowledge,
log 8; the equality is the spec's own inference). -/
def Obligations.TableFormEqualsTheRound : Prop := ∀ (x k : W128), roundTable x k = roundAes x k

/-- 40_round_backend.md R121, R123, R124, R125: the round byte by byte (PRESUMED: the spec's default from
general knowledge, log 8). -/
def Obligations.RoundByteByByte : Prop :=
  ∀ (x k : W128) (c : Nat), c < 4 →
    let a := fun r => sbox (byteOf x (r + 4 * ((c + r) % 4)))
    let m2 := fun v : Byte => (v <<< 1) ^^^ (if v.getLsbD 7 then 0x1B else 0)
    let m3 := fun v : Byte => m2 v ^^^ v
    byteOf (roundAes x k) (4 * c) = m2 (a 0) ^^^ m3 (a 1) ^^^ a 2 ^^^ a 3 ^^^ byteOf k (4 * c) ∧
    byteOf (roundAes x k) (4 * c + 1) =
      a 0 ^^^ m2 (a 1) ^^^ m3 (a 2) ^^^ a 3 ^^^ byteOf k (4 * c + 1) ∧
    byteOf (roundAes x k) (4 * c + 2) =
      a 0 ^^^ a 1 ^^^ m2 (a 2) ^^^ m3 (a 3) ^^^ byteOf k (4 * c + 2) ∧
    byteOf (roundAes x k) (4 * c + 3) =
      m3 (a 0) ^^^ a 1 ^^^ a 2 ^^^ m2 (a 3) ^^^ byteOf k (4 * c + 3)

/-- 40_round_backend.md R122: the table is the affine map of the inverse in GF(2^8) (PRESUMED, log 8). -/
def Obligations.SboxIsTheAffineMapOfTheInverse : Prop :=
  ∀ v : Byte, ∃ y : Byte, (v = 0 → y = 0) ∧ (v ≠ 0 → gfMul v y = 1) ∧ sbox v = sboxAffine y

/-- 40_round_backend.md R127: the four lanes of `KEYGEN_AES`, which depend on lanes 1 and 3 only, and the
two corner cases (PRESUMED: the spec's default from general knowledge, log 8). -/
def Obligations.KeygenLanes : Prop :=
  (∀ (x : W128) (rc : BitVec 8),
    let sub := fun w : W32 => sbox (byteOf w 3) ++ sbox (byteOf w 2) ++ sbox (byteOf w 1) ++
      sbox (byteOf w 0)
    lane32 (keygenAes x rc) 0 = sub (lane32 x 1) ∧
    lane32 (keygenAes x rc) 1 = (sub (lane32 x 1)).rotateRight 8 ^^^ rc.setWidth 32 ∧
    lane32 (keygenAes x rc) 2 = sub (lane32 x 3) ∧
    lane32 (keygenAes x rc) 3 = (sub (lane32 x 3)).rotateRight 8 ^^^ rc.setWidth 32) ∧
  keygenAes 0 0 = 0x63636363636363636363636363636363 ∧
  keygenAes 0 0x01 = 0x63636362636363636363636263636363

/-- 40_round_backend.md R128: the cascade lane by lane. -/
def Obligations.CascadeLanes : Prop :=
  ∀ s : W128,
    lane32 (cascade s) 0 = lane32 s 0 ∧
    lane32 (cascade s) 1 = lane32 s 0 ^^^ lane32 s 1 ∧
    lane32 (cascade s) 2 = lane32 s 0 ^^^ lane32 s 1 ^^^ lane32 s 2 ∧
    lane32 (cascade s) 3 = lane32 s 0 ^^^ lane32 s 1 ^^^ lane32 s 2 ^^^ lane32 s 3

/-- 43_mixer.md R165: the product is exact and its high half is at most `2^64 - 2`. -/
def Obligations.WideProductIsExact : Prop :=
  ∀ a b : W64,
    (hi64 (wideMul a b)).toNat * 2 ^ 64 + (lo64 (wideMul a b)).toNat = a.toNat * b.toNat ∧
    (hi64 (wideMul a b)).toNat ≤ 2 ^ 64 - 2

/-- 20_memory.md R71, 70_reset_and_hazards.md R248: under a legal platform every byte of every window is
reached at its bus address and at no other space's. -/
def Obligations.PlatformWindowsAreDisjoint : Prop :=
  ∀ (b : Config.Build) (p : Platform) (x : Located), p.legal b = true → x.inWindow b = true →
    p.locate b (p.address x) = some x
end

