-- ==== Sys2Proof/Laws/Bytes.lean ====
section
/-! SUPPORT. Little-endian bytes, register files and the counted loop: the small lemmas of
Machine/Bits.lean. -/

namespace Sys2Proof.Machine

theorem byteOf_toNat {n : Nat} (v : BitVec n) (i : Nat) :
    (byteOf v i).toNat = v.toNat / 2 ^ (8 * i) % 256 := by
  simp [byteOf, BitVec.extractLsb'_toNat, Nat.shiftRight_eq_div_pow]

theorem leNat_lt (bs : List Byte) : leNat bs < 256 ^ bs.length := by
  induction bs with
  | nil => simp [leNat]
  | cons b bs ih =>
    have := b.isLt
    simp only [leNat, List.length_cons, Nat.pow_succ]
    omega

theorem leNat_append (as bs : List Byte) :
    leNat (as ++ bs) = leNat as + 256 ^ as.length * leNat bs := by
  induction as with
  | nil => simp [leNat]
  | cons a as ih =>
    simp only [List.cons_append, leNat, ih, List.length_cons, Nat.pow_succ]
    ring

/-- A byte string read back byte by byte. -/
theorem leNat_byte (bs : List Byte) (i : Nat) (h : i < bs.length) :
    leNat bs / 256 ^ i % 256 = bs[i].toNat := by
  induction bs generalizing i with
  | nil => simp at h
  | cons b bs ih =>
    have hb := b.isLt
    cases i with
    | zero => simp only [leNat, Nat.pow_zero, Nat.div_one, List.getElem_cons_zero]; omega
    | succ i =>
      have h' : i < bs.length := by simpa using h
      have : (b.toNat + 256 * leNat bs) / 256 = leNat bs := by omega
      simp only [leNat, Nat.pow_succ', ← Nat.div_div_eq_div_mul, this, List.getElem_cons_succ]
      exact ih i h'

@[simp] theorem leBytes_length {w : Nat} (n : Nat) (v : BitVec w) : (leBytes n v).length = n := by
  simp [leBytes]

theorem leBytes_getElem {w : Nat} (n : Nat) (v : BitVec w) (i : Nat) (h : i < (leBytes n v).length) :
    (leBytes n v)[i] = byteOf v i := by
  simp [leBytes]

/-- The bytes of a value give the value back. -/
theorem leNat_leBytes {w : Nat} (n : Nat) (v : BitVec w) :
    leNat (leBytes n v) = v.toNat % 2 ^ (8 * n) := by
  induction n with
  | zero => simp [leBytes, leNat, Nat.mod_one]
  | succ n ih =>
    have : leBytes (n + 1) v = leBytes n v ++ [byteOf v n] := by
      simp [leBytes, List.range_succ]
    rw [this, leNat_append, ih, leBytes_length]
    simp only [leNat, byteOf_toNat]
    have e : (256 : Nat) ^ n = 2 ^ (8 * n) := by rw [Nat.pow_mul]
    have e' : (2 : Nat) ^ (8 * (n + 1)) = 2 ^ (8 * n) * 256 := by
      rw [Nat.mul_add, Nat.pow_add]
    rw [e, e', Nat.mod_mul]
    simp

theorem leRead_lt (buf : Nat → Byte) (a n : Nat) : leRead buf a n < 2 ^ (8 * n) := by
  have h := leNat_lt ((List.range n).map fun i => buf (a + i))
  rw [List.length_map, List.length_range] at h
  have e : (256 : Nat) ^ n = 2 ^ (8 * n) := by rw [Nat.pow_mul]
  rw [← e]
  exact h

theorem leRead_congr {buf buf' : Nat → Byte} {a n : Nat}
    (h : ∀ i, i < n → buf (a + i) = buf' (a + i)) : leRead buf a n = leRead buf' a n := by
  unfold leRead
  congr 1
  exact List.map_congr_left fun i hi => h i (List.mem_range.1 hi)

/-- Byte `i` of an `n`-byte read is the byte at `a + i` (20_memory.md R61). -/
theorem byteOf_leRead {w : Nat} (buf : Nat → Byte) (a n i : Nat) (hi : i < n) (hw : 8 * n ≤ w) :
    byteOf (BitVec.ofNat w (leRead buf a n)) i = buf (a + i) := by
  apply BitVec.eq_of_toNat_eq
  rw [byteOf_toNat, BitVec.toNat_ofNat]
  have hlt : leRead buf a n < 2 ^ w :=
    lt_of_lt_of_le (leRead_lt buf a n) (Nat.pow_le_pow_right (by decide) hw)
  rw [Nat.mod_eq_of_lt hlt]
  have e : (2 : Nat) ^ (8 * i) = 256 ^ i := by rw [Nat.pow_mul]
  have := leNat_byte ((List.range n).map fun i => buf (a + i)) i (by simpa using hi)
  rw [e]
  simpa [leRead] using this

/-- A read whose bytes are those of a value is the value. -/
theorem ofNat_leRead_eq {w n : Nat} (hw : w = 8 * n) (buf : Nat → Byte) (a : Nat) (v : BitVec w)
    (h : ∀ i, i < n → buf (a + i) = byteOf v i) : BitVec.ofNat w (leRead buf a n) = v := by
  have e : leRead buf a n = leNat (leBytes n v) := by
    unfold leRead leBytes
    congr 1
    exact List.map_congr_left fun i hi => h i (List.mem_range.1 hi)
  rw [e, leNat_leBytes, ← hw, Nat.mod_eq_of_lt v.isLt, BitVec.ofNat_toNat, BitVec.setWidth_eq]

theorem fileRead_fileWrite_same {n w : Nat} (f : Vector (BitVec w) n) {i : Nat} (h : i < n)
    (v : BitVec w) : fileRead (fileWrite f i v) i = v := by
  simp [fileRead, fileWrite, h]

theorem fileRead_fileWrite_ne {n w : Nat} (f : Vector (BitVec w) n) {i j : Nat} (h : i ≠ j)
    (v : BitVec w) : fileRead (fileWrite f i v) j = fileRead f j := by
  simp [fileRead, fileWrite, Vector.getElem?_setIfInBounds_ne h]

/-- What a register reads after a write to the file. -/
theorem fileRead_fileWrite {n w : Nat} (f : Vector (BitVec w) n) {i : Nat} (h : i < n) (j : Nat)
    (v : BitVec w) : fileRead (fileWrite f i v) j = if j = i then v else fileRead f j := by
  split
  · subst j; exact fileRead_fileWrite_same f h v
  · rename_i hne; exact fileRead_fileWrite_ne f (Ne.symm hne) v

theorem fileRead_lt {n w : Nat} (f : Vector (BitVec w) n) {i : Nat} (h : i < n) :
    fileRead f i = f[i] := by
  simp [fileRead, h]

/-- Two files that read alike are equal. -/
theorem file_ext {n w : Nat} {f g : Vector (BitVec w) n}
    (h : ∀ i, i < n → fileRead f i = fileRead g i) : f = g := by
  ext1 i hi
  have := h i hi
  rwa [fileRead_lt f hi, fileRead_lt g hi] at this

@[simp] theorem forRange_zero {α : Type} (f : Nat → α → α) (i : Nat) (a : α) :
    forRange f i 0 a = a := rfl

theorem forRange_succ {α : Type} (f : Nat → α → α) (i n : Nat) (a : α) :
    forRange f i (n + 1) a = forRange f (i + 1) n (f i a) := rfl

/-- The last turn of a loop. -/
theorem forRange_succ_last {α : Type} (f : Nat → α → α) (i n : Nat) (a : α) :
    forRange f i (n + 1) a = f (i + n) (forRange f i n a) := by
  induction n generalizing i a with
  | zero => rfl
  | succ n ih =>
    rw [forRange_succ, ih, forRange_succ]
    congr 1
    omega

/-- An invariant of the loop body holds after the loop. -/
theorem forRange_inv {α : Type} {f : Nat → α → α} {i n : Nat} {a : α} (P : Nat → α → Prop)
    (h0 : P 0 a) (hs : ∀ k b, k < n → P k b → P (k + 1) (f (i + k) b)) :
    P n (forRange f i n a) := by
  induction n with
  | zero => exact h0
  | succ n ih =>
    rw [forRange_succ_last]
    exact hs n _ (Nat.lt_succ_self n) (ih fun k b hk => hs k b (Nat.lt_succ_of_lt hk))

/-- A property the loop body keeps is kept by the loop. -/
theorem forRange_keeps {α : Type} {f : Nat → α → α} (P : α → Prop)
    (hs : ∀ k b, P b → P (f k b)) (i n : Nat) {a : α} (h : P a) : P (forRange f i n a) :=
  forRange_inv (fun _ b => P b) h fun k b _ hb => hs (i + k) b hb

/-- A view the loop body keeps is kept by the loop. -/
theorem forRange_view {α β : Type} {f : Nat → α → α} (g : α → β)
    (hs : ∀ k b, g (f k b) = g b) (i n : Nat) (a : α) : g (forRange f i n a) = g a :=
  forRange_keeps (fun b => g b = g a) (fun k b hb => (hs k b).trans hb) i n rfl

/-- Loops over related values keep a relation their bodies keep. -/
theorem forRange_rel {α β : Type} {f : Nat → α → α} {g : Nat → β → β} (R : α → β → Prop)
    (i n : Nat) (hs : ∀ k a b, i ≤ k → k < i + n → R a b → R (f k a) (g k b)) {a : α} {b : β}
    (h : R a b) : R (forRange f i n a) (forRange g i n b) := by
  induction n generalizing i a b with
  | zero => exact h
  | succ n ih =>
    rw [forRange_succ, forRange_succ]
    exact ih (i + 1) (fun k a b h1 h2 => hs k a b (by omega) (by omega))
      (hs i a b (Nat.le_refl i) (by omega) h)

/-- The compact state byte by byte after a write (20_memory.md R63). -/
theorem fileRead_stWrite {w : Nat} (st : Vector Byte 200) (a n : Nat) (v : BitVec w)
    (h : a + n ≤ 200) (x : Nat) :
    fileRead (stWrite st a n v) x =
      if a ≤ x ∧ x < a + n then byteOf v (x - a) else fileRead st x := by
  unfold stWrite
  refine forRange_inv (i := 0)
    (P := fun k st' => k ≤ n → fileRead st' x =
      if a ≤ x ∧ x < a + k then byteOf v (x - a) else fileRead st x) ?_ ?_ (Nat.le_refl n)
  · intro _
    rw [if_neg (by omega)]
  · intro k b hk ih hk'
    rw [Nat.zero_add, fileRead_fileWrite b (by omega), ih (by omega)]
    by_cases hx : x = a + k
    · rw [if_pos hx, if_pos (by omega)]
      congr 1
      omega
    · rw [if_neg hx]
      by_cases hc : a ≤ x ∧ x < a + k
      · rw [if_pos hc, if_pos (by omega)]
      · rw [if_neg hc, if_neg (by omega)]

end Sys2Proof.Machine
end

