-- ==== Sys2Proof/Laws/Aes.lean ====
section
/-! SUPPORT. The lanes, bytes and halves of values put together from them (00_scope.md R6), and the
word operations of the round backend. -/

namespace Sys2Proof.Machine

/-- A concatenation as a number. -/
theorem append_toNat {n m : Nat} (x : BitVec n) (y : BitVec m) :
    (x ++ y).toNat = x.toNat * 2 ^ m + y.toNat := by
  rw [BitVec.toNat_append, ← Nat.shiftLeft_add_eq_or_of_lt y.isLt, Nat.shiftLeft_eq]

@[simp] theorem lane32_ofLanes_0 (a b c d : W32) : lane32 (ofLanes a b c d) 0 = a := by
  have := a.isLt; have := b.isLt; have := c.isLt; have := d.isLt
  apply BitVec.eq_of_toNat_eq
  simp only [lane32, ofLanes, BitVec.extractLsb'_toNat, append_toNat, Nat.shiftRight_eq_div_pow]
  omega

@[simp] theorem lane32_ofLanes_1 (a b c d : W32) : lane32 (ofLanes a b c d) 1 = b := by
  have := a.isLt; have := b.isLt; have := c.isLt; have := d.isLt
  apply BitVec.eq_of_toNat_eq
  simp only [lane32, ofLanes, BitVec.extractLsb'_toNat, append_toNat, Nat.shiftRight_eq_div_pow]
  omega

@[simp] theorem lane32_ofLanes_2 (a b c d : W32) : lane32 (ofLanes a b c d) 2 = c := by
  have := a.isLt; have := b.isLt; have := c.isLt; have := d.isLt
  apply BitVec.eq_of_toNat_eq
  simp only [lane32, ofLanes, BitVec.extractLsb'_toNat, append_toNat, Nat.shiftRight_eq_div_pow]
  omega

@[simp] theorem lane32_ofLanes_3 (a b c d : W32) : lane32 (ofLanes a b c d) 3 = d := by
  have := a.isLt; have := b.isLt; have := c.isLt; have := d.isLt
  apply BitVec.eq_of_toNat_eq
  simp only [lane32, ofLanes, BitVec.extractLsb'_toNat, append_toNat, Nat.shiftRight_eq_div_pow]
  omega

@[simp] theorem byteOf_ofBytes4_0 (a b c d : Byte) : byteOf (ofBytes4 a b c d) 0 = a := by
  have := a.isLt; have := b.isLt; have := c.isLt; have := d.isLt
  apply BitVec.eq_of_toNat_eq
  simp only [byteOf, ofBytes4, BitVec.extractLsb'_toNat, append_toNat, Nat.shiftRight_eq_div_pow]
  omega

@[simp] theorem byteOf_ofBytes4_1 (a b c d : Byte) : byteOf (ofBytes4 a b c d) 1 = b := by
  have := a.isLt; have := b.isLt; have := c.isLt; have := d.isLt
  apply BitVec.eq_of_toNat_eq
  simp only [byteOf, ofBytes4, BitVec.extractLsb'_toNat, append_toNat, Nat.shiftRight_eq_div_pow]
  omega

@[simp] theorem byteOf_ofBytes4_2 (a b c d : Byte) : byteOf (ofBytes4 a b c d) 2 = c := by
  have := a.isLt; have := b.isLt; have := c.isLt; have := d.isLt
  apply BitVec.eq_of_toNat_eq
  simp only [byteOf, ofBytes4, BitVec.extractLsb'_toNat, append_toNat, Nat.shiftRight_eq_div_pow]
  omega

@[simp] theorem byteOf_ofBytes4_3 (a b c d : Byte) : byteOf (ofBytes4 a b c d) 3 = d := by
  have := a.isLt; have := b.isLt; have := c.isLt; have := d.isLt
  apply BitVec.eq_of_toNat_eq
  simp only [byteOf, ofBytes4, BitVec.extractLsb'_toNat, append_toNat, Nat.shiftRight_eq_div_pow]
  omega

@[simp] theorem lo64_cat (h l : W64) : lo64 (cat h l) = l := by
  have := l.isLt
  apply BitVec.eq_of_toNat_eq
  simp only [lo64, cat, BitVec.extractLsb'_toNat, append_toNat, Nat.shiftRight_eq_div_pow]
  omega

@[simp] theorem hi64_cat (h l : W64) : hi64 (cat h l) = h := by
  have := l.isLt; have := h.isLt
  apply BitVec.eq_of_toNat_eq
  simp only [hi64, cat, BitVec.extractLsb'_toNat, append_toNat, Nat.shiftRight_eq_div_pow]
  omega

/-- Byte `r` of lane `i` is byte `4i + r` (00_scope.md R6). -/
theorem byteOf_lane32 {n : Nat} (v : BitVec n) (i : Nat) {r : Nat} (h : r < 4) :
    byteOf (lane32 v i) r = byteOf v (4 * i + r) := by
  ext j hj
  simp only [byteOf, lane32, BitVec.getElem_extractLsb', BitVec.getLsbD_extractLsb']
  have : 8 * r + j < 32 := by omega
  simp only [this, decide_true, Bool.true_and]
  congr 1
  omega

theorem lane32_xor {n : Nat} (v w : BitVec n) (i : Nat) :
    lane32 (v ^^^ w) i = lane32 v i ^^^ lane32 w i := by
  ext j hj
  simp [lane32]

theorem byteOf_xor {n : Nat} (v w : BitVec n) (i : Nat) :
    byteOf (v ^^^ w) i = byteOf v i ^^^ byteOf w i := by
  ext j hj
  simp [byteOf]

/-- A 128-bit value is its four lanes (00_scope.md R6). -/
theorem lane32_ext {v w : W128} (h : ∀ i, i < 4 → lane32 v i = lane32 w i) : v = w := by
  ext j hj
  have e := congrArg (·.getLsbD (j % 32)) (h (j / 32) (by omega))
  simp only [lane32, BitVec.getLsbD_extractLsb'] at e
  have h1 : j % 32 < 32 := by omega
  have h2 : 32 * (j / 32) + j % 32 = j := by omega
  simpa [h1, h2, BitVec.getLsbD_eq_getElem hj] using e

/-- `RotWord` is a rotation right by eight (40_round_backend.md R127). -/
theorem rotWord_eq (w : W32) : rotWord w = w.rotateRight 8 := by
  simp [rotWord, BitVec.rotateRight_def]

/-- A shift by whole lanes moves the lanes (40_round_backend.md R128). -/
theorem lane32_shiftLeft (v : W128) {i k : Nat} (hi : i < 4) :
    lane32 (v <<< (32 * k)) i = if k ≤ i then lane32 v (i - k) else 0 := by
  ext j hj
  simp only [lane32, BitVec.getElem_extractLsb', BitVec.getLsbD_shiftLeft]
  have h1 : 32 * i + j < 128 := by omega
  by_cases h : k ≤ i
  · have h2 : ¬ (32 * i + j < 32 * k) := by omega
    simp only [h, h1, h2, decide_true, decide_false, Bool.not_false, Bool.true_and, if_true,
      BitVec.getElem_extractLsb']
    congr 1
    omega
  · have h2 : 32 * i + j < 32 * k := by omega
    simp [h, h2]

end Sys2Proof.Machine
end

