-- ==== Sys2Proof/Laws/Ciphers.lean ====
section
/-! SUPPORT. The functions a build names: the default ones, and that every pair of total functions is
named by some build, so that a claim for every build is a claim for every `ROUND` and `KEYGEN`. -/

namespace Sys2Proof.Machine

@[simp] theorem getLsbD_bitsOf (f : Nat → Bool) (w i : Nat) :
    (bitsOf f w).getLsbD i = (decide (i < w) && f i) := by
  induction w with
  | zero => simp [bitsOf]
  | succ w ih =>
    rw [bitsOf, BitVec.getLsbD_cons, ih]
    by_cases h : i = w
    · simp [h]
    · have : i < w ↔ i < w + 1 := by omega
      simp [h, this]

@[simp] theorem getElem_bitsOf (f : Nat → Bool) (w i : Nat) (h : i < w) : (bitsOf f w)[i] = f i := by
  rw [← BitVec.getLsbD_eq_getElem h, getLsbD_bitsOf]
  simp [h]

/-- A word is the word of its own bits. -/
theorem bitsOf_getLsbD {w : Nat} (x : BitVec w) : bitsOf x.getLsbD w = x :=
  BitVec.eq_of_getLsbD_eq fun i h => by simp [h]

theorem ciphersOf_aes {b : Config.Build} (h : b.ciphers = .aes) : ciphersOf b = ciphers := by
  rw [ciphersOf, h]

@[simp] theorem argBits_low {w : Nat} (x : W128) (y : BitVec w) {i : Nat} (h : i < 128) :
    argBits x y i = x.getLsbD i := by
  simp [argBits, BitVec.getLsbD_append, h]

@[simp] theorem argBits_high {w : Nat} (x : W128) (y : BitVec w) (i : Nat) :
    argBits x y (128 + i) = y.getLsbD i := by
  simp [argBits, BitVec.getLsbD_append]

/-- The tree of a function of the first `n` input bits, the others fixed as `g` says. -/
def treeOf (f : (Nat → Bool) → Bool) : Nat → (Nat → Bool) → Config.BitTree
  | 0, g => .leaf (f g)
  | n + 1, g =>
    .test n (treeOf f n fun i => if i = n then false else g i)
      (treeOf f n fun i => if i = n then true else g i)

theorem evalTree_treeOf (f : (Nat → Bool) → Bool) (x : Nat → Bool) (n : Nat) (g : Nat → Bool) :
    evalTree x (treeOf f n g) = f fun i => if i < n then x i else g i := by
  induction n generalizing g with
  | zero => simp [treeOf, evalTree]
  | succ n ih =>
    have step (b : Bool) (hb : x n = b) : (fun i => if i < n then x i else if i = n then b else g i) =
        fun i => if i < n + 1 then x i else g i := by
      funext i
      rcases Nat.lt_trichotomy i n with h | rfl | h
      · simp [h, Nat.lt_succ_of_lt h]
      · simp [hb]
      · simp [show ¬ i < n by omega, show ¬ i < n + 1 by omega, show i ≠ n by omega]
    cases hx : x n <;> simp only [treeOf, evalTree, ih, hx, step _ hx] <;> rfl

/-- The trees of a function of 128 and of `w` bits. -/
def treesOf {w : Nat} (F : W128 → BitVec w → W128) : Vector Config.BitTree 128 :=
  Vector.ofFn fun j => treeOf
    (fun g => (F (bitsOf g 128) (bitsOf (fun i => g (128 + i)) w)).getLsbD j.val) (w + 128)
    fun _ => false

theorem evalTrees_treesOf {w : Nat} (F : W128 → BitVec w → W128) (x : W128) (y : BitVec w) :
    evalTrees (treesOf F) (argBits x y) = F x y := by
  have hx : bitsOf (fun i => decide (i < w + 128) && argBits x y i) 128 = x :=
    BitVec.eq_of_getLsbD_eq fun i h => by
      simp [h, show i < w + 128 by omega]
  have hy : bitsOf (fun i => decide (128 + i < w + 128) && y.getLsbD i) w = y :=
    BitVec.eq_of_getLsbD_eq fun i h => by
      simp [h, show 128 + i < w + 128 by omega]
  refine BitVec.eq_of_getLsbD_eq fun i h => ?_
  simp [evalTrees, treesOf, h, evalTree_treeOf, hx, hy]

/-- Every total `ROUND` and `KEYGEN` are those of some build (00_scope.md R4). -/
theorem exists_ciphersOf_eq (C : Config.Ciphers) (b : Config.Build) :
    ∃ c, ciphersOf { b with ciphers := c } = C :=
  ⟨.given (treesOf C.round) (treesOf C.keygen), by simp [ciphersOf, evalTrees_treesOf]⟩

end Sys2Proof.Machine
end

