-- ==== Sys2Proof/Laws/State.lean ====
section
/-! SUPPORT. One lemma per field per update of the state and of a lane, so that no later proof unfolds
a record update. -/

namespace Sys2Proof.Machine

@[simp] theorem State.start_build (s : State) : (s.start).build = s.build :=
  rfl
@[simp] theorem State.start_cfgBackendHw (s : State) : (s.start).cfgBackendHw = s.cfgBackendHw :=
  rfl
@[simp] theorem State.start_cfgMemLog2 (s : State) : (s.start).cfgMemLog2 = s.cfgMemLog2 :=
  rfl
@[simp] theorem State.start_cfgIter (s : State) : (s.start).cfgIter = s.cfgIter :=
  rfl
@[simp] theorem State.start_lock (s : State) : (s.start).lock = s.lock :=
  rfl
@[simp] theorem State.start_run (s : State) : (s.start).run = .busy :=
  rfl
@[simp] theorem State.start_done (s : State) : (s.start).done = false :=
  rfl
@[simp] theorem State.start_faultCode (s : State) : (s.start).faultCode = s.faultCode :=
  rfl
@[simp] theorem State.start_lane0 (s : State) : (s.start).lane0 = s.lane0 :=
  rfl
@[simp] theorem State.start_lane1 (s : State) : (s.start).lane1 = s.lane1 :=
  rfl
@[simp] theorem State.start_inbox (s : State) : (s.start).inbox = s.inbox :=
  rfl
@[simp] theorem State.start_reply (s : State) : (s.start).reply = s.reply :=
  rfl

@[simp] theorem State.complete_build (s : State) : (s.complete).build = s.build :=
  rfl
@[simp] theorem State.complete_cfgBackendHw (s : State) : (s.complete).cfgBackendHw = s.cfgBackendHw :=
  rfl
@[simp] theorem State.complete_cfgMemLog2 (s : State) : (s.complete).cfgMemLog2 = s.cfgMemLog2 :=
  rfl
@[simp] theorem State.complete_cfgIter (s : State) : (s.complete).cfgIter = s.cfgIter :=
  rfl
@[simp] theorem State.complete_lock (s : State) : (s.complete).lock = s.lock :=
  rfl
@[simp] theorem State.complete_run (s : State) : (s.complete).run = .ready :=
  rfl
@[simp] theorem State.complete_done (s : State) : (s.complete).done = true :=
  rfl
@[simp] theorem State.complete_faultCode (s : State) : (s.complete).faultCode = s.faultCode :=
  rfl
@[simp] theorem State.complete_lane0 (s : State) : (s.complete).lane0 = s.lane0 :=
  rfl
@[simp] theorem State.complete_lane1 (s : State) : (s.complete).lane1 = s.lane1 :=
  rfl
@[simp] theorem State.complete_inbox (s : State) : (s.complete).inbox = s.inbox :=
  rfl
@[simp] theorem State.complete_reply (s : State) : (s.complete).reply = s.reply :=
  rfl

@[simp] theorem State.raiseFault_build (s : State) (c : FaultCode) : (s.raiseFault c).build = s.build :=
  rfl
@[simp] theorem State.raiseFault_cfgBackendHw (s : State) (c : FaultCode) : (s.raiseFault c).cfgBackendHw = s.cfgBackendHw :=
  rfl
@[simp] theorem State.raiseFault_cfgMemLog2 (s : State) (c : FaultCode) : (s.raiseFault c).cfgMemLog2 = s.cfgMemLog2 :=
  rfl
@[simp] theorem State.raiseFault_cfgIter (s : State) (c : FaultCode) : (s.raiseFault c).cfgIter = s.cfgIter :=
  rfl
@[simp] theorem State.raiseFault_lock (s : State) (c : FaultCode) : (s.raiseFault c).lock = s.lock :=
  rfl
@[simp] theorem State.raiseFault_run (s : State) (c : FaultCode) : (s.raiseFault c).run = .fault :=
  rfl
@[simp] theorem State.raiseFault_done (s : State) (c : FaultCode) : (s.raiseFault c).done = false :=
  rfl
@[simp] theorem State.raiseFault_faultCode (s : State) (c : FaultCode) : (s.raiseFault c).faultCode = faultNumber c :=
  rfl
@[simp] theorem State.raiseFault_lane0 (s : State) (c : FaultCode) : (s.raiseFault c).lane0 = s.lane0 :=
  rfl
@[simp] theorem State.raiseFault_lane1 (s : State) (c : FaultCode) : (s.raiseFault c).lane1 = s.lane1 :=
  rfl
@[simp] theorem State.raiseFault_inbox (s : State) (c : FaultCode) : (s.raiseFault c).inbox = s.inbox :=
  rfl
@[simp] theorem State.raiseFault_reply (s : State) (c : FaultCode) : (s.raiseFault c).reply = s.reply :=
  rfl

@[simp] theorem State.setLane_build (s : State) (ln : LaneId) (l : Lane) : (s.setLane ln l).build = s.build :=
  by cases ln <;> rfl
@[simp] theorem State.setLane_cfgBackendHw (s : State) (ln : LaneId) (l : Lane) : (s.setLane ln l).cfgBackendHw = s.cfgBackendHw :=
  by cases ln <;> rfl
@[simp] theorem State.setLane_cfgMemLog2 (s : State) (ln : LaneId) (l : Lane) : (s.setLane ln l).cfgMemLog2 = s.cfgMemLog2 :=
  by cases ln <;> rfl
@[simp] theorem State.setLane_cfgIter (s : State) (ln : LaneId) (l : Lane) : (s.setLane ln l).cfgIter = s.cfgIter :=
  by cases ln <;> rfl
@[simp] theorem State.setLane_lock (s : State) (ln : LaneId) (l : Lane) : (s.setLane ln l).lock = s.lock :=
  by cases ln <;> rfl
@[simp] theorem State.setLane_run (s : State) (ln : LaneId) (l : Lane) : (s.setLane ln l).run = s.run :=
  by cases ln <;> rfl
@[simp] theorem State.setLane_done (s : State) (ln : LaneId) (l : Lane) : (s.setLane ln l).done = s.done :=
  by cases ln <;> rfl
@[simp] theorem State.setLane_faultCode (s : State) (ln : LaneId) (l : Lane) : (s.setLane ln l).faultCode = s.faultCode :=
  by cases ln <;> rfl
@[simp] theorem State.setLane_inbox (s : State) (ln : LaneId) (l : Lane) : (s.setLane ln l).inbox = s.inbox :=
  by cases ln <;> rfl
@[simp] theorem State.setLane_reply (s : State) (ln : LaneId) (l : Lane) : (s.setLane ln l).reply = s.reply :=
  by cases ln <;> rfl

@[simp] theorem State.onLane_build (s : State) (ln : LaneId) (f : Lane → Lane) : (s.onLane ln f).build = s.build :=
  by cases ln <;> rfl
@[simp] theorem State.onLane_cfgBackendHw (s : State) (ln : LaneId) (f : Lane → Lane) : (s.onLane ln f).cfgBackendHw = s.cfgBackendHw :=
  by cases ln <;> rfl
@[simp] theorem State.onLane_cfgMemLog2 (s : State) (ln : LaneId) (f : Lane → Lane) : (s.onLane ln f).cfgMemLog2 = s.cfgMemLog2 :=
  by cases ln <;> rfl
@[simp] theorem State.onLane_cfgIter (s : State) (ln : LaneId) (f : Lane → Lane) : (s.onLane ln f).cfgIter = s.cfgIter :=
  by cases ln <;> rfl
@[simp] theorem State.onLane_lock (s : State) (ln : LaneId) (f : Lane → Lane) : (s.onLane ln f).lock = s.lock :=
  by cases ln <;> rfl
@[simp] theorem State.onLane_run (s : State) (ln : LaneId) (f : Lane → Lane) : (s.onLane ln f).run = s.run :=
  by cases ln <;> rfl
@[simp] theorem State.onLane_done (s : State) (ln : LaneId) (f : Lane → Lane) : (s.onLane ln f).done = s.done :=
  by cases ln <;> rfl
@[simp] theorem State.onLane_faultCode (s : State) (ln : LaneId) (f : Lane → Lane) : (s.onLane ln f).faultCode = s.faultCode :=
  by cases ln <;> rfl
@[simp] theorem State.onLane_inbox (s : State) (ln : LaneId) (f : Lane → Lane) : (s.onLane ln f).inbox = s.inbox :=
  by cases ln <;> rfl
@[simp] theorem State.onLane_reply (s : State) (ln : LaneId) (f : Lane → Lane) : (s.onLane ln f).reply = s.reply :=
  by cases ln <;> rfl

@[simp] theorem State.writeCfgBackend_build (s : State) (v : W32) : (s.writeCfgBackend v).build = s.build :=
  rfl
@[simp] theorem State.writeCfgBackend_cfgBackendHw (s : State) (v : W32) : (s.writeCfgBackend v).cfgBackendHw = v.getLsbD 0 :=
  rfl
@[simp] theorem State.writeCfgBackend_cfgMemLog2 (s : State) (v : W32) : (s.writeCfgBackend v).cfgMemLog2 = s.cfgMemLog2 :=
  rfl
@[simp] theorem State.writeCfgBackend_cfgIter (s : State) (v : W32) : (s.writeCfgBackend v).cfgIter = s.cfgIter :=
  rfl
@[simp] theorem State.writeCfgBackend_lock (s : State) (v : W32) : (s.writeCfgBackend v).lock = s.lock :=
  rfl
@[simp] theorem State.writeCfgBackend_run (s : State) (v : W32) : (s.writeCfgBackend v).run = s.run :=
  rfl
@[simp] theorem State.writeCfgBackend_done (s : State) (v : W32) : (s.writeCfgBackend v).done = s.done :=
  rfl
@[simp] theorem State.writeCfgBackend_faultCode (s : State) (v : W32) : (s.writeCfgBackend v).faultCode = s.faultCode :=
  rfl
@[simp] theorem State.writeCfgBackend_lane0 (s : State) (v : W32) : (s.writeCfgBackend v).lane0 = s.lane0 :=
  rfl
@[simp] theorem State.writeCfgBackend_lane1 (s : State) (v : W32) : (s.writeCfgBackend v).lane1 = s.lane1 :=
  rfl
@[simp] theorem State.writeCfgBackend_inbox (s : State) (v : W32) : (s.writeCfgBackend v).inbox = s.inbox :=
  rfl
@[simp] theorem State.writeCfgBackend_reply (s : State) (v : W32) : (s.writeCfgBackend v).reply = s.reply :=
  rfl

@[simp] theorem State.writeCfgMem_build (s : State) (v : W32) : (s.writeCfgMem v).build = s.build :=
  rfl
@[simp] theorem State.writeCfgMem_cfgBackendHw (s : State) (v : W32) : (s.writeCfgMem v).cfgBackendHw = s.cfgBackendHw :=
  rfl
@[simp] theorem State.writeCfgMem_cfgMemLog2 (s : State) (v : W32) : (s.writeCfgMem v).cfgMemLog2 = v.extractLsb' 0 6 :=
  rfl
@[simp] theorem State.writeCfgMem_cfgIter (s : State) (v : W32) : (s.writeCfgMem v).cfgIter = s.cfgIter :=
  rfl
@[simp] theorem State.writeCfgMem_lock (s : State) (v : W32) : (s.writeCfgMem v).lock = s.lock :=
  rfl
@[simp] theorem State.writeCfgMem_run (s : State) (v : W32) : (s.writeCfgMem v).run = s.run :=
  rfl
@[simp] theorem State.writeCfgMem_done (s : State) (v : W32) : (s.writeCfgMem v).done = s.done :=
  rfl
@[simp] theorem State.writeCfgMem_faultCode (s : State) (v : W32) : (s.writeCfgMem v).faultCode = s.faultCode :=
  rfl
@[simp] theorem State.writeCfgMem_lane0 (s : State) (v : W32) : (s.writeCfgMem v).lane0 = s.lane0 :=
  rfl
@[simp] theorem State.writeCfgMem_lane1 (s : State) (v : W32) : (s.writeCfgMem v).lane1 = s.lane1 :=
  rfl
@[simp] theorem State.writeCfgMem_inbox (s : State) (v : W32) : (s.writeCfgMem v).inbox = s.inbox :=
  rfl
@[simp] theorem State.writeCfgMem_reply (s : State) (v : W32) : (s.writeCfgMem v).reply = s.reply :=
  rfl

@[simp] theorem State.writeCfgIter_build (s : State) (v : W32) : (s.writeCfgIter v).build = s.build :=
  rfl
@[simp] theorem State.writeCfgIter_cfgBackendHw (s : State) (v : W32) : (s.writeCfgIter v).cfgBackendHw = s.cfgBackendHw :=
  rfl
@[simp] theorem State.writeCfgIter_cfgMemLog2 (s : State) (v : W32) : (s.writeCfgIter v).cfgMemLog2 = s.cfgMemLog2 :=
  rfl
@[simp] theorem State.writeCfgIter_cfgIter (s : State) (v : W32) : (s.writeCfgIter v).cfgIter = v :=
  rfl
@[simp] theorem State.writeCfgIter_lock (s : State) (v : W32) : (s.writeCfgIter v).lock = s.lock :=
  rfl
@[simp] theorem State.writeCfgIter_run (s : State) (v : W32) : (s.writeCfgIter v).run = s.run :=
  rfl
@[simp] theorem State.writeCfgIter_done (s : State) (v : W32) : (s.writeCfgIter v).done = s.done :=
  rfl
@[simp] theorem State.writeCfgIter_faultCode (s : State) (v : W32) : (s.writeCfgIter v).faultCode = s.faultCode :=
  rfl
@[simp] theorem State.writeCfgIter_lane0 (s : State) (v : W32) : (s.writeCfgIter v).lane0 = s.lane0 :=
  rfl
@[simp] theorem State.writeCfgIter_lane1 (s : State) (v : W32) : (s.writeCfgIter v).lane1 = s.lane1 :=
  rfl
@[simp] theorem State.writeCfgIter_inbox (s : State) (v : W32) : (s.writeCfgIter v).inbox = s.inbox :=
  rfl
@[simp] theorem State.writeCfgIter_reply (s : State) (v : W32) : (s.writeCfgIter v).reply = s.reply :=
  rfl

theorem LaneId_other_ne (ln : LaneId) : ln.other ≠ ln := by cases ln <;> decide

@[simp] theorem State.lane_start (s : State) (ln : LaneId) : s.start.lane ln = s.lane ln := by
  cases ln <;> rfl

@[simp] theorem State.lane_complete (s : State) (ln : LaneId) : s.complete.lane ln = s.lane ln := by
  cases ln <;> rfl

@[simp] theorem State.lane_raiseFault (s : State) (c : FaultCode) (ln : LaneId) :
    (s.raiseFault c).lane ln = s.lane ln := by
  cases ln <;> rfl

@[simp] theorem State.lane_setLane_same (s : State) (ln : LaneId) (l : Lane) :
    (s.setLane ln l).lane ln = l := by
  cases ln <;> rfl

theorem State.lane_setLane_ne (s : State) {ln ln' : LaneId} (h : ln' ≠ ln) (l : Lane) :
    (s.setLane ln l).lane ln' = s.lane ln' := by
  cases ln <;> cases ln' <;> first | rfl | exact absurd rfl h

@[simp] theorem State.lane_onLane_same (s : State) (ln : LaneId) (f : Lane → Lane) :
    (s.onLane ln f).lane ln = f (s.lane ln) := by
  cases ln <;> rfl

theorem State.lane_onLane_ne (s : State) {ln ln' : LaneId} (h : ln' ≠ ln) (f : Lane → Lane) :
    (s.onLane ln f).lane ln' = s.lane ln' :=
  s.lane_setLane_ne h _

theorem State.setLane_lane (s : State) (ln : LaneId) : s.setLane ln (s.lane ln) = s := by
  cases ln <;> rfl

theorem State.setLane_setLane (s : State) (ln : LaneId) (l l' : Lane) :
    (s.setLane ln l).setLane ln l' = s.setLane ln l' := by
  cases ln <;> rfl

/-- Updates of the two lanes commute: they are separate storage (10_state.md R28). -/
theorem State.setLane_comm (s : State) (ln : LaneId) (l l' : Lane) :
    (s.setLane ln l).setLane ln.other l' = (s.setLane ln.other l').setLane ln l := by
  cases ln <;> rfl

theorem State.onLane_onLane (s : State) (ln : LaneId) (f g : Lane → Lane) :
    (s.onLane ln f).onLane ln g = s.onLane ln (g ∘ f) := by
  cases ln <;> rfl

theorem State.onLane_comm (s : State) (ln : LaneId) (f g : Lane → Lane) :
    (s.onLane ln f).onLane ln.other g = (s.onLane ln.other g).onLane ln f := by
  cases ln <;> rfl

/-- Starting and completing around a lane update sets `DONE` and leaves the rest. -/
theorem State.complete_onLane_start (s : State) (ln : LaneId) (f : Lane → Lane)
    (h : s.run = .ready) :
    (s.start.onLane ln f).complete = { s.onLane ln f with done := true } := by
  cases s
  cases ln <;> cases h <;> rfl

@[simp] theorem Lane.memWrite_st (l : Lane) (a : Nat) (v : W128) : (l.memWrite a v).st = l.st :=
  by cases l; rfl
@[simp] theorem Lane.memWrite_sp (l : Lane) (a : Nat) (v : W128) : (l.memWrite a v).sp = l.sp.write a (leBytes 16 v) :=
  by cases l; rfl
@[simp] theorem Lane.memWrite_k (l : Lane) (a : Nat) (v : W128) : (l.memWrite a v).k = l.k :=
  by cases l; rfl
@[simp] theorem Lane.memWrite_x (l : Lane) (a : Nat) (v : W128) : (l.memWrite a v).x = l.x :=
  by cases l; rfl
@[simp] theorem Lane.memWrite_al (l : Lane) (a : Nat) (v : W128) : (l.memWrite a v).al = l.al :=
  by cases l; rfl
@[simp] theorem Lane.memWrite_ah (l : Lane) (a : Nat) (v : W128) : (l.memWrite a v).ah = l.ah :=
  by cases l; rfl
@[simp] theorem Lane.memWrite_bl (l : Lane) (a : Nat) (v : W128) : (l.memWrite a v).bl = l.bl :=
  by cases l; rfl
@[simp] theorem Lane.memWrite_bh (l : Lane) (a : Nat) (v : W128) : (l.memWrite a v).bh = l.bh :=
  by cases l; rfl
@[simp] theorem Lane.memWrite_idx (l : Lane) (a : Nat) (v : W128) : (l.memWrite a v).idx = l.idx :=
  by cases l; rfl

@[simp] theorem Lane.setKey_st (l : Lane) (r : Nat) (v : W128) : (l.setKey r v).st = l.st :=
  by cases l; rfl
@[simp] theorem Lane.setKey_sp (l : Lane) (r : Nat) (v : W128) : (l.setKey r v).sp = l.sp :=
  by cases l; rfl
@[simp] theorem Lane.setKey_k (l : Lane) (r : Nat) (v : W128) : (l.setKey r v).k = fileWrite l.k r v :=
  by cases l; rfl
@[simp] theorem Lane.setKey_x (l : Lane) (r : Nat) (v : W128) : (l.setKey r v).x = l.x :=
  by cases l; rfl
@[simp] theorem Lane.setKey_al (l : Lane) (r : Nat) (v : W128) : (l.setKey r v).al = l.al :=
  by cases l; rfl
@[simp] theorem Lane.setKey_ah (l : Lane) (r : Nat) (v : W128) : (l.setKey r v).ah = l.ah :=
  by cases l; rfl
@[simp] theorem Lane.setKey_bl (l : Lane) (r : Nat) (v : W128) : (l.setKey r v).bl = l.bl :=
  by cases l; rfl
@[simp] theorem Lane.setKey_bh (l : Lane) (r : Nat) (v : W128) : (l.setKey r v).bh = l.bh :=
  by cases l; rfl
@[simp] theorem Lane.setKey_idx (l : Lane) (r : Nat) (v : W128) : (l.setKey r v).idx = l.idx :=
  by cases l; rfl

@[simp] theorem Lane.setXreg_st (l : Lane) (j : Nat) (v : W128) : (l.setXreg j v).st = l.st :=
  by cases l; rfl
@[simp] theorem Lane.setXreg_sp (l : Lane) (j : Nat) (v : W128) : (l.setXreg j v).sp = l.sp :=
  by cases l; rfl
@[simp] theorem Lane.setXreg_k (l : Lane) (j : Nat) (v : W128) : (l.setXreg j v).k = l.k :=
  by cases l; rfl
@[simp] theorem Lane.setXreg_x (l : Lane) (j : Nat) (v : W128) : (l.setXreg j v).x = fileWrite l.x j v :=
  by cases l; rfl
@[simp] theorem Lane.setXreg_al (l : Lane) (j : Nat) (v : W128) : (l.setXreg j v).al = l.al :=
  by cases l; rfl
@[simp] theorem Lane.setXreg_ah (l : Lane) (j : Nat) (v : W128) : (l.setXreg j v).ah = l.ah :=
  by cases l; rfl
@[simp] theorem Lane.setXreg_bl (l : Lane) (j : Nat) (v : W128) : (l.setXreg j v).bl = l.bl :=
  by cases l; rfl
@[simp] theorem Lane.setXreg_bh (l : Lane) (j : Nat) (v : W128) : (l.setXreg j v).bh = l.bh :=
  by cases l; rfl
@[simp] theorem Lane.setXreg_idx (l : Lane) (j : Nat) (v : W128) : (l.setXreg j v).idx = l.idx :=
  by cases l; rfl

@[simp] theorem Lane.setSt128_st (l : Lane) (a : Nat) (v : W128) : (l.setSt128 a v).st = stWrite l.st a 16 v :=
  by cases l; rfl
@[simp] theorem Lane.setSt128_sp (l : Lane) (a : Nat) (v : W128) : (l.setSt128 a v).sp = l.sp :=
  by cases l; rfl
@[simp] theorem Lane.setSt128_k (l : Lane) (a : Nat) (v : W128) : (l.setSt128 a v).k = l.k :=
  by cases l; rfl
@[simp] theorem Lane.setSt128_x (l : Lane) (a : Nat) (v : W128) : (l.setSt128 a v).x = l.x :=
  by cases l; rfl
@[simp] theorem Lane.setSt128_al (l : Lane) (a : Nat) (v : W128) : (l.setSt128 a v).al = l.al :=
  by cases l; rfl
@[simp] theorem Lane.setSt128_ah (l : Lane) (a : Nat) (v : W128) : (l.setSt128 a v).ah = l.ah :=
  by cases l; rfl
@[simp] theorem Lane.setSt128_bl (l : Lane) (a : Nat) (v : W128) : (l.setSt128 a v).bl = l.bl :=
  by cases l; rfl
@[simp] theorem Lane.setSt128_bh (l : Lane) (a : Nat) (v : W128) : (l.setSt128 a v).bh = l.bh :=
  by cases l; rfl
@[simp] theorem Lane.setSt128_idx (l : Lane) (a : Nat) (v : W128) : (l.setSt128 a v).idx = l.idx :=
  by cases l; rfl

@[simp] theorem Lane.kexp_st (l : Lane) (C : Config.Ciphers) (b : Config.Build) (off : Nat) : (l.kexp C b off).st = l.st :=
  by cases l; rfl
@[simp] theorem Lane.kexp_sp (l : Lane) (C : Config.Ciphers) (b : Config.Build) (off : Nat) : (l.kexp C b off).sp = l.sp :=
  by cases l; rfl
@[simp] theorem Lane.kexp_k (l : Lane) (C : Config.Ciphers) (b : Config.Build) (off : Nat) : (l.kexp C b off).k = kexpf C b (l.st128 off) (l.st128 (off + 16)) :=
  by cases l; rfl
@[simp] theorem Lane.kexp_x (l : Lane) (C : Config.Ciphers) (b : Config.Build) (off : Nat) : (l.kexp C b off).x = l.x :=
  by cases l; rfl
@[simp] theorem Lane.kexp_al (l : Lane) (C : Config.Ciphers) (b : Config.Build) (off : Nat) : (l.kexp C b off).al = l.al :=
  by cases l; rfl
@[simp] theorem Lane.kexp_ah (l : Lane) (C : Config.Ciphers) (b : Config.Build) (off : Nat) : (l.kexp C b off).ah = l.ah :=
  by cases l; rfl
@[simp] theorem Lane.kexp_bl (l : Lane) (C : Config.Ciphers) (b : Config.Build) (off : Nat) : (l.kexp C b off).bl = l.bl :=
  by cases l; rfl
@[simp] theorem Lane.kexp_bh (l : Lane) (C : Config.Ciphers) (b : Config.Build) (off : Nat) : (l.kexp C b off).bh = l.bh :=
  by cases l; rfl
@[simp] theorem Lane.kexp_idx (l : Lane) (C : Config.Ciphers) (b : Config.Build) (off : Nat) : (l.kexp C b off).idx = l.idx :=
  by cases l; rfl

@[simp] theorem Lane.mixi_st (l : Lane) (b : Config.Build) : (l.mixi b).st = l.st :=
  by cases l; rfl
@[simp] theorem Lane.mixi_sp (l : Lane) (b : Config.Build) : (l.mixi b).sp = l.sp :=
  by cases l; rfl
@[simp] theorem Lane.mixi_k (l : Lane) (b : Config.Build) : (l.mixi b).k = l.k :=
  by cases l; rfl
@[simp] theorem Lane.mixi_x (l : Lane) (b : Config.Build) : (l.mixi b).x = l.x :=
  by cases l; rfl
@[simp] theorem Lane.mixi_al (l : Lane) (b : Config.Build) : (l.mixi b).al = l.xorWords b.mixInit.al :=
  by cases l; rfl
@[simp] theorem Lane.mixi_ah (l : Lane) (b : Config.Build) : (l.mixi b).ah = l.xorWords b.mixInit.ah :=
  by cases l; rfl
@[simp] theorem Lane.mixi_bl (l : Lane) (b : Config.Build) : (l.mixi b).bl = l.xorWords b.mixInit.bl :=
  by cases l; rfl
@[simp] theorem Lane.mixi_bh (l : Lane) (b : Config.Build) : (l.mixi b).bh = l.xorWords b.mixInit.bh :=
  by cases l; rfl
@[simp] theorem Lane.mixi_idx (l : Lane) (b : Config.Build) : (l.mixi b).idx = l.xorWords b.mixInit.al :=
  by cases l; rfl

@[simp] theorem Lane.setMixReg_st (l : Lane) (r : MixReg) (v : W64) : (l.setMixReg r v).st = l.st :=
  by cases r <;> rfl
@[simp] theorem Lane.setMixReg_sp (l : Lane) (r : MixReg) (v : W64) : (l.setMixReg r v).sp = l.sp :=
  by cases r <;> rfl
@[simp] theorem Lane.setMixReg_k (l : Lane) (r : MixReg) (v : W64) : (l.setMixReg r v).k = l.k :=
  by cases r <;> rfl
@[simp] theorem Lane.setMixReg_x (l : Lane) (r : MixReg) (v : W64) : (l.setMixReg r v).x = l.x :=
  by cases r <;> rfl

end Sys2Proof.Machine
end

