-- ==== Sys2Proof/Laws/Memory.lean ====
section
/-! SUPPORT. The laws of a scratchpad (20_memory.md R62, R63, R69): a read after a write, the
canonical form, the storage bound, and the 16-byte cell views built on them. -/

namespace Sys2Proof.Machine

@[simp] theorem Memory.read_nil (a : Nat) : Memory.read [] a = Memory.unlisted := rfl

theorem Memory.read_cons (c : Host.Cell) (m : Memory) (a : Nat) :
    Memory.read (c :: m) a = if c.1 = a then c.2 else Memory.read m a := rfl

/-- An address no cell lists reads as the unlisted byte. -/
theorem Memory.read_of_not_mem {m : Memory} {a : Nat} (h : ∀ c ∈ m, c.1 ≠ a) :
    Memory.read m a = Memory.unlisted := by
  induction m with
  | nil => rfl
  | cons c m ih =>
    rw [Memory.read_cons, if_neg (h c (by simp))]
    exact ih fun d hd => h d (by simp [hd])

theorem Memory.read_append_left {m n : Memory} {a : Nat} (h : ∀ c ∈ n, c.1 ≠ a) :
    Memory.read (m ++ n) a = Memory.read m a := by
  induction m with
  | nil => exact Memory.read_of_not_mem h
  | cons c m ih => rw [List.cons_append, Memory.read_cons, Memory.read_cons, ih]

theorem Memory.read_append_right {m n : Memory} {a : Nat} (h : ∀ c ∈ m, c.1 ≠ a) :
    Memory.read (m ++ n) a = Memory.read n a := by
  induction m with
  | nil => rfl
  | cons c m ih =>
    rw [List.cons_append, Memory.read_cons, if_neg (h c (by simp))]
    exact ih fun d hd => h d (by simp [hd])

/-- Keeping the cells of some addresses keeps the bytes at those addresses. -/
theorem Memory.read_filter (m : Memory) (p : Nat → Bool) {a : Nat} (h : p a = true) :
    Memory.read (m.filter fun c => p c.1) a = Memory.read m a := by
  induction m with
  | nil => rfl
  | cons c m ih =>
    rw [List.filter_cons, Memory.read_cons]
    by_cases hc : c.1 = a
    · rw [if_pos (by rw [hc]; exact h), Memory.read_cons, if_pos hc, if_pos hc]
    · rw [if_neg hc]
      split
      · rw [Memory.read_cons, if_neg hc, ih]
      · exact ih

/-- The addresses of a placed byte string. -/
theorem Memory.cellsAt_bounds (a : Nat) (bs : List Byte) {c : Host.Cell}
    (h : c ∈ Memory.cellsAt a bs) : a ≤ c.1 ∧ c.1 < a + bs.length := by
  induction bs generalizing a with
  | nil => simp [Memory.cellsAt] at h
  | cons b bs ih =>
    rw [Memory.cellsAt] at h
    rw [List.length_cons]
    split at h
    · have := ih (a + 1) h; omega
    · rcases List.mem_cons.1 h with rfl | h
      · exact ⟨Nat.le_refl _, by simp⟩
      · have := ih (a + 1) h; omega

theorem Memory.read_cellsAt (a : Nat) (bs : List Byte) {x : Nat} (h1 : a ≤ x)
    (h2 : x < a + bs.length) :
    Memory.read (Memory.cellsAt a bs) x = bs[x - a]'(by omega) := by
  induction bs generalizing a with
  | nil => simp at h2; omega
  | cons b bs ih =>
    rw [List.length_cons] at h2
    rw [Memory.cellsAt]
    by_cases hx : x = a
    · subst hx
      simp only [Nat.sub_self, List.getElem_cons_zero]
      split
      · rename_i hb
        rw [hb]
        exact Memory.read_of_not_mem fun c hc => by
          have := Memory.cellsAt_bounds _ _ hc; omega
      · rw [Memory.read_cons, if_pos rfl]
    · have e : x - a = (x - (a + 1)) + 1 := by omega
      have hr := ih (a + 1) (by omega) (by omega)
      simp only [e, List.getElem_cons_succ]
      split
      · exact hr
      · rw [Memory.read_cons, if_neg (Ne.symm hx)]; exact hr

/-- A byte after a write: the byte written inside the range, the old byte outside it. -/
theorem Memory.read_write (m : Memory) (a : Nat) (bs : List Byte) (x : Nat) :
    (m.write a bs).read x =
      if h : a ≤ x ∧ x < a + bs.length then bs[x - a]'(by omega) else m.read x := by
  unfold Memory.write
  by_cases hlo : x < a
  · rw [dif_neg (by omega), Memory.read_append_left, Memory.read_append_left]
    · exact Memory.read_filter m (fun k => decide (k < a)) (by simpa using hlo)
    · intro c hc; have := Memory.cellsAt_bounds _ _ hc; omega
    · intro c hc; have := List.mem_filter.1 hc; simp at this; omega
  · by_cases hhi : x < a + bs.length
    · rw [dif_pos ⟨by omega, hhi⟩, Memory.read_append_left, Memory.read_append_right]
      · exact Memory.read_cellsAt a bs (by omega) hhi
      · intro c hc; have := List.mem_filter.1 hc; simp at this; omega
      · intro c hc; have := List.mem_filter.1 hc; simp at this; omega
    · rw [dif_neg (by omega), Memory.read_append_right]
      · exact Memory.read_filter m (fun k => decide (a + bs.length ≤ k))
          (by simpa using (by omega : a + bs.length ≤ x))
      · intro c hc
        rcases List.mem_append.1 hc with hc | hc
        · have := List.mem_filter.1 hc; simp at this; omega
        · have := Memory.cellsAt_bounds _ _ hc; omega

theorem Memory.read_write_outside (m : Memory) (a : Nat) (bs : List Byte) {x : Nat}
    (h : ¬ (a ≤ x ∧ x < a + bs.length)) : (m.write a bs).read x = m.read x := by
  rw [Memory.read_write, dif_neg h]

/-- The canonical form as two facts: addresses rise, and no cell holds the unlisted byte. -/
theorem Memory.wf_iff (m : Memory) :
    m.wf = true ↔ m.Pairwise (fun c d => c.1 < d.1) ∧ ∀ c ∈ m, c.2 ≠ Memory.unlisted := by
  induction m with
  | nil => simp [Memory.wf]
  | cons c m ih =>
    cases m with
    | nil => simp [Memory.wf]
    | cons d m =>
      rw [Memory.wf, Bool.and_eq_true, Bool.and_eq_true, ih]
      simp only [bne_iff_ne, decide_eq_true_eq]
      constructor
      · rintro ⟨⟨h1, h2⟩, h3, h4⟩
        refine ⟨List.pairwise_cons.2 ⟨fun e he => ?_, h3⟩, fun e he => ?_⟩
        · rcases List.mem_cons.1 he with rfl | he'
          · exact h2
          · exact Nat.lt_trans h2 ((List.pairwise_cons.1 h3).1 e he')
        · rcases List.mem_cons.1 he with rfl | he'
          · exact h1
          · exact h4 e he'
      · rintro ⟨hp, hv⟩
        obtain ⟨h1, h2⟩ := List.pairwise_cons.1 hp
        exact ⟨⟨hv c (by simp), h1 d (by simp)⟩, h2, fun e he => hv e (by simp [he])⟩

theorem Memory.cellsAt_sorted (a : Nat) (bs : List Byte) :
    (Memory.cellsAt a bs).Pairwise (fun c d => c.1 < d.1) ∧
      ∀ c ∈ Memory.cellsAt a bs, c.2 ≠ Memory.unlisted := by
  induction bs generalizing a with
  | nil => simp [Memory.cellsAt]
  | cons b bs ih =>
    rw [Memory.cellsAt]
    split
    · exact ih (a + 1)
    · rename_i hb
      refine ⟨List.pairwise_cons.2 ⟨fun c hc => ?_, (ih (a + 1)).1⟩, fun c hc => ?_⟩
      · have := Memory.cellsAt_bounds _ _ hc
        show a < c.1
        omega
      · rcases List.mem_cons.1 hc with rfl | hc
        · exact hb
        · exact (ih (a + 1)).2 c hc

/-- A write keeps the canonical form. -/
theorem Memory.wf_write {m : Memory} (h : m.wf = true) (a : Nat) (bs : List Byte) :
    (m.write a bs).wf = true := by
  rw [Memory.wf_iff] at h ⊢
  obtain ⟨hs, hv⟩ := h
  obtain ⟨cs, cv⟩ := Memory.cellsAt_sorted a bs
  unfold Memory.write
  constructor
  · rw [List.pairwise_append, List.pairwise_append]
    refine ⟨⟨hs.filter _, cs, fun c hc d hd => ?_⟩, hs.filter _, fun c hc d hd => ?_⟩
    · have h1 := List.mem_filter.1 hc
      have h2 := Memory.cellsAt_bounds _ _ hd
      simp at h1; omega
    · have h2 := List.mem_filter.1 hd
      simp at h2
      rcases List.mem_append.1 hc with hc | hc
      · have h1 := List.mem_filter.1 hc
        simp at h1; omega
      · have h1 := Memory.cellsAt_bounds _ _ hc
        omega
  · intro c hc
    rcases List.mem_append.1 hc with hc | hc
    · rcases List.mem_append.1 hc with hc | hc
      · exact hv c (List.mem_filter.1 hc).1
      · exact cv c hc
    · exact hv c (List.mem_filter.1 hc).1

/-- A write inside the storage keeps every cell inside it. -/
theorem Memory.within_write {m : Memory} {p : Nat} (h : m.within p = true) (a : Nat)
    (bs : List Byte) (hb : a + bs.length ≤ 2 ^ p) : (m.write a bs).within p = true := by
  simp only [Memory.within, List.all_eq_true, decide_eq_true_eq] at h ⊢
  intro c hc
  unfold Memory.write at hc
  rcases List.mem_append.1 hc with hc | hc
  · rcases List.mem_append.1 hc with hc | hc
    · exact h c (List.mem_filter.1 hc).1
    · have := Memory.cellsAt_bounds _ _ hc; omega
  · exact h c (List.mem_filter.1 hc).1

/-- The memories of the state after reset are in canonical form. -/
theorem State.reset_wf : State.reset.lane0.sp.wf = true ∧ State.reset.lane1.sp.wf = true := ⟨rfl, rfl⟩

/-- Writing the byte an unlisted address reads as lists nothing. -/
theorem Memory.cellsAt_unlisted (a : Nat) : Memory.cellsAt a [Memory.unlisted] = [] := by
  simp [Memory.cellsAt]

/-- A sound lane stays sound under a 16-byte write inside its storage. -/
theorem Lane.sound_memWrite {p : Nat} {l : Lane} (h : l.sound p = true) (a : Nat) (v : W128)
    (ha : a + 16 ≤ 2 ^ p) : (l.memWrite a v).sound p = true := by
  rw [Lane.sound, Bool.and_eq_true] at h ⊢
  exact ⟨Memory.wf_write h.1 _ _, Memory.within_write h.2 _ _ (by simpa using ha)⟩

/-- Soundness looks at the scratchpad only. -/
theorem Lane.sound_of_sp {p : Nat} {l l' : Lane} (e : l'.sp = l.sp) (h : l.sound p = true) :
    l'.sound p = true := by
  rw [Lane.sound, e]; exact h

/-- Byte `x` of the scratchpad after a 16-byte write (20_memory.md R63). -/
theorem Lane.read_memWrite (l : Lane) (a : Nat) (v : W128) (x : Nat) :
    (l.memWrite a v).sp.read x = if a ≤ x ∧ x < a + 16 then byteOf v (x - a) else l.sp.read x := by
  rw [Lane.memWrite_sp, Memory.read_write]
  simp only [leBytes_length]
  split
  · exact leBytes_getElem _ _ _ _
  · rfl

/-- Byte `i` of a cell that is read (20_memory.md R61). -/
theorem Lane.byteOf_memRead (l : Lane) (a i : Nat) (h : i < 16) :
    byteOf (l.memRead a) i = l.sp.read (a + i) :=
  byteOf_leRead l.sp.read a 16 i h (by decide)

theorem Lane.memRead_congr {l l' : Lane} {a : Nat}
    (h : ∀ i, i < 16 → l.sp.read (a + i) = l'.sp.read (a + i)) : l.memRead a = l'.memRead a := by
  unfold Lane.memRead
  rw [leRead_congr h]

/-- A read after a write to the same cell gives the value written (20_memory.md R69). -/
theorem Lane.memRead_memWrite_same (l : Lane) (a : Nat) (v : W128) :
    (l.memWrite a v).memRead a = v := by
  refine ofNat_leRead_eq (by rfl) _ _ v fun i hi => ?_
  rw [Lane.read_memWrite, if_pos (by omega)]
  congr 1
  omega

/-- A write to a cell leaves every disjoint cell alone (20_memory.md R63). -/
theorem Lane.memRead_memWrite_disjoint (l : Lane) {a a' : Nat} (v : W128)
    (h : a + 16 ≤ a' ∨ a' + 16 ≤ a) : (l.memWrite a v).memRead a' = l.memRead a' :=
  Lane.memRead_congr fun i hi => by rw [Lane.read_memWrite, if_neg (by omega)]

end Sys2Proof.Machine
end

