-- ==== Sys2Proof/Laws/Lane.lean ====
section
/-! SUPPORT. What the lane operations leave unchanged, field by field, and what each loop of
42_explode.md, 43_mixer.md and 44_implode.md does to the registers and the scratchpad. -/

namespace Sys2Proof.Machine

@[simp] theorem Lane.loadGroup_st (l : Lane) (off : Nat) : (l.loadGroup off).st = l.st :=
  forRange_view (fun l : Lane => l.st) (fun _ _ => by simp) _ _ l

@[simp] theorem Lane.loadGroup_sp (l : Lane) (off : Nat) : (l.loadGroup off).sp = l.sp :=
  forRange_view (fun l : Lane => l.sp) (fun _ _ => by simp) _ _ l

@[simp] theorem Lane.loadGroup_k (l : Lane) (off : Nat) : (l.loadGroup off).k = l.k :=
  forRange_view (fun l : Lane => l.k) (fun _ _ => by simp) _ _ l

@[simp] theorem Lane.loadGroup_al (l : Lane) (off : Nat) : (l.loadGroup off).al = l.al :=
  forRange_view (fun l : Lane => l.al) (fun _ _ => by simp) _ _ l

@[simp] theorem Lane.loadGroup_ah (l : Lane) (off : Nat) : (l.loadGroup off).ah = l.ah :=
  forRange_view (fun l : Lane => l.ah) (fun _ _ => by simp) _ _ l

@[simp] theorem Lane.loadGroup_bl (l : Lane) (off : Nat) : (l.loadGroup off).bl = l.bl :=
  forRange_view (fun l : Lane => l.bl) (fun _ _ => by simp) _ _ l

@[simp] theorem Lane.loadGroup_bh (l : Lane) (off : Nat) : (l.loadGroup off).bh = l.bh :=
  forRange_view (fun l : Lane => l.bh) (fun _ _ => by simp) _ _ l

@[simp] theorem Lane.loadGroup_idx (l : Lane) (off : Nat) : (l.loadGroup off).idx = l.idx :=
  forRange_view (fun l : Lane => l.idx) (fun _ _ => by simp) _ _ l

@[simp] theorem Lane.roundGroup_st (l : Lane) (C : Config.Ciphers) (r : Nat) : (l.roundGroup C r).st = l.st :=
  forRange_view (fun l : Lane => l.st) (fun _ _ => by simp) _ _ l

@[simp] theorem Lane.roundGroup_sp (l : Lane) (C : Config.Ciphers) (r : Nat) : (l.roundGroup C r).sp = l.sp :=
  forRange_view (fun l : Lane => l.sp) (fun _ _ => by simp) _ _ l

@[simp] theorem Lane.roundGroup_k (l : Lane) (C : Config.Ciphers) (r : Nat) : (l.roundGroup C r).k = l.k :=
  forRange_view (fun l : Lane => l.k) (fun _ _ => by simp) _ _ l

@[simp] theorem Lane.roundGroup_al (l : Lane) (C : Config.Ciphers) (r : Nat) : (l.roundGroup C r).al = l.al :=
  forRange_view (fun l : Lane => l.al) (fun _ _ => by simp) _ _ l

@[simp] theorem Lane.roundGroup_ah (l : Lane) (C : Config.Ciphers) (r : Nat) : (l.roundGroup C r).ah = l.ah :=
  forRange_view (fun l : Lane => l.ah) (fun _ _ => by simp) _ _ l

@[simp] theorem Lane.roundGroup_bl (l : Lane) (C : Config.Ciphers) (r : Nat) : (l.roundGroup C r).bl = l.bl :=
  forRange_view (fun l : Lane => l.bl) (fun _ _ => by simp) _ _ l

@[simp] theorem Lane.roundGroup_bh (l : Lane) (C : Config.Ciphers) (r : Nat) : (l.roundGroup C r).bh = l.bh :=
  forRange_view (fun l : Lane => l.bh) (fun _ _ => by simp) _ _ l

@[simp] theorem Lane.roundGroup_idx (l : Lane) (C : Config.Ciphers) (r : Nat) : (l.roundGroup C r).idx = l.idx :=
  forRange_view (fun l : Lane => l.idx) (fun _ _ => by simp) _ _ l

@[simp] theorem Lane.tenRounds_st (l : Lane) (C : Config.Ciphers) : (l.tenRounds C).st = l.st :=
  forRange_view (fun l : Lane => l.st) (fun _ _ => by simp) _ _ l

@[simp] theorem Lane.tenRounds_sp (l : Lane) (C : Config.Ciphers) : (l.tenRounds C).sp = l.sp :=
  forRange_view (fun l : Lane => l.sp) (fun _ _ => by simp) _ _ l

@[simp] theorem Lane.tenRounds_k (l : Lane) (C : Config.Ciphers) : (l.tenRounds C).k = l.k :=
  forRange_view (fun l : Lane => l.k) (fun _ _ => by simp) _ _ l

@[simp] theorem Lane.tenRounds_al (l : Lane) (C : Config.Ciphers) : (l.tenRounds C).al = l.al :=
  forRange_view (fun l : Lane => l.al) (fun _ _ => by simp) _ _ l

@[simp] theorem Lane.tenRounds_ah (l : Lane) (C : Config.Ciphers) : (l.tenRounds C).ah = l.ah :=
  forRange_view (fun l : Lane => l.ah) (fun _ _ => by simp) _ _ l

@[simp] theorem Lane.tenRounds_bl (l : Lane) (C : Config.Ciphers) : (l.tenRounds C).bl = l.bl :=
  forRange_view (fun l : Lane => l.bl) (fun _ _ => by simp) _ _ l

@[simp] theorem Lane.tenRounds_bh (l : Lane) (C : Config.Ciphers) : (l.tenRounds C).bh = l.bh :=
  forRange_view (fun l : Lane => l.bh) (fun _ _ => by simp) _ _ l

@[simp] theorem Lane.tenRounds_idx (l : Lane) (C : Config.Ciphers) : (l.tenRounds C).idx = l.idx :=
  forRange_view (fun l : Lane => l.idx) (fun _ _ => by simp) _ _ l

@[simp] theorem Lane.storeGroup_st (l : Lane) (c : Nat) : (l.storeGroup c).st = l.st :=
  forRange_view (fun l : Lane => l.st) (fun _ _ => by simp) _ _ l

@[simp] theorem Lane.storeGroup_k (l : Lane) (c : Nat) : (l.storeGroup c).k = l.k :=
  forRange_view (fun l : Lane => l.k) (fun _ _ => by simp) _ _ l

@[simp] theorem Lane.storeGroup_x (l : Lane) (c : Nat) : (l.storeGroup c).x = l.x :=
  forRange_view (fun l : Lane => l.x) (fun _ _ => by simp) _ _ l

@[simp] theorem Lane.storeGroup_al (l : Lane) (c : Nat) : (l.storeGroup c).al = l.al :=
  forRange_view (fun l : Lane => l.al) (fun _ _ => by simp) _ _ l

@[simp] theorem Lane.storeGroup_ah (l : Lane) (c : Nat) : (l.storeGroup c).ah = l.ah :=
  forRange_view (fun l : Lane => l.ah) (fun _ _ => by simp) _ _ l

@[simp] theorem Lane.storeGroup_bl (l : Lane) (c : Nat) : (l.storeGroup c).bl = l.bl :=
  forRange_view (fun l : Lane => l.bl) (fun _ _ => by simp) _ _ l

@[simp] theorem Lane.storeGroup_bh (l : Lane) (c : Nat) : (l.storeGroup c).bh = l.bh :=
  forRange_view (fun l : Lane => l.bh) (fun _ _ => by simp) _ _ l

@[simp] theorem Lane.storeGroup_idx (l : Lane) (c : Nat) : (l.storeGroup c).idx = l.idx :=
  forRange_view (fun l : Lane => l.idx) (fun _ _ => by simp) _ _ l

@[simp] theorem Lane.explodeChunk_st (l : Lane) (C : Config.Ciphers) (c : Nat) : (l.explodeChunk C c).st = l.st :=
  by simp [Lane.explodeChunk]

@[simp] theorem Lane.explodeChunk_k (l : Lane) (C : Config.Ciphers) (c : Nat) : (l.explodeChunk C c).k = l.k :=
  by simp [Lane.explodeChunk]

@[simp] theorem Lane.explodeChunk_al (l : Lane) (C : Config.Ciphers) (c : Nat) : (l.explodeChunk C c).al = l.al :=
  by simp [Lane.explodeChunk]

@[simp] theorem Lane.explodeChunk_ah (l : Lane) (C : Config.Ciphers) (c : Nat) : (l.explodeChunk C c).ah = l.ah :=
  by simp [Lane.explodeChunk]

@[simp] theorem Lane.explodeChunk_bl (l : Lane) (C : Config.Ciphers) (c : Nat) : (l.explodeChunk C c).bl = l.bl :=
  by simp [Lane.explodeChunk]

@[simp] theorem Lane.explodeChunk_bh (l : Lane) (C : Config.Ciphers) (c : Nat) : (l.explodeChunk C c).bh = l.bh :=
  by simp [Lane.explodeChunk]

@[simp] theorem Lane.explodeChunk_idx (l : Lane) (C : Config.Ciphers) (c : Nat) : (l.explodeChunk C c).idx = l.idx :=
  by simp [Lane.explodeChunk]

@[simp] theorem Lane.explode_st (l : Lane) (C : Config.Ciphers) (b : Config.Build) (m : BitVec 6) : (l.explode C b m).st = l.st :=
  (forRange_view (fun l : Lane => l.st) (fun _ _ => by simp) _ _ _).trans (by simp)

@[simp] theorem Lane.explode_al (l : Lane) (C : Config.Ciphers) (b : Config.Build) (m : BitVec 6) : (l.explode C b m).al = l.al :=
  (forRange_view (fun l : Lane => l.al) (fun _ _ => by simp) _ _ _).trans (by simp)

@[simp] theorem Lane.explode_ah (l : Lane) (C : Config.Ciphers) (b : Config.Build) (m : BitVec 6) : (l.explode C b m).ah = l.ah :=
  (forRange_view (fun l : Lane => l.ah) (fun _ _ => by simp) _ _ _).trans (by simp)

@[simp] theorem Lane.explode_bl (l : Lane) (C : Config.Ciphers) (b : Config.Build) (m : BitVec 6) : (l.explode C b m).bl = l.bl :=
  (forRange_view (fun l : Lane => l.bl) (fun _ _ => by simp) _ _ _).trans (by simp)

@[simp] theorem Lane.explode_bh (l : Lane) (C : Config.Ciphers) (b : Config.Build) (m : BitVec 6) : (l.explode C b m).bh = l.bh :=
  (forRange_view (fun l : Lane => l.bh) (fun _ _ => by simp) _ _ _).trans (by simp)

@[simp] theorem Lane.explode_idx (l : Lane) (C : Config.Ciphers) (b : Config.Build) (m : BitVec 6) : (l.explode C b m).idx = l.idx :=
  (forRange_view (fun l : Lane => l.idx) (fun _ _ => by simp) _ _ _).trans (by simp)

@[simp] theorem Lane.absorbGroup_st (l : Lane) (c : Nat) : (l.absorbGroup c).st = l.st :=
  forRange_view (fun l : Lane => l.st) (fun _ _ => by simp) _ _ l

@[simp] theorem Lane.absorbGroup_sp (l : Lane) (c : Nat) : (l.absorbGroup c).sp = l.sp :=
  forRange_view (fun l : Lane => l.sp) (fun _ _ => by simp) _ _ l

@[simp] theorem Lane.absorbGroup_k (l : Lane) (c : Nat) : (l.absorbGroup c).k = l.k :=
  forRange_view (fun l : Lane => l.k) (fun _ _ => by simp) _ _ l

@[simp] theorem Lane.absorbGroup_al (l : Lane) (c : Nat) : (l.absorbGroup c).al = l.al :=
  forRange_view (fun l : Lane => l.al) (fun _ _ => by simp) _ _ l

@[simp] theorem Lane.absorbGroup_ah (l : Lane) (c : Nat) : (l.absorbGroup c).ah = l.ah :=
  forRange_view (fun l : Lane => l.ah) (fun _ _ => by simp) _ _ l

@[simp] theorem Lane.absorbGroup_bl (l : Lane) (c : Nat) : (l.absorbGroup c).bl = l.bl :=
  forRange_view (fun l : Lane => l.bl) (fun _ _ => by simp) _ _ l

@[simp] theorem Lane.absorbGroup_bh (l : Lane) (c : Nat) : (l.absorbGroup c).bh = l.bh :=
  forRange_view (fun l : Lane => l.bh) (fun _ _ => by simp) _ _ l

@[simp] theorem Lane.absorbGroup_idx (l : Lane) (c : Nat) : (l.absorbGroup c).idx = l.idx :=
  forRange_view (fun l : Lane => l.idx) (fun _ _ => by simp) _ _ l

@[simp] theorem Lane.implodeChunk_st (l : Lane) (C : Config.Ciphers) (c : Nat) : (l.implodeChunk C c).st = l.st :=
  by simp [Lane.implodeChunk]

@[simp] theorem Lane.implodeChunk_sp (l : Lane) (C : Config.Ciphers) (c : Nat) : (l.implodeChunk C c).sp = l.sp :=
  by simp [Lane.implodeChunk]

@[simp] theorem Lane.implodeChunk_k (l : Lane) (C : Config.Ciphers) (c : Nat) : (l.implodeChunk C c).k = l.k :=
  by simp [Lane.implodeChunk]

@[simp] theorem Lane.implodeChunk_al (l : Lane) (C : Config.Ciphers) (c : Nat) : (l.implodeChunk C c).al = l.al :=
  by simp [Lane.implodeChunk]

@[simp] theorem Lane.implodeChunk_ah (l : Lane) (C : Config.Ciphers) (c : Nat) : (l.implodeChunk C c).ah = l.ah :=
  by simp [Lane.implodeChunk]

@[simp] theorem Lane.implodeChunk_bl (l : Lane) (C : Config.Ciphers) (c : Nat) : (l.implodeChunk C c).bl = l.bl :=
  by simp [Lane.implodeChunk]

@[simp] theorem Lane.implodeChunk_bh (l : Lane) (C : Config.Ciphers) (c : Nat) : (l.implodeChunk C c).bh = l.bh :=
  by simp [Lane.implodeChunk]

@[simp] theorem Lane.implodeChunk_idx (l : Lane) (C : Config.Ciphers) (c : Nat) : (l.implodeChunk C c).idx = l.idx :=
  by simp [Lane.implodeChunk]

@[simp] theorem Lane.writeGroup_sp (l : Lane) : (l.writeGroup).sp = l.sp :=
  forRange_view (fun l : Lane => l.sp) (fun _ _ => by simp) _ _ l

@[simp] theorem Lane.writeGroup_k (l : Lane) : (l.writeGroup).k = l.k :=
  forRange_view (fun l : Lane => l.k) (fun _ _ => by simp) _ _ l

@[simp] theorem Lane.writeGroup_x (l : Lane) : (l.writeGroup).x = l.x :=
  forRange_view (fun l : Lane => l.x) (fun _ _ => by simp) _ _ l

@[simp] theorem Lane.writeGroup_al (l : Lane) : (l.writeGroup).al = l.al :=
  forRange_view (fun l : Lane => l.al) (fun _ _ => by simp) _ _ l

@[simp] theorem Lane.writeGroup_ah (l : Lane) : (l.writeGroup).ah = l.ah :=
  forRange_view (fun l : Lane => l.ah) (fun _ _ => by simp) _ _ l

@[simp] theorem Lane.writeGroup_bl (l : Lane) : (l.writeGroup).bl = l.bl :=
  forRange_view (fun l : Lane => l.bl) (fun _ _ => by simp) _ _ l

@[simp] theorem Lane.writeGroup_bh (l : Lane) : (l.writeGroup).bh = l.bh :=
  forRange_view (fun l : Lane => l.bh) (fun _ _ => by simp) _ _ l

@[simp] theorem Lane.writeGroup_idx (l : Lane) : (l.writeGroup).idx = l.idx :=
  forRange_view (fun l : Lane => l.idx) (fun _ _ => by simp) _ _ l

@[simp] theorem Lane.implode_sp (l : Lane) (C : Config.Ciphers) (b : Config.Build) (m : BitVec 6) : (l.implode C b m).sp = l.sp :=
  by
    unfold Lane.implode
    rw [Lane.writeGroup_sp]
    exact (forRange_view (fun l : Lane => l.sp) (fun _ _ => by simp) _ _ _).trans (by simp)

@[simp] theorem Lane.implode_al (l : Lane) (C : Config.Ciphers) (b : Config.Build) (m : BitVec 6) : (l.implode C b m).al = l.al :=
  by
    unfold Lane.implode
    rw [Lane.writeGroup_al]
    exact (forRange_view (fun l : Lane => l.al) (fun _ _ => by simp) _ _ _).trans (by simp)

@[simp] theorem Lane.implode_ah (l : Lane) (C : Config.Ciphers) (b : Config.Build) (m : BitVec 6) : (l.implode C b m).ah = l.ah :=
  by
    unfold Lane.implode
    rw [Lane.writeGroup_ah]
    exact (forRange_view (fun l : Lane => l.ah) (fun _ _ => by simp) _ _ _).trans (by simp)

@[simp] theorem Lane.implode_bl (l : Lane) (C : Config.Ciphers) (b : Config.Build) (m : BitVec 6) : (l.implode C b m).bl = l.bl :=
  by
    unfold Lane.implode
    rw [Lane.writeGroup_bl]
    exact (forRange_view (fun l : Lane => l.bl) (fun _ _ => by simp) _ _ _).trans (by simp)

@[simp] theorem Lane.implode_bh (l : Lane) (C : Config.Ciphers) (b : Config.Build) (m : BitVec 6) : (l.implode C b m).bh = l.bh :=
  by
    unfold Lane.implode
    rw [Lane.writeGroup_bh]
    exact (forRange_view (fun l : Lane => l.bh) (fun _ _ => by simp) _ _ _).trans (by simp)

@[simp] theorem Lane.implode_idx (l : Lane) (C : Config.Ciphers) (b : Config.Build) (m : BitVec 6) : (l.implode C b m).idx = l.idx :=
  by
    unfold Lane.implode
    rw [Lane.writeGroup_idx]
    exact (forRange_view (fun l : Lane => l.idx) (fun _ _ => by simp) _ _ _).trans (by simp)

@[simp] theorem Lane.mixFirst_st (l : Lane) (C : Config.Ciphers) (b : Config.Build) (m : BitVec 6) : (l.mixFirst C b m).st = l.st :=
  by cases l; rfl

@[simp] theorem Lane.mixFirst_k (l : Lane) (C : Config.Ciphers) (b : Config.Build) (m : BitVec 6) : (l.mixFirst C b m).k = l.k :=
  by cases l; rfl

@[simp] theorem Lane.mixFirst_x (l : Lane) (C : Config.Ciphers) (b : Config.Build) (m : BitVec 6) : (l.mixFirst C b m).x = l.x :=
  by cases l; rfl

@[simp] theorem Lane.mixFirst_al (l : Lane) (C : Config.Ciphers) (b : Config.Build) (m : BitVec 6) : (l.mixFirst C b m).al = l.al :=
  by cases l; rfl

@[simp] theorem Lane.mixFirst_ah (l : Lane) (C : Config.Ciphers) (b : Config.Build) (m : BitVec 6) : (l.mixFirst C b m).ah = l.ah :=
  by cases l; rfl

@[simp] theorem Lane.mixSecond_st (l : Lane) (b : Config.Build) (m : BitVec 6) : (l.mixSecond b m).st = l.st :=
  by cases l; rfl

@[simp] theorem Lane.mixSecond_k (l : Lane) (b : Config.Build) (m : BitVec 6) : (l.mixSecond b m).k = l.k :=
  by cases l; rfl

@[simp] theorem Lane.mixSecond_x (l : Lane) (b : Config.Build) (m : BitVec 6) : (l.mixSecond b m).x = l.x :=
  by cases l; rfl

@[simp] theorem Lane.mixSecond_bl (l : Lane) (b : Config.Build) (m : BitVec 6) : (l.mixSecond b m).bl = l.bl :=
  by cases l; rfl

@[simp] theorem Lane.mixSecond_bh (l : Lane) (b : Config.Build) (m : BitVec 6) : (l.mixSecond b m).bh = l.bh :=
  by cases l; rfl

@[simp] theorem Lane.mixs_st (l : Lane) (C : Config.Ciphers) (b : Config.Build) (m : BitVec 6) : (l.mixs C b m).st = l.st :=
  by simp [Lane.mixs]

@[simp] theorem Lane.mixs_k (l : Lane) (C : Config.Ciphers) (b : Config.Build) (m : BitVec 6) : (l.mixs C b m).k = l.k :=
  by simp [Lane.mixs]

@[simp] theorem Lane.mixs_x (l : Lane) (C : Config.Ciphers) (b : Config.Build) (m : BitVec 6) : (l.mixs C b m).x = l.x :=
  by simp [Lane.mixs]

@[simp] theorem Lane.mix_st (l : Lane) (C : Config.Ciphers) (b : Config.Build) (m : BitVec 6) (n : Nat) : (l.mix C b m n).st = l.st :=
  (forRange_view (fun l : Lane => l.st) (fun _ _ => by simp) _ _ _).trans (by simp)

@[simp] theorem Lane.mix_k (l : Lane) (C : Config.Ciphers) (b : Config.Build) (m : BitVec 6) (n : Nat) : (l.mix C b m n).k = l.k :=
  (forRange_view (fun l : Lane => l.k) (fun _ _ => by simp) _ _ _).trans (by simp)

@[simp] theorem Lane.mix_x (l : Lane) (C : Config.Ciphers) (b : Config.Build) (m : BitVec 6) (n : Nat) : (l.mix C b m n).x = l.x :=
  (forRange_view (fun l : Lane => l.x) (fun _ _ => by simp) _ _ _).trans (by simp)

/-- Views of a lane through its fields. -/
theorem Lane.st128_congr {l l' : Lane} (h : l.st = l'.st) (a : Nat) : l.st128 a = l'.st128 a := by
  unfold Lane.st128 Lane.stByte
  rw [h]

theorem Lane.st64_congr {l l' : Lane} (h : l.st = l'.st) (i : Nat) : l.st64 i = l'.st64 i := by
  unfold Lane.st64 Lane.stByte
  rw [h]

theorem Lane.memRead_sp {l l' : Lane} (h : l.sp = l'.sp) (a : Nat) : l.memRead a = l'.memRead a := by
  unfold Lane.memRead
  rw [h]

theorem Lane.key_congr {l l' : Lane} (h : l.k = l'.k) (r : Nat) : l.key r = l'.key r := by
  unfold Lane.key
  rw [h]

theorem Lane.xreg_congr {l l' : Lane} (h : l.x = l'.x) (j : Nat) : l.xreg j = l'.xreg j := by
  unfold Lane.xreg
  rw [h]

/-- `X[i]` after a write to `X[j]` (10_state.md R23). -/
theorem Lane.xreg_setXreg (l : Lane) {j : Nat} (h : j < 8) (v : W128) (i : Nat) :
    (l.setXreg j v).xreg i = if i = j then v else l.xreg i := by
  unfold Lane.xreg
  rw [Lane.setXreg_x, fileRead_fileWrite _ h]

/-- `K[i]` after a write to `K[r]` (10_state.md R22). -/
theorem Lane.key_setKey (l : Lane) {r : Nat} (h : r < 10) (v : W128) (i : Nat) :
    (l.setKey r v).key i = if i = r then v else l.key i := by
  unfold Lane.key
  rw [Lane.setKey_k, fileRead_fileWrite _ h]

/-- The lane group after it is loaded: `X[j] = ST128(off + 16j)` (42_explode.md R151). -/
theorem Lane.xreg_loadGroup (l : Lane) (off : Nat) {j : Nat} (hj : j < 8) :
    (l.loadGroup off).xreg j = l.st128 (off + 16 * j) := by
  have := forRange_inv (f := fun j l => Lane.setXreg l j (l.st128 (off + 16 * j))) (i := 0) (n := 8)
    (a := l)
    (P := fun k l' => k ≤ 8 → l'.st = l.st ∧ ∀ j, j < k → l'.xreg j = l.st128 (off + 16 * j))
    (fun _ => ⟨rfl, fun j h => absurd h (Nat.not_lt_zero j)⟩)
    (fun k l' hk ih hk' => by
      obtain ⟨hst, hx⟩ := ih (by omega)
      refine ⟨by simpa using hst, fun j hj => ?_⟩
      rw [Nat.zero_add, Lane.xreg_setXreg _ (by omega), Lane.st128_congr hst]
      split
      · rename_i e; rw [e]
      · exact hx j (by omega))
  exact (this (Nat.le_refl 8)).2 j hj

/-- A loop that rewrites each `X[j]` by a function of it alone rewrites every one of them once: the
eight X lanes are independent (40_round_backend.md R131). -/
theorem Lane.xreg_mapGroup (g : Nat → Lane → W128 → W128) (l : Lane)
    (hg : ∀ j (l' : Lane) v, l'.k = l.k → l'.sp = l.sp → g j l' v = g j l v) {j : Nat} (hj : j < 8) :
    (forRange (fun j l => Lane.setXreg l j (g j l (l.xreg j))) 0 8 l).xreg j = g j l (l.xreg j) := by
  have := forRange_inv (f := fun j l => Lane.setXreg l j (g j l (l.xreg j))) (i := 0) (n := 8)
    (a := l)
    (P := fun k l' => k ≤ 8 → l'.k = l.k ∧ l'.sp = l.sp ∧
      ∀ j, l'.xreg j = if j < k then g j l (l.xreg j) else l.xreg j)
    (fun _ => ⟨rfl, rfl, fun j => by rw [if_neg (Nat.not_lt_zero j)]⟩)
    (fun k l' hk ih hk' => by
      obtain ⟨hkk, hsp, hx⟩ := ih (by omega)
      refine ⟨by simpa using hkk, by simpa using hsp, fun j => ?_⟩
      rw [Nat.zero_add, Lane.xreg_setXreg _ (by omega), hg k l' _ hkk hsp, hx k,
        if_neg (Nat.lt_irrefl k)]
      split
      · rename_i e; rw [e, if_pos (Nat.lt_succ_self k)]
      · rename_i e
        rw [hx j]
        by_cases h : j < k
        · rw [if_pos h, if_pos (by omega)]
        · rw [if_neg h, if_neg (by omega)])
  rw [(this (Nat.le_refl 8)).2.2 j, if_pos hj]

/-- One round on the whole lane group (42_explode.md R151). -/
theorem Lane.xreg_roundGroup (C : Config.Ciphers) (r : Nat) (l : Lane) {j : Nat} (hj : j < 8) :
    (l.roundGroup C r).xreg j = C.round (l.xreg j) (l.key r) :=
  Lane.xreg_mapGroup (fun _ l v => C.round v (l.key r)) l
    (fun _ l' v hk _ => by rw [Lane.key_congr hk]) hj

/-- Ten rounds on the lane group are ten rounds on each of its registers (42_explode.md R152). -/
theorem Lane.xreg_tenRounds (C : Config.Ciphers) (l : Lane) {j : Nat} (hj : j < 8) :
    (l.tenRounds C).xreg j = tenRoundsOf C l.k (l.xreg j) := by
  have := forRange_rel (f := Lane.roundGroup C) (g := fun r v => C.round v (fileRead l.k r))
    (R := fun l' v => l'.k = l.k ∧ l'.xreg j = v) 0 10
    (fun r l' v _ _ h => ⟨by simpa using h.1, by
      rw [Lane.xreg_roundGroup C r l' hj, h.2, Lane.key_congr h.1]; rfl⟩)
    (a := l) (b := l.xreg j) ⟨rfl, rfl⟩
  exact this.2

/-- The lane group XORed with a chunk (44_implode.md R181). -/
theorem Lane.xreg_absorbGroup (c : Nat) (l : Lane) {j : Nat} (hj : j < 8) :
    (l.absorbGroup c).xreg j = l.xreg j ^^^ l.memRead (128 * c + 16 * j) :=
  Lane.xreg_mapGroup (fun j l v => v ^^^ l.memRead (128 * c + 16 * j)) l
    (fun j l' v _ hsp => by rw [Lane.memRead_sp hsp]) hj

/-- The scratchpad after the lane group is written to a chunk (42_explode.md R151). -/
theorem Lane.read_storeGroup (c : Nat) (l : Lane) (x : Nat) :
    (l.storeGroup c).sp.read x =
      if 128 * c ≤ x ∧ x < 128 * c + 128 then byteOf (l.xreg ((x - 128 * c) / 16)) (x % 16)
      else l.sp.read x := by
  have := forRange_inv (f := fun j l => Lane.memWrite l (128 * c + 16 * j) (l.xreg j)) (i := 0)
    (n := 8) (a := l)
    (P := fun k l' => k ≤ 8 → l'.x = l.x ∧ l'.sp.read x =
      if 128 * c ≤ x ∧ x < 128 * c + 16 * k then byteOf (l.xreg ((x - 128 * c) / 16)) (x % 16)
      else l.sp.read x)
    (fun _ => ⟨rfl, by rw [if_neg (by omega)]⟩)
    (fun k l' hk ih hk' => by
      obtain ⟨hx, hr⟩ := ih (by omega)
      refine ⟨by simpa using hx, ?_⟩
      rw [Nat.zero_add, Lane.read_memWrite, hr, Lane.xreg_congr hx]
      by_cases h : 128 * c + 16 * k ≤ x ∧ x < 128 * c + 16 * k + 16
      · rw [if_pos h, if_pos (by omega)]
        have e1 : (x - 128 * c) / 16 = k := by omega
        have e2 : x % 16 = x - (128 * c + 16 * k) := by omega
        rw [e1, e2]
      · rw [if_neg h]
        by_cases h' : 128 * c ≤ x ∧ x < 128 * c + 16 * k
        · rw [if_pos h', if_pos (by omega)]
        · rw [if_neg h', if_neg (by omega)])
  exact (this (Nat.le_refl 8)).2

/-- After `n` chunks of `EXPLODE`: the lane group is `n` times ten rounds of what it was, and chunk `c`
holds `c + 1` times ten rounds of it (42_explode.md R152). -/
theorem Lane.explodeLoop (C : Config.Ciphers) (l : Lane) (n : Nat) :
    (∀ j, j < 8 → (forRange (Lane.explodeChunk C) 0 n l).xreg j =
        iterated (tenRoundsOf C l.k) n (l.xreg j)) ∧
      ∀ x, (forRange (Lane.explodeChunk C) 0 n l).sp.read x =
        if x < 128 * n then
          byteOf (iterated (tenRoundsOf C l.k) (x / 128 + 1) (l.xreg (x % 128 / 16))) (x % 16)
        else l.sp.read x := by
  have := forRange_inv (f := Lane.explodeChunk C) (i := 0) (n := n) (a := l)
    (P := fun k l' => l'.k = l.k ∧
      (∀ j, j < 8 → l'.xreg j = iterated (tenRoundsOf C l.k) k (l.xreg j)) ∧
      ∀ x, l'.sp.read x = if x < 128 * k then
          byteOf (iterated (tenRoundsOf C l.k) (x / 128 + 1) (l.xreg (x % 128 / 16))) (x % 16)
        else l.sp.read x)
    ⟨rfl, fun j _ => rfl, fun x => by rw [if_neg (by omega)]⟩
    (fun k l' hk ih => by
      obtain ⟨hkk, hx, hr⟩ := ih
      have hx' : ∀ j, j < 8 → (l'.tenRounds C).xreg j =
          iterated (tenRoundsOf C l.k) (k + 1) (l.xreg j) := fun j hj => by
        rw [Lane.xreg_tenRounds C l' hj, hkk, hx j hj]; rfl
      refine ⟨by simpa using hkk, fun j hj => ?_, fun x => ?_⟩
      · unfold Lane.explodeChunk
        rw [Lane.xreg_congr (Lane.storeGroup_x _ _), hx' j hj]
      · unfold Lane.explodeChunk
        rw [Nat.zero_add, Lane.read_storeGroup, Lane.tenRounds_sp, hr x]
        by_cases h : 128 * k ≤ x ∧ x < 128 * k + 128
        · rw [if_pos h, if_pos (by omega), hx' _ (by omega)]
          have e1 : x / 128 = k := by omega
          have e2 : (x - 128 * k) / 16 = x % 128 / 16 := by omega
          rw [e1, e2]
        · rw [if_neg h]
          by_cases h' : x < 128 * k
          · rw [if_pos h', if_pos (by omega)]
          · rw [if_neg h', if_neg (by omega)])
  exact ⟨this.2.1, this.2.2⟩

/-- The lane group after `n` chunks of `IMPLODE` (44_implode.md R182). -/
theorem Lane.implodeLoop (C : Config.Ciphers) (l : Lane) (n : Nat) {j : Nat} (hj : j < 8) :
    (forRange (Lane.implodeChunk C) 0 n l).xreg j =
      foldCells C l.k (fun c => l.memRead (128 * c + 16 * j)) n (l.xreg j) := by
  have := forRange_rel (f := Lane.implodeChunk C)
    (g := fun c a => tenRoundsOf C l.k (a ^^^ l.memRead (128 * c + 16 * j)))
    (R := fun l' v => l'.k = l.k ∧ l'.sp = l.sp ∧ l'.xreg j = v) 0 n
    (fun c l' v _ _ h => ⟨by simpa using h.1, by simpa using h.2.1, by
      unfold Lane.implodeChunk
      rw [Lane.xreg_tenRounds C _ hj, Lane.absorbGroup_k, h.1, Lane.xreg_absorbGroup c l' hj,
        h.2.2, Lane.memRead_sp h.2.1]⟩)
    (a := l) (b := l.xreg j) ⟨rfl, rfl, rfl⟩
  exact this.2.2

/-- The compact state after the lane group is written back (44_implode.md R181). -/
theorem Lane.stByte_writeGroup (l : Lane) (x : Nat) :
    l.writeGroup.stByte x =
      if 64 ≤ x ∧ x < 192 then byteOf (l.xreg ((x - 64) / 16)) (x % 16) else l.stByte x := by
  have := forRange_inv (f := fun j l => Lane.setSt128 l (64 + 16 * j) (l.xreg j)) (i := 0) (n := 8)
    (a := l)
    (P := fun k l' => k ≤ 8 → l'.x = l.x ∧ l'.stByte x =
      if 64 ≤ x ∧ x < 64 + 16 * k then byteOf (l.xreg ((x - 64) / 16)) (x % 16) else l.stByte x)
    (fun _ => ⟨rfl, by rw [if_neg (by omega)]⟩)
    (fun k l' hk ih hk' => by
      obtain ⟨hx, hr⟩ := ih (by omega)
      refine ⟨by simpa using hx, ?_⟩
      unfold Lane.stByte at hr ⊢
      rw [Nat.zero_add, Lane.setSt128_st, fileRead_stWrite _ _ _ _ (by omega), hr,
        Lane.xreg_congr hx]
      by_cases h : 64 + 16 * k ≤ x ∧ x < 64 + 16 * k + 16
      · rw [if_pos h, if_pos (by omega)]
        have e1 : (x - 64) / 16 = k := by omega
        have e2 : x % 16 = x - (64 + 16 * k) := by omega
        rw [e1, e2]
      · rw [if_neg h]
        by_cases h' : 64 ≤ x ∧ x < 64 + 16 * k
        · rw [if_pos h', if_pos (by omega)]
        · rw [if_neg h', if_neg (by omega)])
  exact (this (Nat.le_refl 8)).2

/-- The nine steps of an iteration in terms of the lane before it (43_mixer.md R162). -/
theorem Lane.mixs_eq (C : Config.Ciphers) (b : Config.Build) (m : BitVec 6) (l : Lane) :
    l.mixs C b m =
      let ea1 := ea b m l.idx
      let cx := C.round (l.memRead ea1) (cat l.ah l.al)
      let l1 := l.memWrite ea1 (cx ^^^ cat l.bh l.bl)
      let ea2 := ea b m (lo64 cx)
      let d := l1.memRead ea2
      let p := wideMul (lo64 cx) (lo64 d)
      { l1.memWrite ea2 (cat (l.ah + lo64 p) (l.al + hi64 p)) with
        al := (l.al + hi64 p) ^^^ lo64 d
        ah := (l.ah + lo64 p) ^^^ hi64 d
        bl := lo64 cx
        bh := hi64 cx
        idx := (l.al + hi64 p) ^^^ lo64 d } := by
  have hd : ∀ a, (l.mixFirst C b m).memRead a =
      (l.memWrite (ea b m l.idx) (C.round (l.memRead (ea b m l.idx)) (cat l.ah l.al) ^^^
        cat l.bh l.bl)).memRead a := fun a => Lane.memRead_sp (by cases l; rfl) a
  unfold Lane.mixs Lane.mixSecond
  simp only [hd]
  cases l
  rfl

/-- One step of the expansion, key by key (41_key_schedule.md R141). -/
theorem fileRead_kexpStep (C : Config.Ciphers) (b : Config.Build) {i : Nat} (hi : i < 4)
    (k : Vector W128 10) (j : Nat) :
    fileRead (kexpStep C b i k) j =
      if j = 2 * i + 2 then
        (kstepf C b (fileRead b.rcon i) (fileRead k (2 * i)) (fileRead k (2 * i + 1))).1
      else if j = 2 * i + 3 then
        (kstepf C b (fileRead b.rcon i) (fileRead k (2 * i)) (fileRead k (2 * i + 1))).2
      else fileRead k j := by
  unfold kexpStep
  rw [fileRead_fileWrite _ (by omega), fileRead_fileWrite _ (by omega)]
  split
  · rw [if_neg (by omega)]
  · rfl

end Sys2Proof.Machine
end

