-- ==== Sys2Proof/Laws/Ops.lean ====
section
/-! SUPPORT. What the shared operations can do, once each: a command by run state, the meanings as
commands, the host accesses by run state, and the address of a data-dependent cell. -/

namespace Sys2Proof.Machine

theorem command_ready {legal : Bool} {body : State → State} {s : State} (h : s.run = .ready) :
    command legal body s =
      if legal then .next (body s.start).complete else .next (s.raiseFault .illegalCmd) := by
  unfold command
  rw [h]

theorem command_unconfigured {legal : Bool} {body : State → State} {s : State}
    (h : s.run = .unconfigured) : command legal body s = .next (s.raiseFault .notConfigured) := by
  unfold command
  rw [h]

theorem command_fault {legal : Bool} {body : State → State} {s : State} (h : s.run = .fault) :
    command legal body s = .next s := by
  unfold command
  rw [h]

theorem command_busy {legal : Bool} {body : State → State} {s : State} (h : s.run = .busy) :
    command legal body s = .refused .hostMoveWhileBusy := by
  unfold command
  rw [h]

/-- Everything a command can do when it answers a next state (60_exceptions.md R225). -/
theorem command_cases {legal : Bool} {body : State → State} {s t : State}
    (h : command legal body s = .next t) :
    (s.run = .unconfigured ∧ t = s.raiseFault .notConfigured) ∨
      (s.run = .ready ∧ legal = true ∧ t = (body s.start).complete) ∨
      (s.run = .ready ∧ legal = false ∧ t = s.raiseFault .illegalCmd) ∨
      (s.run = .fault ∧ t = s) := by
  cases hr : s.run with
  | unconfigured =>
    rw [command_unconfigured hr] at h
    injection h with h
    exact .inl ⟨rfl, h.symm⟩
  | ready =>
    rw [command_ready hr] at h
    cases legal with
    | true => injection h with h; exact .inr (.inl ⟨rfl, rfl, h.symm⟩)
    | false => injection h with h; exact .inr (.inr (.inl ⟨rfl, rfl, h.symm⟩))
  | fault =>
    rw [command_fault hr] at h
    injection h with h
    exact .inr (.inr (.inr ⟨rfl, h.symm⟩))
  | busy =>
    rw [command_busy hr] at h
    cases h

/-- Every meaning is the one shared operation on its own legality and effect. -/
theorem exec_eq_command (i : Instr) (s : State) :
    exec i s = command (i.wellFormed s.build.nlanes) (effect i) s := by
  cases i <;> simp only [exec, Instr.wellFormed, Instr.operandsLegal, Instr.lanesExist,
    Bool.true_and] <;> rfl

/-- A well-formed command in READY completes with its effect (60_exceptions.md R234). -/
theorem exec_ready {i : Instr} {s : State} (h : s.run = .ready)
    (hw : i.wellFormed s.build.nlanes = true) : exec i s = .next (effect i s.start).complete := by
  rw [exec_eq_command, command_ready h, if_pos hw]

/-- A command whose effect rewrites one lane: everything but that lane and `DONE` is as before. -/
theorem exec_onLane {i : Instr} {s : State} {ln : LaneId} {f : Lane → Lane} (h : s.run = .ready)
    (hw : i.wellFormed s.build.nlanes = true) (he : effect i s.start = s.start.onLane ln f) :
    exec i s = .next { s.setLane ln (f (s.lane ln)) with done := true } := by
  rw [exec_ready h hw, he, State.complete_onLane_start _ _ _ h]
  rfl

/-- What a command leaves alone: everything but the lanes (10_state.md R43). -/
structure SameControl (s t : State) : Prop where
  build : t.build = s.build
  hw : t.cfgBackendHw = s.cfgBackendHw
  memLog2 : t.cfgMemLog2 = s.cfgMemLog2
  iter : t.cfgIter = s.cfgIter
  lock : t.lock = s.lock
  run : t.run = s.run
  done : t.done = s.done
  faultCode : t.faultCode = s.faultCode
  inbox : t.inbox = s.inbox
  reply : t.reply = s.reply

theorem sameControl_onLane (s : State) (ln : LaneId) (f : Lane → Lane) :
    SameControl s (s.onLane ln f) := by
  constructor <;> simp

theorem SameControl.trans {s t u : State} (h : SameControl s t) (h' : SameControl t u) :
    SameControl s u :=
  ⟨h'.build.trans h.build, h'.hw.trans h.hw, h'.memLog2.trans h.memLog2, h'.iter.trans h.iter,
    h'.lock.trans h.lock, h'.run.trans h.run, h'.done.trans h.done,
    h'.faultCode.trans h.faultCode, h'.inbox.trans h.inbox, h'.reply.trans h.reply⟩

/-- The effect of a command touches the lanes only. -/
theorem sameControl_effect (i : Instr) (s : State) : SameControl s (effect i s) := by
  cases i with
  | nop => constructor <;> rfl
  | core2 => exact (sameControl_onLane s .l0 _).trans (sameControl_onLane _ .l1 _)
  | _ => exact sameControl_onLane s _ _

/-- A configuration write that answers a next state (60_exceptions.md R217, R224). -/
theorem configWrite_cases {s t : State} {f : State → State} (h : configWrite s f = .next t) :
    (s.run = .unconfigured ∧ t = f s) ∨ (s.run = .ready ∧ t = s.raiseFault .cfgLocked) ∨
      (s.run = .fault ∧ t = s) := by
  unfold configWrite at h
  cases hr : s.run <;> rw [hr] at h <;> first | (injection h with h) | cases h
  · exact .inl ⟨rfl, h.symm⟩
  · exact .inr (.inl ⟨rfl, h.symm⟩)
  · exact .inr (.inr ⟨rfl, h.symm⟩)

/-- A store to lane state that answers a next state (10_state.md R40, 60_exceptions.md R217). -/
theorem laneWrite_cases {s t : State} {f : State → State} (h : laneWrite s f = .next t) :
    ((s.run = .unconfigured ∨ s.run = .ready) ∧ t = f s) ∨ (s.run = .fault ∧ t = s) := by
  unfold laneWrite at h
  cases hr : s.run <;> rw [hr] at h <;> first | (injection h with h) | cases h
  · exact .inl ⟨.inl rfl, h.symm⟩
  · exact .inl ⟨.inr rfl, h.symm⟩
  · exact .inr ⟨rfl, h.symm⟩

/-- A write to a read-only register changes nothing (10_state.md section 7). -/
theorem readOnlyWrite_cases {s t : State} (h : readOnlyWrite s = .next t) :
    s.run ≠ .busy ∧ t = s := by
  unfold readOnlyWrite at h
  cases hr : s.run <;> rw [hr] at h <;> first | (injection h with h) | cases h
  all_goals exact ⟨by simp, h.symm⟩

/-- A host read changes `reply` only (20_memory.md R72). -/
theorem hostRead_cases {s t : State} {b : Bool} {r : Reply} (h : hostRead s b r = .next t) :
    (s.run = .busy → b = true) ∧ t = { s with reply := r } := by
  unfold hostRead at h
  cases hr : s.run <;> cases b <;> simp [hr] at h <;> simp [← h]

/-- Where no register is, the machine stops (93 U6). -/
theorem noRegister_ne_next (n : Config.LaneCount) (off : Nat) (t : State) :
    noRegister n off ≠ .next t := by
  unfold noRegister
  split <;> simp

/-- A register read that answers a next state changes `reply` only (20_memory.md R72). -/
theorem regRead_cases {off : Nat} {s t : State} (h : regRead off s = .next t) :
    ∃ r, t = { s with reply := r } := by
  unfold regRead at h
  split at h
  · exact absurd h (noRegister_ne_next _ _ _)
  · exact ⟨_, (hostRead_cases h).2⟩

/-- The lock check (60_exceptions.md R213): one of the three faults, or READY and locked. -/
theorem lockCheck_cases (s : State) :
    (∃ c, s.lockCheck = s.raiseFault c) ∨
      ((s.cfgBackendHw = true → s.build.hwCap = true) ∧
        s.cfgMemLog2.toNat ≤ s.build.memPhysLog2 ∧ 7 ≤ s.cfgMemLog2.toNat ∧
        s.lockCheck = { s with lock := true, run := .ready }) := by
  unfold State.lockCheck
  split
  · exact .inl ⟨_, rfl⟩
  · rename_i h1
    split
    · exact .inl ⟨_, rfl⟩
    · rename_i h2
      split
      · exact .inl ⟨_, rfl⟩
      · rename_i h3
        refine .inr ⟨fun h => ?_, by omega, by omega, rfl⟩
        simpa [h] using h1

/-- The cell number never exceeds `MASK` (20_memory.md R65). -/
theorem cellOf_le (b : Config.Build) (m : BitVec 6) (idx : W64) : cellOf b m idx ≤ maskNat m := by
  unfold cellOf
  rw [BitVec.toNat_and]
  refine Nat.le_trans Nat.and_le_right ?_
  rw [BitVec.toNat_ofNat]
  exact Nat.mod_le _ _

end Sys2Proof.Machine
end

