-- ==== Sys2Proof/Laws/PerInstr.lean ====
section
/-! SUPPORT. Statements made of every command as syntax, one lemma per constructor. -/

namespace Sys2Proof.Laws.SelectsRow

/-- The word of a command selects a row of the opcode table: its opcode names one, and every masked
bit of it besides the opcode is zero (30_encoding.md R97, R100). -/
def Statement (i : Instr) : Prop :=
  ∃ row, rowOf (Field.op (encode i)) = some row ∧
    encode i &&& row.mask = (Field.op (encode i)).setWidth 32

/-- The opcode field of an assembled word (30_encoding.md R91). -/
theorem op_assemble (op : BitVec 8) (ln : BitVec 1) (xd xs : BitVec 3) (sel : BitVec 1)
    (kr : BitVec 4) (rc : BitVec 8) : Field.op (assemble op ln xd xs sel kr rc) = op := by
  ext i hi
  simp only [Field.op, assemble, BitVec.getElem_extractLsb', BitVec.getLsbD_append]
  simp [hi]

theorem nop : Statement .nop := ⟨_, rfl, by decide⟩

theorem encr (ln : LaneId) (xd xs : Fin 8) (kr : BitVec 4) : Statement (.encr ln xd xs kr) := by
  refine ⟨_, by rw [encode, op_assemble]; rfl, ?_⟩
  rw [encode, op_assemble]
  show assemble 0x01 ln.bit (.ofFin xd) (.ofFin xs) 0 kr 0 &&& (0xFFF080FF : W32) = _
  ext i hi
  simp only [assemble, BitVec.getElem_and, BitVec.getElem_append, BitVec.getElem_setWidth]
  interval_cases i <;> simp [BitVec.getElem_eq_testBit_toNat] <;> intros <;> decide

theorem kstep (ln : LaneId) (kr : BitVec 4) (rc : BitVec 8) : Statement (.kstep ln kr rc) := by
  refine ⟨_, by rw [encode, op_assemble]; rfl, ?_⟩
  rw [encode, op_assemble]
  show assemble 0x02 ln.bit 0 0 0 kr rc &&& (0x00F0FEFF : W32) = _
  ext i hi
  simp only [assemble, BitVec.getElem_and, BitVec.getElem_append, BitVec.getElem_setWidth]
  interval_cases i <;> simp [BitVec.getElem_eq_testBit_toNat] <;> intros <;> decide

theorem kexp (ln : LaneId) (sel : Seed) : Statement (.kexp ln sel) := by
  cases ln <;> cases sel <;> exact ⟨_, rfl, by decide⟩

theorem explode (ln : LaneId) : Statement (.explode ln) := by
  cases ln <;> exact ⟨_, rfl, by decide⟩

theorem mixi (ln : LaneId) : Statement (.mixi ln) := by
  cases ln <;> exact ⟨_, rfl, by decide⟩

theorem mixs (ln : LaneId) : Statement (.mixs ln) := by
  cases ln <;> exact ⟨_, rfl, by decide⟩

theorem mix (ln : LaneId) : Statement (.mix ln) := by
  cases ln <;> exact ⟨_, rfl, by decide⟩

theorem implode (ln : LaneId) : Statement (.implode ln) := by
  cases ln <;> exact ⟨_, rfl, by decide⟩

theorem core (ln : LaneId) : Statement (.core ln) := by
  cases ln <;> exact ⟨_, rfl, by decide⟩

theorem core2 : Statement .core2 := ⟨_, rfl, by decide⟩

end Sys2Proof.Laws.SelectsRow
end

