-- ==== Sys2Proof/Laws/Procedures.lean ====
section
/-! SUPPORT. What the host procedures can do, once each: accesses performed one list after another, and
where a digest comes from. -/

namespace Sys2Proof.Machine

@[simp] theorem perform_nil (s : State) : perform [] s = .next (s, []) := rfl

/-- The accesses of the first list, then those of the second, with the words of both. -/
theorem perform_append {as bs : List HostAccess} {s t : State} {ws : List W32}
    (h : perform as s = .next (t, ws)) :
    perform (as ++ bs) s = match perform bs t with
      | .next (u, vs) => .next (u, ws ++ vs)
      | .fault r => .fault r
      | .refused r => .refused r := by
  induction as generalizing s ws with
  | nil =>
    cases h
    cases hb : perform bs t <;> simp [hb]
  | cons a as ih =>
    rw [List.cons_append, perform]
    rw [perform] at h
    cases ha : access a s with
    | next s' =>
      rw [ha] at h
      dsimp only at h ⊢
      cases hp : perform as s' with
      | next p =>
        rw [hp] at h
        injection h with h
        injection h with h1 h2
        subst h1 h2
        rw [ih hp]
        cases perform bs p.1 with
        | next q => dsimp only; congr 2; split <;> simp
        | _ => rfl
      | _ => rw [hp] at h; cases h
    | _ => rw [ha] at h; cases h

/-- Where the first list stops, so does the whole. -/
theorem perform_append_ne_next {as bs : List HostAccess} {s : State}
    (h : ∀ p, perform as s ≠ .next p) (p : State × List W32) : perform (as ++ bs) s ≠ .next p := by
  induction as generalizing s p with
  | nil => exact absurd rfl (h _)
  | cons a as ih =>
    rw [List.cons_append, perform]
    rw [perform] at h
    cases ha : access a s with
    | next s' =>
      rw [ha] at h
      dsimp only at h ⊢
      cases hp : perform (as ++ bs) s' with
      | next q =>
        refine absurd hp (ih (fun q' hq => ?_) q)
        rw [hq] at h
        exact h _ rfl
      | _ => simp
    | _ => simp

/-- A procedure's command completed exactly when the word polled says so. -/
theorem issueAndWait_cases {loads : List HostAccess} {cmd : W32} {s t : State} {b : Bool}
    (h : issueAndWait loads cmd s = .next (t, b)) :
    ∃ ws, perform (loads ++ [.regWrite cmdOffset cmd, waitPoll]) s = .next (t, ws) ∧
      b = saysCompleted (ws.getLastD 0) := by
  unfold issueAndWait at h
  split at h
  · injection h with h
    injection h with h1 h2
    exact ⟨_, by rw [← h1]; assumption, h2.symm⟩
  · cases h
  · cases h

/-- A digest of `HASH` comes from a completed `CORE.0` and the `ST` read back (45_pipeline.md R200). -/
theorem hash_some {C : Config.Collaborators} {input : List Byte} {s u : State} {d : List Byte}
    (h : hash C input s = .next (u, some d)) :
    ∃ t st, issueAndWait (loadSt .l0 (C.absorb input)) 0x00000009 s = .next (t, true) ∧
      fetchSt .l0 t = .next (u, st) ∧ d = (finalDigest C st).toList := by
  unfold hash at h
  split at h
  · rename_i t hw
    split at h
    · rename_i u' st hf
      cases h
      exact ⟨t, st, hw, hf, rfl⟩
    · cases h
    · cases h
  · cases h
  · cases h
  · cases h

end Sys2Proof.Machine
end

