-- ==== Sys2Proof/Laws/Registers.lean ====
section
/-! SUPPORT. The register map and the words of a lane window (10_state.md R40, 20_memory.md R72): the
place of each word, and a read after a write. -/

namespace Sys2Proof.Machine

/-- Every word of a lane window is aligned, inside it, and found at its offset (10_state.md R40). -/
theorem laneRegAt_offset (r : LaneReg) :
    laneRegOffset r % 4 = 0 ∧ laneRegOffset r < 0x400 ∧ laneRegAt (laneRegOffset r / 4) = some r := by
  cases r with
  | st k =>
    obtain ⟨k, hk⟩ := k
    have e : laneRegOffset (.st ⟨k, hk⟩) / 4 = k := by simp [laneRegOffset]
    refine ⟨by simp [laneRegOffset], by simp [laneRegOffset]; omega, ?_⟩
    generalize laneRegOffset (.st ⟨k, hk⟩) / 4 = n at e
    subst e
    unfold laneRegAt
    exact dif_pos hk
  | key r k => revert r k; decide
  | x r k => revert r k; decide
  | mixer r k => cases r <;> revert k <;> decide

/-- A word of an existing lane is found at its offset (10_state.md R40). -/
theorem regAt_lane {n : Config.LaneCount} {l : LaneId} (h : l.exists n = true) (r : LaneReg) :
    regAt n (regOffset (.lane l r)) = some (.lane l r) := by
  obtain ⟨h1, h2, h3⟩ := laneRegAt_offset r
  cases l with
  | l0 =>
    show regAt n (1024 + laneRegOffset r) = _
    unfold regAt
    rw [if_neg (by omega), if_neg (by omega), if_pos (by omega),
      show (1024 + laneRegOffset r) / 4 - 256 = laneRegOffset r / 4 by omega, h3]
    rfl
  | l1 =>
    cases n with
    | one => simp [LaneId.exists] at h
    | two =>
      show regAt .two (2048 + laneRegOffset r) = _
      unfold regAt
      rw [if_neg (by omega), if_neg (by omega), if_neg (by omega),
        if_pos (show _ < regSpaceBytes .two by simp only [regSpaceBytes]; omega),
        show (2048 + laneRegOffset r) / 4 - 512 = laneRegOffset r / 4 by omega, h3]
      rfl

/-- `CMD` is at its offset in every build (10_state.md R37). -/
theorem regAt_cmd (n : Config.LaneCount) : regAt n 0x018 = some .cmd := by cases n <;> rfl

/-- A store to lane state before the lock or in READY is performed (10_state.md R40). -/
theorem laneWrite_next {s : State} {f : State → State} (h : s.run = .unconfigured ∨ s.run = .ready) :
    laneWrite s f = .next (f s) := by
  unfold laneWrite
  rcases h with h | h <;> rw [h]

/-- The word of all ones has ones below 32 and zeros above. -/
theorem ones_getLsbD (q : Nat) : (0xFFFFFFFF : W32).getLsbD q = decide (q < 32) := by
  by_cases hq : q < 32
  · interval_cases q <;> rfl
  · rw [BitVec.getLsbD_of_ge _ _ (by omega)]
    simp [hq]

/-- A wide register after a host write of one of its words (20_memory.md R72). -/
theorem lane32_setLane32 {n : Nat} (v : BitVec n) (i j : Nat) (w : W32) (hj : 32 * j + 32 ≤ n) :
    lane32 (setLane32 v i w) j = if j = i then w else lane32 v j := by
  ext k hk
  have h1 : 32 * j + k < n := by omega
  simp only [lane32, setLane32, BitVec.getElem_extractLsb', BitVec.getLsbD_or, BitVec.getLsbD_and,
    BitVec.getLsbD_not, BitVec.getLsbD_shiftLeft, BitVec.getLsbD_setWidth, ones_getLsbD]
  by_cases e : j = i
  · subst e
    have h2 : ¬ 32 * j + k < 32 * j := by omega
    have h3 : 32 * j + k - 32 * j = k := by omega
    have h4 : k < n := by omega
    simp [h1, h2, h3, h4, hk]
  · by_cases h5 : 32 * j + k < 32 * i
    · simp [h1, h5, e]
    · have h6 : ¬ 32 * j + k - 32 * i < 32 := by omega
      have h7 : w.getLsbD (32 * j + k - 32 * i) = false := BitVec.getLsbD_of_ge _ _ (by omega)
      simp [h1, h5, h6, h7, e]

/-- A word of a file register after a host write of a word of the file (20_memory.md R72). -/
theorem lane32_fileWrite {n : Nat} (f : Vector W128 n) (i j : Fin n) (p q : Fin 4) (v : W32) :
    lane32 (fileRead (fileWrite f i.val (setLane32 (fileRead f i.val) p.val v)) j.val) q.val =
      if j = i ∧ q = p then v else lane32 (fileRead f j.val) q.val := by
  rw [fileRead_fileWrite _ i.isLt]
  by_cases hj : j = i
  · subst hj
    rw [if_pos rfl, lane32_setLane32 _ _ _ _ (by omega)]
    simp [Fin.ext_iff]
  · rw [if_neg fun h => hj (Fin.ext h), if_neg fun h => hj h.1]

/-- A word of the compact state after a host write of one (20_memory.md R72). -/
theorem leRead_stWrite (st : Vector Byte 200) (i j : Fin 50) (v : W32) :
    BitVec.ofNat 32 (leRead (fileRead (stWrite st (4 * i.val) 4 v)) (4 * j.val) 4) =
      if j = i then v else BitVec.ofNat 32 (leRead (fileRead st) (4 * j.val) 4) := by
  have hi := i.isLt
  by_cases h : j = i
  · subst h
    rw [if_pos rfl]
    refine ofNat_leRead_eq rfl _ _ _ fun k hk => ?_
    rw [fileRead_stWrite _ _ _ _ (by omega), if_pos (by omega)]
    congr 1
    omega
  · have hv : j.val ≠ i.val := fun e => h (Fin.ext e)
    rw [if_neg h, leRead_congr (buf' := fileRead st) fun k hk => ?_]
    rw [fileRead_stWrite _ _ _ _ (by omega), if_neg (by omega)]

/-- A mixer register after a write to one (10_state.md R24). -/
theorem Lane.mixReg_setMixReg (l : Lane) (r r' : MixReg) (v : W64) :
    (l.setMixReg r v).mixReg r' = if r' = r then v else l.mixReg r' := by
  cases r <;> cases r' <;> rfl

/-- A lane word reads back what was written to it, and every other as before (10_state.md R40). -/
theorem Lane.readWord_writeWord (l : Lane) (r r' : LaneReg) (v : W32) :
    (l.writeWord r v).readWord r' = if r' = r then v else l.readWord r' := by
  cases r with
  | st k =>
    cases r' with
    | st k' => simp only [LaneReg.st.injEq]; exact leRead_stWrite l.st k k' v
    | key a k' => exact (if_neg (by simp)).symm
    | x a k' => exact (if_neg (by simp)).symm
    | mixer a k' => rw [if_neg (by simp)]; cases a <;> rfl
  | key a k =>
    cases r' with
    | st k' => exact (if_neg (by simp)).symm
    | key a' k' => simp only [LaneReg.key.injEq]; exact lane32_fileWrite l.k a a' k k' v
    | x a k' => exact (if_neg (by simp)).symm
    | mixer a k' => rw [if_neg (by simp)]; cases a <;> rfl
  | x a k =>
    cases r' with
    | st k' => exact (if_neg (by simp)).symm
    | key a' k' => exact (if_neg (by simp)).symm
    | x a' k' => simp only [LaneReg.x.injEq]; exact lane32_fileWrite l.x a a' k k' v
    | mixer a k' => rw [if_neg (by simp)]; cases a <;> rfl
  | mixer a k =>
    cases r' with
    | st k' => rw [if_neg (by simp)]; cases a <;> rfl
    | key a' k' => rw [if_neg (by simp)]; cases a <;> rfl
    | x a' k' => rw [if_neg (by simp)]; cases a <;> rfl
    | mixer a' k' =>
      simp only [Lane.writeWord, Lane.readWord, LaneReg.mixer.injEq, Lane.mixReg_setMixReg]
      by_cases ha : a' = a
      · subst ha
        rw [if_pos rfl, lane32_setLane32 _ _ _ _ (by omega)]
        simp [Fin.ext_iff]
      · rw [if_neg ha, if_neg fun h => ha h.1]

/-- No lane word is part of the scratchpad (10_state.md R27). -/
@[simp] theorem Lane.writeWord_sp (l : Lane) (r : LaneReg) (v : W32) : (l.writeWord r v).sp = l.sp := by
  cases r with
  | mixer a k => cases a <;> rfl
  | _ => rfl

end Sys2Proof.Machine
end

