-- ==== Sys2Proof/Machine/Work.lean ====
section
/-! DEFINITION. The counts of work the spec states (42_explode.md R154, 43_mixer.md R171,
44_implode.md R183): no timing, but what each loop does, counted turn by turn. No command reads them. -/

namespace Sys2Proof.Machine

/-- What is counted: evaluations of `ROUND` and `KSTEPF`, 64 by 64 products, 64-bit additions, 16-byte
reads and writes of the scratchpad, and 16-byte writes of the compact state. -/
structure Work where
  rounds   : Nat
  keySteps : Nat
  products : Nat
  sums     : Nat
  reads    : Nat
  writes   : Nat
  stWrites : Nat
deriving DecidableEq, Repr

/-- Nothing done. -/
def Work.none : Work := ⟨0, 0, 0, 0, 0, 0, 0⟩

/-- One work after another. -/
def Work.add (v w : Work) : Work :=
  ⟨v.rounds + w.rounds, v.keySteps + w.keySteps, v.products + w.products, v.sums + w.sums,
    v.reads + w.reads, v.writes + w.writes, v.stWrites + w.stWrites⟩

/-- The same work in each of `n` turns of a loop (00_scope.md R8). -/
def Work.turns (n : Nat) (w : Work) : Work := forRange (fun _ v => v.add w) 0 n Work.none

/-- One evaluation of `ROUND`. -/
def roundWork : Work := { Work.none with rounds := 1 }

/-- One evaluation of `KSTEPF`. -/
def keyStepWork : Work := { Work.none with keySteps := 1 }

/-- One 16-byte scratchpad read. -/
def readWork : Work := { Work.none with reads := 1 }

/-- One 16-byte scratchpad write. -/
def writeWork : Work := { Work.none with writes := 1 }

/-- One 16-byte write of the compact state. -/
def stWriteWork : Work := { Work.none with stWrites := 1 }

/-- Ten rounds of the lane group (42_explode.md R151). -/
def tenRoundsWork : Work := Work.turns 10 (Work.turns 8 roundWork)

/-- `EXPLODE` (42_explode.md R151, R154). -/
def explodeWork (m : BitVec 6) : Work :=
  (Work.turns 4 keyStepWork).add
    (Work.turns (chunkCount m) (tenRoundsWork.add (Work.turns 8 writeWork)))

/-- `MIXS` (43_mixer.md R162, R171). -/
def mixsWork : Work :=
  ((readWork.add roundWork).add writeWork).add
    ((readWork.add { Work.none with products := 1, sums := 2 }).add writeWork)

/-- `IMPLODE` (44_implode.md R181, R183). -/
def implodeWork (m : BitVec 6) : Work :=
  ((Work.turns 4 keyStepWork).add
    (Work.turns (chunkCount m) ((Work.turns 8 readWork).add tenRoundsWork))).add
    (Work.turns 8 stWriteWork)

/-- `CORE` (45_pipeline.md R191). -/
def coreWork (m : BitVec 6) (iterations : Nat) : Work :=
  ((explodeWork m).add (Work.turns iterations mixsWork)).add (implodeWork m)

/-- The work of a command that completes. -/
def workOf (m : BitVec 6) (iterations : Nat) : Instr → Work
  | .nop => Work.none
  | .encr _ _ _ _ => roundWork
  | .kstep _ _ _ => keyStepWork
  | .kexp _ _ => Work.turns 4 keyStepWork
  | .explode _ => explodeWork m
  | .mixi _ => Work.none
  | .mixs _ => mixsWork
  | .mix _ => Work.turns iterations mixsWork
  | .implode _ => implodeWork m
  | .core _ => coreWork m iterations
  | .core2 => (coreWork m iterations).add (coreWork m iterations)

end Sys2Proof.Machine
end

