-- ==== Sys2Proof/Laws/Work.lean ====
section
/-! SUPPORT. The totals of the counts of work as the spec states them (42_explode.md R154,
43_mixer.md R171, 44_implode.md R183). -/

namespace Sys2Proof.Machine

/-- The same work in `n` turns is `n` times the work. -/
theorem Work.turns_eq (n : Nat) (w : Work) :
    Work.turns n w = ⟨n * w.rounds, n * w.keySteps, n * w.products, n * w.sums, n * w.reads,
      n * w.writes, n * w.stWrites⟩ := by
  unfold Work.turns
  refine forRange_inv (f := fun _ v => Work.add v w) (P := fun k v => v = ⟨k * w.rounds,
    k * w.keySteps, k * w.products, k * w.sums, k * w.reads, k * w.writes, k * w.stWrites⟩)
    (by simp [Work.none]) fun k v _ h => ?_
  rw [h, Work.add]
  simp only [Nat.succ_mul]

/-- `EXPLODE`: 80 rounds and 8 writes a chunk, four key steps (R154). -/
theorem explodeWork_eq (m : BitVec 6) : explodeWork m =
    { Work.none with rounds := chunkCount m * 80, keySteps := 4, writes := chunkCount m * 8 } := by
  simp [explodeWork, tenRoundsWork, Work.turns_eq, Work.add, keyStepWork, roundWork, writeWork,
    Work.none]

/-- `MIXS`: one round, one product, two additions, two reads, two writes (R171). -/
theorem mixsWork_eq : mixsWork =
    { Work.none with rounds := 1, products := 1, sums := 2, reads := 2, writes := 2 } := by decide

/-- `IMPLODE`: 80 rounds and 8 reads a chunk, four key steps, eight state writes (R183). -/
theorem implodeWork_eq (m : BitVec 6) : implodeWork m =
    { Work.none with
      rounds := chunkCount m * 80, keySteps := 4, reads := chunkCount m * 8, stWrites := 8 } := by
  simp [implodeWork, tenRoundsWork, Work.turns_eq, Work.add, keyStepWork, roundWork, readWork,
    stWriteWork, Work.none]

end Sys2Proof.Machine
end

