-- ==== Sys2Proof/Tests/Slice0.lean ====
section
/-! SUPPORT. Tests: the checks of WellFormed, words written out from 30_encoding.md, the vectors of
95_test_vectors.md one step each, and a witness for the hypotheses of every statement. -/

namespace Sys2Proof.Tests

open Sys2Proof Sys2Proof.Machine

-- One test after the other: many at once reserve more memory for their threads than the check allows.
set_option Elab.async false

/-! ## Helpers -/

/-- `ST[i] = i` (95_test_vectors.md section 2). -/
def iota : Lane := { Lane.reset with st := Vector.ofFn fun i => BitVec.ofNat 8 i.val }

/-- `iota` with keys `K[0..3]` of section 2.4, `X[0]` and `X[1]` of section 2.1. -/
def keyed : Lane := { iota with
  k := #v[0x0f0e0d0c0b0a09080706050403020100, 0x1f1e1d1c1b1a19181716151413121110,
    0x9cc072a593ce7fa998c476a19fc273a5, 0x06deba4019c0a75c02dabe4415ccab50, 0, 0, 0, 0, 0, 0]
  x := #v[0x4f4e4d4c4b4a49484746454443424140, 0x5f5e5d5c5b5a59585756555453525150, 0, 0, 0, 0, 0, 0] }

/-- The cell of the all-zero vectors of section 2.5, `5c628103...`, byte 0 first. -/
def zeroCell : List Byte :=
  [0x5c, 0x62, 0x81, 0x03, 0x04, 0xd1, 0x2c, 0x46, 0x81, 0xef, 0x74, 0x6c, 0xf0, 0xe6, 0x3d, 0xb0]

/-- All zero but the scratchpad of 128 bytes, eight times that cell (section 2.7). -/
def zeroExploded : Lane := { Lane.reset with
  sp := Memory.write [] 0 (zeroCell ++ zeroCell ++ zeroCell ++ zeroCell ++ zeroCell ++ zeroCell ++
    zeroCell ++ zeroCell) }

/-- A locked machine with both lanes the same, `MEM_LOG2 = 7`. -/
def ready (l : Lane) (iterations : Nat) : State := { State.reset with
  run := .ready, lock := true, cfgMemLog2 := 7, cfgIter := BitVec.ofNat 32 iterations
  lane0 := l, lane1 := l }

/-- The same machine of another build, no iterations. -/
def onBuild (b : Config.Build) (l : Lane) : State := { ready l 0 with build := b }

/-- The machine in another run state. -/
def inRun (r : RunState) : State := { State.reset with run := r }

/-- A machine about to take one access. -/
def taking (a : HostAccess) (s : State) : State := { s with inbox := [a] }

/-- What one step leaves, seen through a function. -/
def after {α : Type} (s : State) (f : State → α) : Option α :=
  match step s with
  | .next t => some (f t)
  | .fault _ => none
  | .refused _ => none

/-- One step that writes a word to `CMD` (10_state.md R37). -/
def afterCmd {α : Type} (w : W32) (s : State) (f : State → α) : Option α :=
  after (taking (.regWrite 0x018 w) s) f

/-- What a word decodes to, if anything. -/
def decodes (n : Config.LaneCount) (w : W32) : Option Instr :=
  match decode n w with
  | .ok i => some i
  | .error _ => none

/-- Why a word is rejected. -/
def rejects (n : Config.LaneCount) (w : W32) : Option Illegal :=
  match decode n w with
  | .ok _ => none
  | .error e => some e

/-! ## WellFormed: an ill-formed term for each check (30_encoding.md R99) -/

theorem test_wf_encr_key : (Instr.encr .l0 0 0 10).wellFormed .two = false := by decide
theorem test_wf_encr_last_key : (Instr.encr .l1 7 7 9).wellFormed .two = true := by decide
theorem test_wf_kstep_odd : (Instr.kstep .l0 1 0).wellFormed .two = false := by decide
theorem test_wf_kstep_eight : (Instr.kstep .l0 8 0).wellFormed .two = false := by decide
theorem test_wf_kstep_six : (Instr.kstep .l0 6 0xFF).wellFormed .one = true := by decide
theorem test_wf_lane : ∀ i ∈ [Instr.encr .l1 0 0 0, .kstep .l1 0 0, .kexp .l1 .a, .explode .l1,
    .mixi .l1, .mixs .l1, .mix .l1, .implode .l1, .core .l1, .core2],
    i.wellFormed .one = false ∧ i.wellFormed .two = true := by decide
theorem test_wf_nop : Instr.nop.wellFormed .one = true := by decide

/-! ## Decode: words of 30_encoding.md R101 and 95_test_vectors.md 2.0, field by field -/

/-- Bits 7:0 are the opcode and nothing else is set. -/
theorem test_decode_nop : decodes .two 0b00000000000000000000000000000000 = some .nop := by decide

/-- `OP=1`, `XD=101`, `XS=001`, `KR=0011`: `0x00031A01`. -/
theorem test_decode_encr :
    decodes .two 0b00000000000000110001101000000001 = some (.encr .l0 5 1 3) := by decide

/-- `OP=2`, `LN=1`, `KR=0100`, `RC=00000100`: `0x04040102`. -/
theorem test_decode_kstep :
    decodes .two 0b00000100000001000000000100000010 = some (.kstep .l1 4 0x04) := by decide

/-- `OP=3`, `LN=1`, `SEL=1`: `0x00008103`. -/
theorem test_decode_kexp :
    decodes .two 0b00000000000000001000000100000011 = some (.kexp .l1 .b) := by decide

theorem test_decode_explode :
    decodes .two 0b00000000000000000000000000000100 = some (.explode .l0) := by decide
theorem test_decode_mixi :
    decodes .two 0b00000000000000000000000000000101 = some (.mixi .l0) := by decide
theorem test_decode_mixs :
    decodes .two 0b00000000000000000000000100000110 = some (.mixs .l1) := by decide
theorem test_decode_mix :
    decodes .two 0b00000000000000000000000100000111 = some (.mix .l1) := by decide
theorem test_decode_implode :
    decodes .two 0b00000000000000000000000000001000 = some (.implode .l0) := by decide
theorem test_decode_core :
    decodes .two 0b00000000000000000000000100001001 = some (.core .l1) := by decide
theorem test_decode_core2 :
    decodes .two 0b00000000000000000000000000001010 = some .core2 := by decide

/-- Any `RC` is legal (section 2.0). -/
theorem test_decode_any_rc : decodes .two 0xFF060002 = some (.kstep .l0 6 0xFF) := by decide

theorem test_reject_opcode : [0x0000000B, 0x000000FF, 0xFFFFFFFF].map (rejects .two) =
    List.replicate 3 (some .unknownOpcode) := by decide
theorem test_reject_zero_fields : [0x00000100, 0x0000010A, 0x01000004, 0x00008001, 0x01000001,
    0x00100001, 0x00000202, 0x00010003, 0x00000204].map (rejects .two) =
    List.replicate 9 (some .mustBeZero) := by decide
theorem test_reject_key : [0x000A0001, 0x01010002, 0x01080002].map (rejects .two) =
    List.replicate 3 (some .badKeyIndex) := by decide
theorem test_reject_lane : [0x00000109, 0x0000000A].map (rejects .one) =
    List.replicate 2 (some .noSuchLane) := by decide

/-- A word of `spec/opcode_table.json` with its bits numbered as the table numbers them. -/
theorem test_table_word : decodeTableWord 32 0x00097F01 = some (.encr .l1 7 7 9) := by decide

/-- The fetch placed by `withFetchWord` runs the command first after reset. -/
theorem test_fetch_word : after (State.reset.withFetchWord 32 0) (fun t => (t.run, t.done)) =
    some (.ready, true) := by decide

/-! ## Functions: 95_test_vectors.md 2.1 to 2.3 and 2.6 -/

theorem test_round_zero : roundAes 0 0x0f0e0d0c0b0a09080706050403020100 =
    0x6c6d6e6f68696a6b6465666760616263 := by decide +kernel
theorem test_round_bytes : roundAes 0x0f0e0d0c0b0a09080706050403020100 0 =
    0x5c219c27615dd9b051336d2c455c6a6a := by decide +kernel
theorem test_keygen_example : keygenAes 0x3c4fcf098815f7aba6d2ae2816157e2b 0x01 =
    0x01eb848beb848a013424b5e524b5e434 := by decide +kernel
theorem test_keygen_rc : keygenAes 0x0f0e0d0c0b0a09080706050403020100 0xff =
    0xfe76ab2876abd7fef2c56f94c56f6bf2 := by decide +kernel
theorem test_cascade : cascade 0x0f0e0d0c0b0a09080706050403020100 =
    0x000000000f0e0d0c0404040403020100 := by decide
theorem test_product_wide : wideMul 0x0123456789abcdef 0xfedcba9876543210 =
    cat 0x0121fa00ad77d742 0x2236d88fe5618cf0 := by decide
theorem test_product_top : wideMul 0xffffffffffffffff 0xffffffffffffffff =
    cat 0xfffffffffffffffe 0x0000000000000001 := by decide

/-- `MASK` against `CFG_MEM` (section 2.8). -/
theorem test_mask : [7, 8, 10, 21, 0, 3, 4].map (fun m => maskWord (BitVec.ofNat 6 m)) =
    [0x7, 0xF, 0x3F, 0x1FFFF, 0, 0, 0] := by decide

/-! ## Commands, one step each -/

/-- Section 2.8, last row: `STATUS` reads 5. -/
theorem test_nop : afterCmd 0x00000000 (ready iota 0) (fun t => t.readReg .status) = some 5 := by
  decide

/-- Section 2.1, `ENCR.0 x5, x1, k3`. -/
theorem test_encr : afterCmd 0x00031A01 (ready keyed 0) (fun t => (t.lane0.xreg 5, t.lane0.xreg 1)) =
    some (0xca77b8345d0b0e0730ad16f7274e0d98, 0x5f5e5d5c5b5a59585756555453525150) := by
  decide +kernel

/-- Section 2.1, `ENCR.0 x0, x0, k0`: source and destination the same register. -/
theorem test_encr_same : afterCmd 0x00000001 (ready keyed 0) (fun t => t.lane0.xreg 0) =
    some 0xd0de64296918521e0a56034ab34531f2 := by decide +kernel

/-- Section 2.3, `KSTEP.0 k0, 0x01`. -/
theorem test_kstep : afterCmd 0x01000002 (ready { keyed with k := keyed.k.set 2 0 } 0)
    (fun t => (t.lane0.key 0, t.lane0.key 2, t.lane0.key 3, t.lane0.key 4)) =
    some (0x0f0e0d0c0b0a09080706050403020100, 0x9cc072a593ce7fa998c476a19fc273a5,
      0x06deba4019c0a75c02dabe4415ccab50, 0) := by decide +kernel

/-- Section 2.4, `KEXP.0 A`. -/
theorem test_kexp_a : afterCmd 0x00000003 (ready iota 0) (fun t => (t.lane0.key 6, t.lane0.key 9)) =
    some (0xd569965dd40e83a349a9e4f847c0fc0a, 0x4cc657f404c1aa60ffb2daa5b16b9d71) := by
  decide +kernel

/-- Section 2.4, `KEXP.0 B`. -/
theorem test_kexp_b : afterCmd 0x00008003 (ready iota 0) (fun t => t.lane0.key 9) =
    some 0x9f75fbb074bcfbfdb73223ffab12be85 := by decide +kernel

/-- Section 2.5, `EXPLODE.0` with `MEM_LOG2 = 7`: the first and the last lane. -/
theorem test_explode : afterCmd 0x00000004 (ready iota 0) (fun t => (t.lane0.xreg 0, t.lane0.xreg 7)) =
    some (0xab49280de3b6b3738b30b12de848ceb2, 0x5acb0948176118112e8891ac82347773) := by
  decide +kernel

/-- Section 2.5, cell 1 of chunk 0. -/
theorem test_explode_cell : afterCmd 0x00000004 (ready iota 0)
    (fun t => (List.range 16).map fun i => t.lane0.sp.read (16 + i)) =
    some [0x10, 0xb1, 0xdd, 0x8d, 0x61, 0xb6, 0x2d, 0x7b, 0x0f, 0x2a, 0xd5, 0xa5, 0x3c, 0x18, 0xc6,
      0x54] := by decide +kernel

/-- Section 2.6, `MIXI.0`. -/
theorem test_mixi : afterCmd 0x00000005 (ready iota 0)
    (fun t => [t.lane0.al, t.lane0.ah, t.lane0.bl, t.lane0.bh, t.lane0.idx]) =
    some (List.replicate 5 0x2020202020202020) := by decide +kernel

/-- Section 2.7, the all-zero state: the one `MIXS.0` with `ea1 = 0`, `ea2 = 48`. -/
theorem test_mixs : afterCmd 0x00000006 (ready zeroExploded 0)
    (fun t => [t.lane0.al, t.lane0.ah, t.lane0.bl, t.lane0.bh, t.lane0.idx]) =
    some [0x473f06471f80f320, 0x9a90a47e04f6df15, 0x03ee45d9a7797ca3, 0xf43400c7227445c7,
      0x473f06471f80f320] := by decide +kernel

/-- Section 2.6, the toy round with `IDX_SHIFT = 4`: both indices select cell 2. -/
theorem test_mixs_same_cell :
    afterCmd 0x00000006 (onBuild { toyBuild with idxShift := .four } toyLane)
      (fun t => (t.lane0.al, t.lane0.ah, t.lane0.bl, t.lane0.bh, t.lane0.idx, t.lane0.memRead 32)) =
    some (0x3B3, 0xB5AFF, 0x326, 0x1005, 0x3B3, 0x00000000000b4a4b0000000000000025) := by
  decide +kernel

/-- The trees of `toyBuild` are the toy round, `ROUND(x, k) = x ^ k`. -/
theorem test_toy_round (x k : W128) : (ciphersOf toyBuild).round x k = x ^^^ k := by
  refine BitVec.eq_of_getLsbD_eq fun i h => ?_
  cases hx : x.getLsbD i <;> cases hk : k.getLsbD i <;>
    simp [ciphersOf, toyBuild, evalTrees, toyTree, evalTree, h, BitVec.getLsbD_eq_getElem] at hx hk ⊢ <;>
    simp [hx, hk]

/-- 40_round_backend.md R120, R130: `ENCR.0 x5, x1, k3` on a build with the toy round. -/
theorem test_encr_toy : afterCmd 0x00031A01 (onBuild toyBuild keyed) (fun t => t.lane0.xreg 5) =
    some (0x5f5e5d5c5b5a59585756555453525150 ^^^ 0x06deba4019c0a75c02dabe4415ccab50) := by
  decide +kernel

/-- 40_round_backend.md R129: `KSTEP.0 k0, 0x01` on a build whose `KEYGEN` puts bit 0 of `rc` in bit 127
and is zero elsewhere: only lane 3 bit 31 of it is set, broadcast over the cascade of `K[0] = 0`, and the
second sub-step, with constant 0, leaves `K[3]` zero. -/
theorem test_kstep_toy : afterCmd 0x01000002
    (onBuild { Config.build with
      ciphers := .given (Vector.replicate 128 (.leaf false)) (Vector.ofFn fun i =>
        if i = 127 then .test 128 (.leaf false) (.leaf true) else .leaf false) } Lane.reset)
    (fun t => (t.lane0.key 2, t.lane0.key 3)) =
    some (0x80000000800000008000000080000000, 0) := by decide +kernel

/-- Section 2.6: with `ITERATIONS = 0`, `MIX.0` is `MIXI.0` alone. -/
theorem test_mix_zero : afterCmd 0x00000007 (ready iota 0) (fun t => (t.lane0.idx, t.lane0.sp)) =
    some (0x2020202020202020, []) := by decide +kernel

/-- Section 2.7, the all-zero state: `MIX.0` with one iteration. -/
theorem test_mix_one : afterCmd 0x00000007 (ready zeroExploded 1)
    (fun t => (t.lane0.al, t.lane0.memRead 0)) =
    some (0x473f06471f80f320, 0xf43400c7227445c703ee45d9a7797ca3) := by decide +kernel

/-- Section 2.7: an untouched chain of the all-zero state under `IMPLODE.0`, lane 1. -/
theorem test_implode : afterCmd 0x00000008 (ready zeroExploded 0)
    (fun t => (List.range 16).map fun i => t.lane0.stByte (80 + i)) =
    some [0x90, 0x99, 0x5a, 0x7d, 0x54, 0xb0, 0xb0, 0x1a, 0x85, 0x0b, 0x2e, 0x4f, 0x2c, 0x9a, 0xa5,
      0x7d] := by decide +kernel

/-- Section 2.7, `MEM_LOG2 = 7`, `ITERATIONS = 0`: `ST[64..79]` after `CORE.0`. -/
theorem test_core : afterCmd 0x00000009 (ready iota 0)
    (fun t => (List.range 16).map fun i => t.lane0.stByte (64 + i)) =
    some [0x9c, 0xdc, 0x8d, 0x80, 0xca, 0xc1, 0xcf, 0xf1, 0xf1, 0x01, 0x39, 0x34, 0x89, 0x1e, 0xda,
      0x06] := by decide +kernel

/-- The same on lane 1 by `CORE2`: `ST[176..191]`. -/
theorem test_core2 : afterCmd 0x0000000A (ready iota 0)
    (fun t => (List.range 16).map fun i => t.lane1.stByte (176 + i)) =
    some [0xe2, 0xfe, 0xf7, 0x47, 0x32, 0xe6, 0xcc, 0xa0, 0xfb, 0x44, 0xe8, 0x01, 0x17, 0x3d, 0x22,
      0x87] := by decide +kernel

/-! ## Host accesses, one step each: the rows of 95_test_vectors.md 2.8 -/

/-- `WR CTRL, 1` with `MEM_LOG2 = 6`, `7`, `22`, and with a missing hardware path. -/
theorem test_lock_check :
    after (taking (.regWrite 0x014 1) { State.reset with cfgMemLog2 := 6 }) State.statusWord =
      some 0x00000303 ∧
    after (taking (.regWrite 0x014 1) { State.reset with cfgMemLog2 := 7 }) State.statusWord =
      some 0x00000001 ∧
    after (taking (.regWrite 0x014 1) { State.reset with cfgMemLog2 := 22 }) State.statusWord =
      some 0x00000203 ∧
    after (taking (.regWrite 0x014 1) { State.reset with
      build := { Config.build with hwCap := false }, cfgBackendHw := true, cfgMemLog2 := 22 })
      State.statusWord = some 0x00000103 := by decide

/-- A command before the lock, an illegal word, a configuration write after the lock. -/
theorem test_fault_codes :
    afterCmd 0x00000000 State.reset State.statusWord = some 0x00000703 ∧
    afterCmd 0x0000000B (ready iota 0) State.statusWord = some 0x00000603 ∧
    after (taking (.regWrite 0x010 4) (ready iota 0)) (fun t => (t.statusWord, t.cfgIter)) =
      some (0x00000803, 0) := by decide

/-- `WR CFG_MEM, 0x47` keeps the defined bits. -/
theorem test_cfg_mem_bits : after (taking (.regWrite 0x00C 0x47) State.reset)
    (fun t => t.readReg .cfgMem) = some 7 := by decide

/-- `CAP` of the default build. -/
theorem test_read_cap : after (taking (.regRead 0x004) State.reset) (fun t => t.reply) =
    some (.word 0x00001503) := by decide

/-- 20_memory.md R72: the window word at `0x404` of `ST[i] = i`. -/
theorem test_read_st_word : after (taking (.regRead 0x404) (ready iota 0)) (fun t => t.reply) =
    some (.word 0x07060504) := by decide +kernel

/-- 70_reset_and_hazards.md R243: what the host reads on the way to READY, software backend, 2 MiB. -/
theorem test_startup : (match perform (startup 0 21 0x00080000) State.reset with
    | .next (t, ws) => some (t.run, t.lock, ws)
    | .fault _ => none
    | .refused _ => none) =
    some (.ready, true, [0x434E0001, 0x00001503, 0x00000001]) := by decide

/-- Collaborators that leave everything visible: `ABSORB` gives `ST[i] = i`, digest 0 shows
`ST[64..95]`. -/
def plain : Config.Collaborators where
  absorb _ := iota.st
  permute st := st
  digest s st := Vector.ofFn fun i : Fin 32 => if s = 0 then st[64 + i.val] else 0

/-- 45_pipeline.md R200 with `MEM_LOG2 = 7`, `ITERATIONS = 0`: 32 bytes, the first as in section 2.7. -/
theorem test_hash : (match hash plain [] (ready Lane.reset 0) with
    | .next (_, some d) => some (d.length, d.take 4)
    | .next (_, none) => none
    | .fault _ => none
    | .refused _ => none) = some (32, [0x9c, 0xdc, 0x8d, 0x80]) := by decide +kernel

/-- R200: where `CORE` does not run there is no digest; before the lock the write is fault 7. -/
theorem test_hash_unlocked : (match hash plain [] State.reset with
    | .next (t, d) => some (t.statusWord, d)
    | .fault _ => none
    | .refused _ => none) = some (0x00000703, none) := by decide +kernel

/-- 42_explode.md R154 for 2 MiB: 1310720 rounds, 131072 writes, four key steps. -/
theorem test_explode_work : explodeWork 21 =
    { Work.none with rounds := 1310720, keySteps := 4, writes := 131072 } := by
  rw [explodeWork_eq]
  decide

/-- 43_mixer.md R171 for `2^19` iterations: `2^20` reads and writes. -/
theorem test_mix_work : (workOf 21 (2 ^ 19) (.mix .l0)).reads = 2 ^ 20 ∧
    (workOf 21 (2 ^ 19) (.mix .l0)).writes = 2 ^ 20 := by
  simp only [workOf, Work.turns_eq, mixsWork_eq, Work.none]
  decide

/-- 10_state.md R40: `0x024`, the hole after `ST`, the one after `IDX`, and a misaligned offset. -/
theorem test_holes : [0x024, 0x4C8, 0x728, 0x401, 0xBFC, 0xC00].map (regAt .two) =
    List.replicate 6 none := by decide

/-! ## The hypotheses of the statements, met -/

theorem test_hyp_DecodeOfEncode : (Instr.encr .l1 7 7 9).wellFormed .two = true ∧
    (Instr.kstep .l0 6 0xFF).wellFormed .one = true := by decide

theorem test_hyp_DecodedWordsAreEncodings : decode .two 0x08060002 = .ok (.kstep .l0 6 0x08) := rfl

theorem test_hyp_StepRunsDecodedCommand : ∃ s : State, s.inbox = .regWrite 0x018 0x00000109 :: [] ∧
    decode s.build.nlanes 0x00000109 = .ok (.core .l1) := ⟨taking _ (ready iota 0), rfl, rfl⟩

theorem test_hyp_StepTakesOneAccess : State.reset.inbox = [] ∧
    (taking (.regRead 0) State.reset).inbox = .regRead 0 :: [] := ⟨rfl, rfl⟩

theorem test_hyp_IllegalWordRaisesFaultSix :
    (ready iota 0).run = .ready ∧ ∃ e, decode (ready iota 0).build.nlanes 0x0000000B = .error e :=
  ⟨rfl, _, rfl⟩

theorem test_hyp_CommandBeforeLockRaisesFaultSeven : State.reset.run = .unconfigured := rfl

theorem test_hyp_ConfigWriteAfterLockRaisesFaultEight :
    (ready iota 0).run = .ready ∧ (0x014 : Nat) ∈ [0x008, 0x00C, 0x010, 0x014] := by decide

/-- The boundaries of the check: an odd value locks, `MEM_LOG2` at 6, 7, 21 and 22. -/
theorem test_hyp_LockRunsTheConfigurationCheck : State.reset.run = .unconfigured ∧
    [6, 7, 21, 22].map (fun m => ({ State.reset with cfgMemLog2 := m } : State).lockCheck.run) =
      [.fault, .ready, .ready, .fault] := by decide

theorem test_hyp_OnlyResetLeavesFault : ∃ s t : State, s.run = .fault ∧ step s = .next t ∧
    ∀ l0 l1, s.inbox.head? ≠ some (.reset l0 l1) :=
  ⟨taking (.regRead 0x01C) (inRun .fault), _, rfl, rfl, fun _ _ => by simp [taking]⟩

theorem test_hyp_FaultAllowsReadsIgnoresWrites : (inRun .fault).run = .fault ∧
    LaneId.exists (inRun .fault).build.nlanes .l1 = true ∧
    2 ^ 21 - 1 + [(0 : Byte)].length ≤ 2 ^ (inRun .fault).build.memPhysLog2 := by decide

theorem test_hyp_BusyAllowsStatusReadOnly : (inRun .busy).run = .busy ∧
    HostAccess.regWrite 0x018 0 ≠ .regRead 0x01C ∧
    ∀ l0 l1, HostAccess.regWrite 0x018 0 ≠ .reset l0 l1 := ⟨rfl, by decide, fun _ _ => by simp⟩

/-- The first undefined offset, a misaligned one, a lane the build lacks, one byte too far. -/
theorem test_hyp_UndefinedAddressesStop :
    (∀ r, regOffset r ≠ 0x024) ∧ (∀ r, regOffset r ≠ 0x401) ∧ LaneId.exists .one .l1 = false ∧
    2 ^ State.reset.build.memPhysLog2 < 2 ^ 21 + [(0 : Byte)].length := by
  refine ⟨fun r => ?_, fun r => ?_, rfl, by decide⟩ <;> cases r with
  | lane l r =>
    have := laneRegAt_offset r
    cases l <;> simp only [regOffset, windowBase] <;> omega
  | _ => decide

theorem test_hyp_EveryCommandCompletes : (ready iota 0).run = .ready ∧
    Instr.core2.wellFormed (ready iota 0).build.nlanes = true := by decide

theorem test_hyp_CommandsByRunState : (inRun .unconfigured).run = .unconfigured ∧
    (inRun .fault).run = .fault ∧ (inRun .busy).run = .busy ∧ (inRun .ready).run = .ready ∧
    (Instr.kstep .l0 8 0).wellFormed (inRun .ready).build.nlanes = false := by decide

theorem test_hyp_ConfigurationIsImmutableAfterLock : ∃ s t : State, s.run ≠ .unconfigured ∧
    step s = .next t ∧ ∀ l0 l1, s.inbox.head? ≠ some (.reset l0 l1) :=
  ⟨taking (.regWrite 0x00C 9) (ready iota 0), _, by decide, rfl, fun _ _ => by simp [taking]⟩

theorem test_hyp_BuildParametersAreConstant : ∃ s t : State, step s = .next t :=
  ⟨taking (.reset iota iota) (inRun .fault), _, rfl⟩

theorem test_hyp_HostWriteStoresOneWord : (inRun .unconfigured).run = .unconfigured ∧
    (inRun .ready).run = .ready ∧ LaneId.exists (inRun .ready).build.nlanes .l1 = true ∧
    Reg.lane .l0 (.st 0) ≠ Reg.lane .l1 (.st 0) := by decide

theorem test_hyp_RegisterReadsHaveNoSideEffect : (inRun .fault).run ≠ .busy ∧
    ∀ l w, Reg.lane .l1 (.mixer .idx 1) = .lane l w →
      l.exists (inRun .fault).build.nlanes = true := by
  refine ⟨by decide, fun l w h => ?_⟩
  injection h with h
  subst h
  rfl

theorem test_hyp_ConfigurationWritesKeepDefinedBits : (inRun .unconfigured).run = .unconfigured ∧
    (inRun .ready).run ≠ .busy ∧ (0x020 : Nat) ∈ [0x000, 0x004, 0x01C, 0x020] := by decide

theorem test_hyp_IdentityCapabilityAndMask : State.reset.build.memPhysLog2 < 64 ∧
    [0, 4, 36].all (fun m => decide ((m : BitVec 6).toNat ≤ 36)) = true := by decide

theorem test_hyp_ScratchpadHostAccess : (inRun .ready).run = .ready ∧
    LaneId.exists (inRun .ready).build.nlanes .l1 = true ∧
    2 ^ 21 - 1 + [(7 : Byte)].length ≤ 2 ^ (inRun .ready).build.memPhysLog2 ∧
    ((5 : Nat) < 2 ^ 21 - 1 ∨ 2 ^ 21 - 1 + [(7 : Byte)].length ≤ 5) := by decide

theorem test_hyp_CellReadAfterWrite : (15 : Nat) < 16 ∧ ((31 : Nat) < 32 ∨ 32 + 16 ≤ 31) ∧
    ((48 : Nat) < 32 ∨ 32 + 16 ≤ 48) := by decide

theorem test_hyp_CanonicalMemoriesReadingAlikeAreEqual : ∃ m m' : Memory, m.wf = true ∧
    m'.wf = true ∧ ∀ a, m.read a = m'.read a := ⟨[(3, 9), (5, 1)], [(3, 9), (5, 1)], by decide, by decide, fun _ => rfl⟩

theorem test_hyp_EffectiveAddressesStayInRange : 7 ≤ (7 : BitVec 6).toNat ∧
    7 ≤ (63 : BitVec 6).toNat := by decide

theorem test_hyp_ScratchpadAboveMemIsUntouched : ∃ s t : State, 7 ≤ s.cfgMemLog2.toNat ∧
    exec (.mixs .l0) s = .next t ∧ memBytes s.cfgMemLog2 ≤ 128 :=
  ⟨ready iota 0, _, by decide, rfl, by decide⟩

theorem test_hyp_CompactStateWriters : ∃ s t : State, exec (.mixi .l0) s = .next t ∧
    (∀ l, Instr.mixi .l0 ≠ .implode l) ∧ (∀ l, Instr.mixi .l0 ≠ .core l) ∧ Instr.mixi .l0 ≠ .core2 :=
  ⟨ready iota 0, _, rfl, by simp, by simp, by simp⟩

/-- A locked machine meets the invariant, about to take a command. -/
theorem test_hyp_StepKeepsInvariant : ∃ s t : State, s.Inv ∧ step s = .next t :=
  ⟨taking (.regWrite 0x018 0) (ready iota 0), _,
    { build_legal := by decide
      not_busy := by decide
      ready_locked := fun _ => rfl
      unconfigured_unlocked := fun h => absurd h (by decide)
      locked_legal := fun _ => by decide
      code_zero := fun _ => rfl
      code_known := fun h => absurd h (by decide)
      done_ready := fun h => absurd h (by decide)
      lanes_sound := ⟨rfl, rfl⟩
      inbox_sound := by simp [taking, HostAccess.sound] }, rfl⟩

theorem test_hyp_NopSetsDone : (ready iota 0).run = .ready := rfl

/-- Both clauses at the bound: `KR = 9` and `KR = 10`. -/
theorem test_hyp_EncrAppliesOneRound : (ready iota 0).run = .ready ∧
    LaneId.exists (ready iota 0).build.nlanes .l1 = true ∧ (9 : BitVec 4).toNat ≤ 9 ∧
    9 < (10 : BitVec 4).toNat := by decide

/-- Both clauses: `KR = 6`, and `KR = 7` and `8` outside the list. -/
theorem test_hyp_KstepWritesTheNextPair : (ready iota 0).run = .ready ∧
    LaneId.exists (ready iota 0).build.nlanes .l1 = true ∧ (6 : BitVec 4) ∈ [0, 2, 4, 6] ∧
    (7 : BitVec 4) ∉ [0, 2, 4, 6] ∧ (8 : BitVec 4) ∉ [0, 2, 4, 6] := by decide

/-- The schedules of the examples exist. -/
theorem test_hyp_KexpWritesTheSchedule : (ready iota 0).run = .ready ∧
    LaneId.exists (ready iota 0).build.nlanes .l1 = true ∧
    (∃ k, IsSchedule ciphers Config.build 0 0 k) ∧
    ∃ k, IsSchedule ciphers Config.build 0x0f0e0d0c0b0a09080706050403020100
      0x1f1e1d1c1b1a19181716151413121110 k :=
  ⟨rfl, rfl, ⟨kexpf ciphers Config.build 0 0, by unfold IsSchedule; decide +kernel⟩,
    kexpf ciphers Config.build 0x0f0e0d0c0b0a09080706050403020100
      0x1f1e1d1c1b1a19181716151413121110, by unfold IsSchedule; decide +kernel⟩

theorem test_hyp_ExplodeFillsTheScratchpad : (ready iota 0).run = .ready ∧
    LaneId.exists (ready iota 0).build.nlanes .l1 = true ∧ 7 ≤ (ready iota 0).cfgMemLog2.toNat ∧
    0 < memBytes (ready iota 0).cfgMemLog2 / 128 := by decide

theorem test_hyp_MixiLoadsTheMixerRegisters : (ready iota 0).run = .ready ∧
    LaneId.exists (ready iota 0).build.nlanes .l1 = true ∧
    (ready iota 0).build.mixInit = Config.mixInit ∧
    ∀ a : Fin 64, iota.stByte a.val = BitVec.ofNat 8 a.val := by decide +kernel

theorem test_hyp_MixsPerformsTheNineSteps : (ready iota 0).run = .ready ∧
    LaneId.exists (ready iota 0).build.nlanes .l1 = true := by decide

/-- On an all-zero lane the round result's low half selects cell 3: with `IDX = 0` the two cells
differ, and byte 16 is outside both. -/
theorem test_hyp_MixsTouchesTwoCells :
    let l := Lane.reset
    let ea1 := ea Config.build 7 l.idx
    let ea2 := ea Config.build 7 (lo64 ((ciphersOf Config.build).round (l.memRead ea1) (cat l.ah l.al)))
    ea2 ≠ ea1 ∧ ea1 + 16 ≤ 16 ∧ 16 < ea2 := by decide +kernel

/-- With `IDX = 3` they are the same cell. -/
theorem test_hyp_MixsSameCellReadsItsOwnStore :
    let l : Lane := { Lane.reset with idx := 3 }
    let ea1 := ea Config.build 7 l.idx
    ea Config.build 7 (lo64 ((ciphersOf Config.build).round (l.memRead ea1) (cat l.ah l.al))) = ea1 ∧
      (ready l 0).run = .ready := by decide +kernel

theorem test_hyp_MixIsMixiThenIterations : (ready iota 3).run = .ready ∧
    LaneId.exists (ready iota 3).build.nlanes .l1 = true ∧ (ready iota 3).cfgIter.toNat = 3 := by decide

theorem test_hyp_ImplodeFoldsTheScratchpad : (ready iota 0).run = .ready ∧
    LaneId.exists (ready iota 0).build.nlanes .l1 = true ∧
    0 < memBytes (ready iota 0).cfgMemLog2 / 128 := by decide

theorem test_hyp_CoreIsExplodeMixImplode : (ready iota 3).run = .ready ∧
    LaneId.exists (ready iota 3).build.nlanes .l1 = true := by decide

/-- Both clauses: two lanes, and one. -/
theorem test_hyp_CoreTwoIsBothCoresInEitherOrder : (ready iota 0).run = .ready ∧
    (ready iota 0).build.nlanes = .two ∧
    ({ ready iota 0 with build := { Config.build with nlanes := .one } } : State).run = .ready := by
  decide

theorem test_hyp_DualLaneDecomposition : (ready iota 0).run = .ready ∧
    (ready iota 0).build.nlanes = .two := by decide

/-- Two different machines, two different lanes, the same 192 bytes. -/
theorem test_hyp_CoreIsPure : ∃ s s' : State, s ≠ s' ∧ s.run = .ready ∧ s'.run = .ready ∧
    LaneId.exists s.build.nlanes .l0 = true ∧ LaneId.exists s'.build.nlanes .l1 = true ∧
    s'.build = s.build ∧ s'.cfgMemLog2 = s.cfgMemLog2 ∧
    s'.cfgIter = s.cfgIter ∧ 7 ≤ s.cfgMemLog2.toNat ∧
    ∀ a, a < 192 → (s.lane .l0).stByte a = (s'.lane .l1).stByte a :=
  ⟨ready iota 0, ready keyed 0, by decide +kernel, rfl, rfl, rfl, rfl, rfl, rfl, rfl, by decide,
    fun _ _ => rfl⟩

theorem test_hyp_SingleLaneCommandsIgnoreTheOtherLane : laneOf (.core .l1) = some .l1 ∧
    (ready iota 0).run = .ready ∧
    (Instr.core .l1).wellFormed (ready iota 0).build.nlanes = true := by decide

theorem test_hyp_EncrkRoundsAllEightLanes : (ready iota 0).run = .ready ∧
    LaneId.exists (ready iota 0).build.nlanes .l1 = true ∧ (9 : BitVec 4).toNat ≤ 9 := by decide

/-- Both clauses: READY, and the three other run states. -/
theorem test_hyp_HashIsTheDigestOfCore : (ready iota 0).run = .ready ∧
    [RunState.unconfigured, .busy, .fault].all (fun r => decide ((inRun r).run ≠ .ready)) = true := by
  decide

/-- Both clauses: READY with two lanes, and not READY or one lane. -/
theorem test_hyp_DoubleHashIsTheConcatenation : (ready iota 0).run = .ready ∧
    (ready iota 0).build.nlanes = .two ∧ 7 ≤ (ready iota 0).cfgMemLog2.toNat ∧
    (inRun .fault).run ≠ .ready ∧
    (onBuild { Config.build with nlanes := .one } iota).build.nlanes = .one := by decide

theorem test_hyp_RoundByteByByte : (0 : Nat) < 4 ∧ (3 : Nat) < 4 := by decide

/-- Both clauses: zero, and an element with an inverse (`0x53` times `0xCA` is 1). -/
theorem test_hyp_SboxIsTheAffineMapOfTheInverse : (0 : Byte) = 0 ∧ (0x53 : Byte) ≠ 0 ∧
    gfMul 0x53 0xCA = 1 ∧ sbox 0x53 = sboxAffine 0xCA := by decide +kernel

/-- Windows at 0, 2 MiB and 4 MiB; the last byte of lane 1's scratchpad and of `REG`. -/
theorem test_hyp_PlatformWindowsAreDisjoint :
    Platform.legal Config.build ⟨0, 0x200000, 0x400000⟩ = true ∧
    (Located.spad .l1 0x1FFFFF).inWindow Config.build = true ∧
    (Located.reg 0xBFF).inWindow Config.build = true := by decide

end Sys2Proof.Tests
end

section
/-! SUPPORT. Everything one step can do, said once: the result of a host access, with the guard under
which it comes about (20_memory.md R72, R73, 60_exceptions.md R216 to R225). -/

namespace Sys2Proof.Machine

/-- The ways a host access can answer a next state: the relation between the machine before it, the
access, and the machine after it. -/
inductive AccessResult (s : State) : HostAccess → State → Prop
  /-- A write that changes nothing: to a read-only register (10_state.md section 7), to `CTRL` with
  `LOCK` 0 (R36), or in FAULT (60_exceptions.md R217). -/
  | ignored {a : HostAccess} (hrun : s.run ≠ .busy) : AccessResult s a s
  /-- A read: the reply only (20_memory.md R72). -/
  | replied {a : HostAccess} (r : Reply) : AccessResult s a { s with reply := r }
  /-- A fault (60_exceptions.md R216); the first one is kept (R217). -/
  | faulted {a : HostAccess} (c : FaultCode) (hrun : s.run = .unconfigured ∨ s.run = .ready) :
    AccessResult s a (s.raiseFault c)
  /-- `CFG_BACKEND` before the lock (10_state.md R33). -/
  | wroteCfgBackend {off : Nat} (v : W32) (hrun : s.run = .unconfigured) :
    AccessResult s (.regWrite off v) (s.writeCfgBackend v)
  /-- `CFG_MEM` before the lock (10_state.md R34). -/
  | wroteCfgMem {off : Nat} (v : W32) (hrun : s.run = .unconfigured) :
    AccessResult s (.regWrite off v) (s.writeCfgMem v)
  /-- `CFG_ITER` before the lock (10_state.md R35). -/
  | wroteCfgIter {off : Nat} (v : W32) (hrun : s.run = .unconfigured) :
    AccessResult s (.regWrite off v) (s.writeCfgIter v)
  /-- The lock, all checks passed (60_exceptions.md R213). -/
  | locked {off : Nat} {v : W32} (hrun : s.run = .unconfigured)
    (hhw : s.cfgBackendHw = true → s.build.hwCap = true)
    (hphys : s.cfgMemLog2.toNat ≤ s.build.memPhysLog2) (hmem : 7 ≤ s.cfgMemLog2.toNat) :
    AccessResult s (.regWrite off v) { s with lock := true, run := .ready }
  /-- A command run to completion (10_state.md R38). -/
  | completed {off : Nat} {w : W32} (i : Instr) (hrun : s.run = .ready)
    (hw : i.wellFormed s.build.nlanes = true) :
    AccessResult s (.regWrite off w) (effect i s.start).complete
  /-- A lane word stored (10_state.md R40). -/
  | storedWord {off : Nat} (l : LaneId) (r : LaneReg) (v : W32)
    (hrun : s.run = .unconfigured ∨ s.run = .ready) :
    AccessResult s (.regWrite off v) (s.onLane l (Lane.writeWord · r v))
  /-- Scratchpad bytes stored, inside the storage (20_memory.md R73). -/
  | storedBytes (l : LaneId) (a : Nat) (bs : List Byte)
    (hrun : s.run = .unconfigured ∨ s.run = .ready) (hrange : s.spadInRange l a bs.length = true) :
    AccessResult s (.spadWrite l a bs) (s.onLane l fun ln => { ln with sp := ln.sp.write a bs })
  /-- The external reset (10_state.md R42, 70_reset_and_hazards.md R240). -/
  | reset (lane0 lane1 : Lane) :
    AccessResult s (.reset lane0 lane1) (State.resetWith s.build lane0 lane1 s.inbox s.reply)

namespace AccessResult

variable {s t : State} {a : HostAccess}

theorem of_fault (hrun : s.run = .fault) : AccessResult s a s := .ignored (by simp [hrun])

theorem of_readOnlyWrite (h : readOnlyWrite s = .next t) : AccessResult s a t := by
  obtain ⟨hrun, rfl⟩ := readOnlyWrite_cases h
  exact .ignored hrun

theorem of_hostRead {b : Bool} {r : Reply} (h : hostRead s b r = .next t) :
    AccessResult s a t := by
  obtain ⟨-, rfl⟩ := hostRead_cases h
  exact .replied r

/-- A configuration write, given what its store does before the lock. -/
theorem of_configWrite {f : State → State}
    (hf : s.run = .unconfigured → AccessResult s a (f s)) (h : configWrite s f = .next t) :
    AccessResult s a t := by
  obtain ⟨hrun, rfl⟩ | ⟨hrun, rfl⟩ | ⟨hrun, rfl⟩ := configWrite_cases h
  · exact hf hrun
  · exact .faulted .cfgLocked (.inr hrun)
  · exact of_fault hrun

/-- A store to lane state, given what its store does outside FAULT. -/
theorem of_laneWrite {f : State → State}
    (hf : s.run = .unconfigured ∨ s.run = .ready → AccessResult s a (f s))
    (h : laneWrite s f = .next t) : AccessResult s a t := by
  obtain ⟨hrun, rfl⟩ | ⟨hrun, rfl⟩ := laneWrite_cases h
  · exact hf hrun
  · exact of_fault hrun

/-- A command write, given what its body does when the command is legal. -/
theorem of_command {legal : Bool} {body : State → State}
    (hbody : s.run = .ready → legal = true → AccessResult s a (body s.start).complete)
    (h : command legal body s = .next t) : AccessResult s a t := by
  obtain ⟨hrun, rfl⟩ | ⟨hrun, hlegal, rfl⟩ | ⟨hrun, -, rfl⟩ | ⟨hrun, rfl⟩ := command_cases h
  · exact .faulted .notConfigured (.inl hrun)
  · exact hbody hrun hlegal
  · exact .faulted .illegalCmd (.inr hrun)
  · exact of_fault hrun

theorem of_writeCtrl {off : Nat} {v : W32} (hrun : s.run = .unconfigured) :
    AccessResult s (.regWrite off v) (s.writeCtrl v) := by
  unfold State.writeCtrl
  split
  · obtain ⟨c, hc⟩ | ⟨hhw, hphys, hmem, ht⟩ := lockCheck_cases s
    · rw [hc]; exact .faulted c (.inl hrun)
    · rw [ht]; exact .locked hrun hhw hphys hmem
  · exact .ignored (by simp [hrun])

theorem of_cmdWrite {off : Nat} {w : W32} (h : cmdWrite w s = .next t) :
    AccessResult s (.regWrite off w) t := by
  unfold cmdWrite at h
  split at h
  · rename_i i _
    rw [exec_eq_command] at h
    exact of_command (.completed i) h
  · exact of_command (legal := false) (body := id) (fun _ hlegal => nomatch hlegal) h

theorem of_regWrite {off : Nat} {v : W32} (h : regWrite off v s = .next t) :
    AccessResult s (.regWrite off v) t := by
  unfold regWrite at h
  split at h
  case h_1 => exact absurd h (noRegister_ne_next _ _ _)
  case h_2 => exact of_readOnlyWrite h
  case h_3 => exact of_readOnlyWrite h
  case h_4 => exact of_configWrite (.wroteCfgBackend v) h
  case h_5 => exact of_configWrite (.wroteCfgMem v) h
  case h_6 => exact of_configWrite (.wroteCfgIter v) h
  case h_7 => exact of_configWrite of_writeCtrl h
  case h_8 => exact of_cmdWrite h
  case h_9 => exact of_readOnlyWrite h
  case h_10 => exact of_readOnlyWrite h
  case h_11 l r _ => exact of_laneWrite (.storedWord l r v) h

theorem of_spadWrite {l : LaneId} {n : Nat} {bs : List Byte} (h : spadWrite l n bs s = .next t) :
    AccessResult s (.spadWrite l n bs) t := by
  unfold spadWrite at h
  split at h
  · rename_i hrange
    exact of_laneWrite (fun hrun => .storedBytes l n bs hrun hrange) h
  · cases h

theorem of_spadRead {l : LaneId} {n k : Nat} (h : spadRead l n k s = .next t) :
    AccessResult s a t := by
  unfold spadRead at h
  split at h
  · exact of_hostRead h
  · cases h

/-- What an access can do when it answers a next state. -/
theorem of_access (h : access a s = .next t) : AccessResult s a t := by
  cases a with
  | regWrite off v => exact of_regWrite h
  | regRead off =>
    obtain ⟨r, rfl⟩ := regRead_cases h
    exact .replied r
  | spadWrite l n bs => exact of_spadWrite h
  | spadRead l n k => exact of_spadRead h
  | reset lane0 lane1 =>
    injection h with h
    subst h
    exact .reset lane0 lane1

end AccessResult

/-- What a step can do when it answers a next state: wait, or take the oldest access and perform it
(10_state.md R29). -/
theorem step_cases {s t : State} (h : step s = .next t) :
    (s.inbox = [] ∧ t = s) ∨
      ∃ a rest, s.inbox = a :: rest ∧ AccessResult { s with inbox := rest } a t := by
  unfold step at h
  split at h
  · rename_i hin
    injection h with h
    exact .inl ⟨hin, h.symm⟩
  · rename_i a rest hin
    exact .inr ⟨a, rest, hin, .of_access h⟩

end Sys2Proof.Machine
end

section
/-! PROOF. The build parameters are constants (00_scope.md R4, 10_state.md R21). -/

namespace Sys2Proof.Machine

/-- No access changes the build parameters; the reset keeps them by its definition. -/
theorem AccessResult.build_eq {s t : State} {a : HostAccess} (h : AccessResult s a t) :
    t.build = s.build := by
  cases h with
  | completed i _ _ => exact (sameControl_effect i s.start).build
  | storedWord l r v _ => exact s.onLane_build l _
  | storedBytes l n bs _ _ => exact s.onLane_build l _
  | _ => rfl

/-- Settles O18: a step waits or performs one access, and no access changes the build parameters. -/
theorem buildParametersAreConstant : Obligations.BuildParametersAreConstant := by
  intro s t h
  obtain ⟨-, rfl⟩ | ⟨a, rest, -, hres⟩ := step_cases h
  · rfl
  · exact hres.build_eq

end Sys2Proof.Machine
end

section
/-! PROOF. `MIXI` (43_mixer.md R161): the mixer registers loaded from the compact state. -/

namespace Sys2Proof.Machine

theorem Lane.xorWords_pair (l : Lane) (i j : Fin 24) :
    l.xorWords [i, j] = l.st64 i.val ^^^ l.st64 j.val := by
  simp [Lane.xorWords]

/-- `MIXI` under the default `MIXINIT`. -/
theorem Lane.mixi_default (l : Lane) {b : Config.Build} (hb : b.mixInit = Config.mixInit) :
    l.mixi b = { l with
      al := l.st64 0 ^^^ l.st64 4
      ah := l.st64 1 ^^^ l.st64 5
      bl := l.st64 2 ^^^ l.st64 6
      bh := l.st64 3 ^^^ l.st64 7
      idx := l.st64 0 ^^^ l.st64 4 } := by
  simp only [Lane.mixi, hb, Config.mixInit, Lane.xorWords_pair]
  rfl

/-- `MIXI` on an existing lane in READY rewrites that lane and sets `DONE`. -/
theorem exec_mixi_ready {s : State} {ln : LaneId} (hrun : s.run = .ready)
    (hln : ln.exists s.build.nlanes = true) :
    exec (.mixi ln) s = .next { s.setLane ln ((s.lane ln).mixi s.build) with done := true } :=
  exec_onLane hrun (by simpa [Instr.wellFormed, Instr.operandsLegal, Instr.lanesExist] using hln) rfl

/-- The 64-bit words of a compact state that counts up from 0 (the worked example of 43_mixer.md
R161). -/
theorem Lane.st64_of_counting {l : Lane} (hl : ∀ a, a < 64 → l.stByte a = BitVec.ofNat 8 a)
    {i : Nat} (hi : i < 8) : l.st64 i = BitVec.ofNat 64 (leRead (BitVec.ofNat 8) (8 * i) 8) := by
  unfold Lane.st64
  rw [leRead_congr fun k _ => hl (8 * i + k) (by omega)]

/-- The words four apart, which the default `MIXINIT` pairs, differ in bit 5 of every byte. -/
theorem Lane.st64_pair_of_counting {l : Lane}
    (hl : ∀ a, a < 64 → l.stByte a = BitVec.ofNat 8 a) {i : Nat} (hi : i < 4) :
    l.st64 i ^^^ l.st64 (i + 4) = 0x2020202020202020 := by
  rw [Lane.st64_of_counting hl (by omega), Lane.st64_of_counting hl (by omega)]
  revert i
  decide

/-- Settles O39: `MIXI` is the lane update of R161, and the example's words are read off its bytes. -/
theorem mixiLoadsTheMixerRegisters : Obligations.MixiLoadsTheMixerRegisters := by
  refine ⟨fun s ln hrun hln hb => ?_, by decide, fun l hl => ⟨?_, ?_, ?_⟩⟩
  · rw [exec_mixi_ready hrun hln, Lane.mixi_default _ hb]
  · rw [Lane.st64_of_counting hl (by decide)]
    decide
  · rw [Lane.st64_of_counting hl (by decide)]
    decide
  · have pair {i : Nat} := Lane.st64_pair_of_counting hl (i := i)
    rw [l.mixi_default rfl, pair (i := 0) (by decide), pair (i := 1) (by decide),
      pair (i := 2) (by decide), pair (i := 3) (by decide)]

end Sys2Proof.Machine
end

section
/-! PROOF. What each command does to the two lanes, said once: which lane it rewrites and by what, the
cells it writes in the scratchpad, the bytes of the compact state it can change (10_state.md R26, R27). -/

namespace Sys2Proof.Machine

/-! ## The lane effect of a command -/

/-- What a command does to a lane it acts on; `CORE2` does it to both (30_encoding.md R96). -/
def laneEffect (s : State) : Instr → Lane → Lane
  | .nop => id
  | .encr _ xd xs kr => Lane.encr (ciphersOf s.build) xd xs kr.toNat
  | .kstep _ kr rc => Lane.kstep (ciphersOf s.build) s.build kr.toNat rc
  | .kexp _ sel => Lane.kexp (ciphersOf s.build) s.build (seedOffset sel)
  | .explode _ => Lane.explode (ciphersOf s.build) s.build s.cfgMemLog2
  | .mixi _ => Lane.mixi s.build
  | .mixs _ => Lane.mixs (ciphersOf s.build) s.build s.cfgMemLog2
  | .mix _ => Lane.mix (ciphersOf s.build) s.build s.cfgMemLog2 s.cfgIter.toNat
  | .implode _ => Lane.implode (ciphersOf s.build) s.build s.cfgMemLog2
  | .core _ => Lane.core (ciphersOf s.build) s.build s.cfgMemLog2 s.cfgIter.toNat
  | .core2 => Lane.core (ciphersOf s.build) s.build s.cfgMemLog2 s.cfgIter.toNat

@[simp] theorem laneEffect_start (s : State) : laneEffect s.start = laneEffect s := rfl

/-- A lane after one lane is rewritten: rewritten too, or as before (10_state.md R28). -/
theorem State.lane_onLane_cases (s : State) (ln l : LaneId) (f : Lane → Lane) :
    (s.onLane l f).lane ln = s.lane ln ∨ (s.onLane l f).lane ln = f (s.lane ln) := by
  by_cases h : ln = l
  · subst h
    exact .inr (s.lane_onLane_same ln f)
  · exact .inl (s.lane_onLane_ne h f)

theorem lane_core2 (s : State) (ln : LaneId) :
    (effect .core2 s).lane ln = laneEffect s .core2 (s.lane ln) := by
  have hother : LaneId.l0 ≠ .l1 := by decide
  cases ln with
  | l0 => exact ((s.runCore .l0).lane_onLane_ne hother _).trans (s.lane_onLane_same .l0 _)
  | l1 => simp [effect, laneEffect, State.runCore, State.lane_onLane_ne _ hother.symm]

/-- A command leaves a lane as it was or applies its lane effect to it. -/
theorem lane_effect_cases (i : Instr) (s : State) (ln : LaneId) :
    (effect i s).lane ln = s.lane ln ∨ (effect i s).lane ln = laneEffect s i (s.lane ln) := by
  cases i with
  | nop => exact .inl rfl
  | core2 => exact .inr (lane_core2 s ln)
  | _ => exact s.lane_onLane_cases ln _ _

/-- So does the write to `CMD` that runs it, in every run state (60_exceptions.md R225). -/
theorem lane_exec_cases {i : Instr} {s t : State} (h : exec i s = .next t) (ln : LaneId) :
    t.lane ln = s.lane ln ∨ t.lane ln = laneEffect s i (s.lane ln) := by
  rw [exec_eq_command] at h
  obtain ⟨-, rfl⟩ | ⟨-, -, rfl⟩ | ⟨-, -, rfl⟩ | ⟨-, rfl⟩ := command_cases h
  · exact .inl (s.lane_raiseFault _ ln)
  · simpa using lane_effect_cases i s.start ln
  · exact .inl (s.lane_raiseFault _ ln)
  · exact .inl rfl

/-! ## The scratchpad -/

/-- A scratchpad after some 16-byte writes, each inside its first `n` bytes: how every command writes
it (20_memory.md R63, R66). -/
inductive Memory.CellWrites (n : Nat) (m : Memory) : Memory → Prop
  | none : CellWrites n m m
  | write {m' : Memory} (h : CellWrites n m m') (a : Nat) (v : W128) (ha : a + 16 ≤ n) :
    CellWrites n m (m'.write a (leBytes 16 v))

namespace Memory.CellWrites

variable {n : Nat} {m m' m'' : Memory}

theorem of_eq (h : m' = m) : CellWrites n m m' := h ▸ .none

theorem trans (h : CellWrites n m m') (h' : CellWrites n m' m'') : CellWrites n m m'' := by
  induction h' with
  | none => exact h
  | write _ a v ha ih => exact ih.write a v ha

/-- No byte at `n` or above is written. -/
theorem read_above (h : CellWrites n m m') {x : Nat} (hx : n ≤ x) : m'.read x = m.read x := by
  induction h with
  | none => rfl
  | write _ a v ha ih => rw [read_write_outside _ _ _ (by rw [leBytes_length]; omega), ih]

theorem wf (h : CellWrites n m m') (hm : m.wf = true) : m'.wf = true := by
  induction h with
  | none => exact hm
  | write _ a v _ ih => exact wf_write ih a _

theorem within {p : Nat} (h : CellWrites n m m') (hn : n ≤ 2 ^ p) (hm : m.within p = true) :
    m'.within p = true := by
  induction h with
  | none => exact hm
  | write _ a v ha ih => exact within_write ih a _ (by rw [leBytes_length]; omega)

/-- A loop whose turns write cells writes cells. -/
theorem forRange {f : Nat → Lane → Lane} {i k : Nat}
    (hf : ∀ j l, j < k → CellWrites n l.sp (f (i + j) l).sp) (l : Lane) :
    CellWrites n l.sp (Machine.forRange f i k l).sp :=
  forRange_inv (fun _ l' => CellWrites n l.sp l'.sp) .none fun j l' hj ih => ih.trans (hf j l' hj)

end Memory.CellWrites

/-- A sound lane stays sound under cell writes inside its storage (10_state.md R27). -/
theorem Lane.sound_of_cellWrites {n p : Nat} {l l' : Lane} (h : l.sp.CellWrites n l'.sp)
    (hn : n ≤ 2 ^ p) (hl : l.sound p = true) : l'.sound p = true := by
  simp only [Lane.sound, Bool.and_eq_true] at hl ⊢
  obtain ⟨hwf, hin⟩ := hl
  exact ⟨h.wf hwf, h.within hn hin⟩

section
variable {m : BitVec 6} (C : Config.Ciphers) (b : Config.Build) (l : Lane)

theorem Lane.cellWrites_memWrite {n a : Nat} (v : W128) (ha : a + 16 ≤ n) :
    l.sp.CellWrites n (l.memWrite a v).sp :=
  .write .none a v ha

/-- The chunks of `EXPLODE` divide the scratchpad (42_explode.md R151). -/
theorem Lane.cellWrites_explodeChunk {c : Nat} (hc : c < chunkCount m) :
    l.sp.CellWrites (memBytes m) (l.explodeChunk C c).sp := by
  have hc' : 128 * c + 128 ≤ memBytes m := by unfold chunkCount at hc; omega
  refine .trans (.of_eq (l.tenRounds_sp C)) (.forRange (fun j l' hj => ?_) (l.tenRounds C))
  exact l'.cellWrites_memWrite _ (by omega)

theorem Lane.cellWrites_explode : l.sp.CellWrites (memBytes m) (l.explode C b m).sp := by
  refine .trans (.of_eq ?_) (.forRange (fun c l' hc => ?_) ((l.kexp C b _).loadGroup _))
  · simp
  · rw [Nat.zero_add]
    exact l'.cellWrites_explodeChunk C hc

/-- A data-dependent cell lies inside the scratchpad (20_memory.md R66). -/
theorem ea_add_le (hm : 7 ≤ m.toNat) (idx : W64) : ea b m idx + 16 ≤ memBytes m := by
  have hcell := cellOf_le b m idx
  have hmem : memBytes m = 16 * 2 ^ (m.toNat - 4) := by
    rw [memBytes, show m.toNat = 4 + (m.toNat - 4) by omega, Nat.pow_add]
    simp
  have hpos : 0 < 2 ^ (m.toNat - 4) := Nat.two_pow_pos _
  rw [maskNat, if_pos (by omega)] at hcell
  rw [ea, hmem]
  omega

theorem Lane.cellWrites_mixs (hm : 7 ≤ m.toNat) :
    l.sp.CellWrites (memBytes m) (l.mixs C b m).sp :=
  .trans (l.cellWrites_memWrite _ (ea_add_le b hm _))
    ((l.mixFirst C b m).cellWrites_memWrite _ (ea_add_le b hm _))

theorem Lane.cellWrites_mix (hm : 7 ≤ m.toNat) (n : Nat) :
    l.sp.CellWrites (memBytes m) (l.mix C b m n).sp :=
  .trans (.of_eq (l.mixi_sp b)) (.forRange (fun _ l' _ => l'.cellWrites_mixs C b hm) (l.mixi b))

theorem Lane.cellWrites_core (hm : 7 ≤ m.toNat) (n : Nat) :
    l.sp.CellWrites (memBytes m) (l.core C b m n).sp := by
  rw [Lane.core, Lane.implode_sp]
  exact (l.cellWrites_explode C b).trans (Lane.cellWrites_mix C b _ hm n)

end

/-- Every command writes its lane's scratchpad by cells below `MEM` (10_state.md R27, 20_memory.md
R66). -/
theorem cellWrites_laneEffect {s : State} (hm : 7 ≤ s.cfgMemLog2.toNat) (i : Instr) (l : Lane) :
    l.sp.CellWrites (memBytes s.cfgMemLog2) (laneEffect s i l).sp := by
  cases i with
  | nop => exact .none
  | encr ln xd xs kr => exact .of_eq (l.setXreg_sp _ _)
  | kstep ln kr rc => exact .none
  | kexp ln sel => exact .of_eq (l.kexp_sp _ _ _)
  | explode ln => exact l.cellWrites_explode _ _
  | mixi ln => exact .of_eq (l.mixi_sp _)
  | mixs ln => exact l.cellWrites_mixs _ _ hm
  | mix ln => exact l.cellWrites_mix _ _ hm _
  | implode ln => exact .of_eq (l.implode_sp _ _ _)
  | core ln => exact l.cellWrites_core _ _ hm _
  | core2 => exact l.cellWrites_core _ _ hm _

/-- Settles O30: a command leaves a lane alone or writes cells below `MEM` in it. -/
theorem scratchpadAboveMemIsUntouched : Obligations.ScratchpadAboveMemIsUntouched := by
  intro i s t hm h ln a ha
  obtain hln | hln := lane_exec_cases h ln
  · rw [hln]
  · rw [hln]
    exact (cellWrites_laneEffect hm i (s.lane ln)).read_above ha

/-! ## The compact state -/

/-- `IMPLODE` writes `ST[64..191]` only (44_implode.md R181). -/
theorem Lane.stByte_implode_outside (C : Config.Ciphers) (b : Config.Build) (m : BitVec 6) (l : Lane)
    {a : Nat} (ha : a < 64 ∨ 192 ≤ a) : (l.implode C b m).stByte a = l.stByte a := by
  have hst : (forRange (Lane.implodeChunk C) 0 (chunkCount m)
      ((l.kexp C b (seedOffset .b)).loadGroup 64)).st = l.st :=
    (forRange_view Lane.st (fun _ _ => by simp) _ _ _).trans (by simp)
  rw [Lane.implode, Lane.stByte_writeGroup, if_neg (by omega), Lane.stByte, hst, Lane.stByte]

/-- `CORE` writes what its `IMPLODE` writes (45_pipeline.md R193). -/
theorem Lane.stByte_core_outside (C : Config.Ciphers) (b : Config.Build) (m : BitVec 6) (n : Nat)
    (l : Lane) {a : Nat} (ha : a < 64 ∨ 192 ≤ a) : (l.core C b m n).stByte a = l.stByte a := by
  rw [Lane.core, Lane.stByte_implode_outside C b m _ ha, Lane.stByte, Lane.mix_st, Lane.explode_st,
    Lane.stByte]

/-- The three commands that write the compact state (10_state.md R26). -/
def writesSt : Instr → Bool
  | .implode _ => true
  | .core _ => true
  | .core2 => true
  | _ => false

theorem laneEffect_st {i : Instr} (hi : writesSt i = false) (s : State) (l : Lane) :
    (laneEffect s i l).st = l.st := by
  cases i with
  | implode ln => cases hi
  | core ln => cases hi
  | core2 => cases hi
  | nop => rfl
  | encr ln xd xs kr => exact l.setXreg_st _ _
  | kstep ln kr rc => rfl
  | kexp ln sel => exact l.kexp_st _ _ _
  | explode ln => exact l.explode_st _ _ _
  | mixi ln => exact l.mixi_st _
  | mixs ln => exact l.mixs_st _ _ _
  | mix ln => exact l.mix_st _ _ _ _

/-- No command writes `ST[0..63]` or `ST[192..199]` (10_state.md R26, 45_pipeline.md R193). -/
theorem stByte_laneEffect_outside (s : State) (i : Instr) (l : Lane) {a : Nat}
    (ha : a < 64 ∨ 192 ≤ a) : (laneEffect s i l).stByte a = l.stByte a := by
  by_cases hi : writesSt i = false
  · rw [Lane.stByte, laneEffect_st hi, Lane.stByte]
  · cases i with
    | implode ln => exact l.stByte_implode_outside _ _ _ ha
    | core ln => exact l.stByte_core_outside _ _ _ _ ha
    | core2 => exact l.stByte_core_outside _ _ _ _ ha
    | _ => exact absurd rfl hi

theorem writesSt_eq_false {i : Instr} (himplode : ∀ l, i ≠ .implode l) (hcore : ∀ l, i ≠ .core l)
    (hcore2 : i ≠ .core2) : writesSt i = false := by
  cases i with
  | implode l => exact absurd rfl (himplode l)
  | core l => exact absurd rfl (hcore l)
  | core2 => exact absurd rfl hcore2
  | _ => rfl

/-- Settles O31: a command leaves a lane alone or applies its lane effect, whose writes to `ST` are
those of `IMPLODE`. -/
theorem compactStateWriters : Obligations.CompactStateWriters := by
  intro i s t h ln
  obtain hln | hln := lane_exec_cases h ln
  · rw [hln]
    exact ⟨fun _ _ => rfl, fun _ _ _ => rfl⟩
  · rw [hln]
    exact ⟨fun a ha => stByte_laneEffect_outside s i _ ha,
      fun himplode hcore hcore2 => laneEffect_st (writesSt_eq_false himplode hcore hcore2) s _⟩

end Sys2Proof.Machine
end

section
/-! PROOF. What every step keeps: the invariant of Safety.lean, and the configuration after the lock
(10_state.md R27 to R43, 60_exceptions.md R211 to R217). -/

namespace Sys2Proof.Machine

/-! ## The invariant -/

theorem State.Inv.lane_sound {s : State} (hs : s.Inv) (ln : LaneId) :
    (s.lane ln).sound s.build.memPhysLog2 = true := by
  obtain ⟨h0, h1⟩ := hs.lanes_sound
  cases ln with
  | l0 => exact h0
  | l1 => exact h1

/-- `MEM` lies in the storage of a locked machine (60_exceptions.md R213). -/
theorem State.Inv.memBytes_le {s : State} (hs : s.Inv) (hlock : s.lock = true) :
    memBytes s.cfgMemLog2 ≤ 2 ^ s.build.memPhysLog2 :=
  Nat.pow_le_pow_right (by decide) (hs.locked_legal hlock).2.1

/-- The invariant looks at the lanes only for their soundness. -/
theorem State.Inv.of_sameControl {s t : State} (hs : s.Inv) (h : SameControl s t)
    (hlanes : ∀ ln, (t.lane ln).sound s.build.memPhysLog2 = true) : t.Inv where
  build_legal := by rw [h.build]; exact hs.build_legal
  not_busy := by rw [h.run]; exact hs.not_busy
  ready_locked := by rw [h.run, h.lock]; exact hs.ready_locked
  unconfigured_unlocked := by rw [h.run, h.lock]; exact hs.unconfigured_unlocked
  locked_legal := by rw [h.lock, h.memLog2, h.build, h.hw]; exact hs.locked_legal
  code_zero := by rw [h.run, h.faultCode]; exact hs.code_zero
  code_known := by rw [h.run, h.faultCode]; exact hs.code_known
  done_ready := by rw [h.done, h.run]; exact hs.done_ready
  lanes_sound := by rw [h.build]; exact ⟨hlanes .l0, hlanes .l1⟩
  inbox_sound := by rw [h.inbox, h.build]; exact hs.inbox_sound

/-- A rewrite of one lane keeps the invariant where it keeps the lane sound. -/
theorem State.Inv.onLane {s : State} (hs : s.Inv) (l : LaneId) {f : Lane → Lane}
    (hf : (f (s.lane l)).sound s.build.memPhysLog2 = true) : (s.onLane l f).Inv := by
  refine hs.of_sameControl (sameControl_onLane s l f) fun ln => ?_
  by_cases h : ln = l
  · subst h
    rw [State.lane_onLane_same]
    exact hf
  · rw [s.lane_onLane_ne h]
    exact hs.lane_sound ln

/-- Taking accesses off the list keeps the invariant. -/
theorem State.Inv.withInbox {s : State} (hs : s.Inv) {rest : List HostAccess}
    (hrest : ∀ a ∈ rest, a ∈ s.inbox) : State.Inv { s with inbox := rest } :=
  { hs with inbox_sound := fun a ha => hs.inbox_sound a (hrest a ha) }

theorem faultNumber_mem_recordedCodes (c : FaultCode) : faultNumber c ∈ recordedCodes := by
  cases c <;> decide

/-- A raised fault leaves one of the recorded codes and `DONE` clear (60_exceptions.md R216). -/
theorem State.Inv.raiseFault {s : State} (hs : s.Inv) (c : FaultCode) : (s.raiseFault c).Inv :=
  { hs with
    not_busy := nofun
    ready_locked := nofun
    unconfigured_unlocked := nofun
    code_zero := fun h => absurd rfl h
    code_known := fun _ => faultNumber_mem_recordedCodes c
    done_ready := nofun }

/-- The lock enters READY under a configuration that passed the check (60_exceptions.md R213). -/
theorem State.Inv.locked {s : State} (hs : s.Inv) (hrun : s.run = .unconfigured)
    (hhw : s.cfgBackendHw = true → s.build.hwCap = true)
    (hphys : s.cfgMemLog2.toNat ≤ s.build.memPhysLog2) (hmem : 7 ≤ s.cfgMemLog2.toNat) :
    State.Inv { s with lock := true, run := .ready } :=
  { hs with
    not_busy := nofun
    ready_locked := fun _ => rfl
    unconfigured_unlocked := nofun
    locked_legal := fun _ => ⟨hmem, hphys, hhw⟩
    code_zero := fun _ => hs.code_zero (by simp [hrun])
    code_known := nofun
    done_ready := fun _ => rfl }

/-- A command that completes is back in READY with both lanes sound (10_state.md R38). -/
theorem State.Inv.complete_effect {s : State} (hs : s.Inv) (hrun : s.run = .ready) (i : Instr) :
    (effect i s.start).complete.Inv := by
  have hlock := hs.ready_locked hrun
  have hmem := (hs.locked_legal hlock).1
  have hlanes : ∀ ln, ((effect i s.start).complete.lane ln).sound s.build.memPhysLog2 = true := by
    intro ln
    rw [State.lane_complete]
    obtain h | h := lane_effect_cases i s.start ln
    · rw [h]
      exact hs.lane_sound ln
    · rw [h]
      exact Lane.sound_of_cellWrites (cellWrites_laneEffect hmem i _) (hs.memBytes_le hlock)
        (hs.lane_sound ln)
  have hready : State.Inv { s with done := true } := { hs with done_ready := fun _ => hrun }
  have hctl := sameControl_effect i s.start
  refine hready.of_sameControl ?_ hlanes
  exact { hctl with run := hrun.symm, done := rfl }

/-- Reset leaves the values of the table and the lanes that come with it (10_state.md R42). -/
theorem State.Inv.resetWith {b : Config.Build} (hb : b.Legal) {l0 l1 : Lane}
    {inbox : List HostAccess} (reply : Reply) (h0 : l0.sound b.memPhysLog2 = true)
    (h1 : l1.sound b.memPhysLog2 = true) (hin : ∀ a ∈ inbox, a.sound b.memPhysLog2 = true) :
    (State.resetWith b l0 l1 inbox reply).Inv where
  build_legal := hb
  not_busy := nofun
  ready_locked := nofun
  unconfigured_unlocked := fun _ => rfl
  locked_legal := nofun
  code_zero := fun _ => rfl
  code_known := nofun
  done_ready := nofun
  lanes_sound := ⟨h0, h1⟩
  inbox_sound := hin

/-- A change of the configuration before the lock keeps the invariant: nothing is asked of a
configuration that is not locked (10_state.md R33 to R36). -/
theorem State.Inv.unlocked_config {s : State} (hs : s.Inv) (hrun : s.run = .unconfigured)
    (hw : Bool) (m : BitVec 6) (n : W32) :
    State.Inv { s with cfgBackendHw := hw, cfgMemLog2 := m, cfgIter := n } :=
  { hs with
    locked_legal := fun hlock => absurd hlock (by simp [hs.unconfigured_unlocked hrun]) }

/-- Bytes stored inside the storage keep a lane sound (20_memory.md R73). -/
theorem Lane.sound_write {p : Nat} {l : Lane} (hl : l.sound p = true) {a : Nat} {bs : List Byte}
    (h : a + bs.length ≤ 2 ^ p) : Lane.sound p { l with sp := l.sp.write a bs } = true := by
  simp only [Lane.sound, Bool.and_eq_true] at hl ⊢
  obtain ⟨hwf, hin⟩ := hl
  exact ⟨Memory.wf_write hwf a bs, Memory.within_write hin a bs h⟩

/-- Every access that answers a next state keeps the invariant. -/
theorem AccessResult.inv {s t : State} {a : HostAccess} (h : AccessResult s a t) (hs : s.Inv)
    (ha : a.sound s.build.memPhysLog2 = true) : t.Inv := by
  cases h with
  | ignored _ => exact hs
  | replied r => exact { hs with }
  | faulted c _ => exact hs.raiseFault c
  | wroteCfgBackend v hrun => exact hs.unlocked_config hrun _ _ _
  | wroteCfgMem v hrun => exact hs.unlocked_config hrun _ _ _
  | wroteCfgIter v hrun => exact hs.unlocked_config hrun _ _ _
  | locked hrun hhw hphys hmem => exact hs.locked hrun hhw hphys hmem
  | completed i hrun _ => exact hs.complete_effect hrun i
  | storedWord l r v _ =>
    exact hs.onLane l (Lane.sound_of_sp (Lane.writeWord_sp _ r v) (hs.lane_sound l))
  | storedBytes l n bs _ hrange =>
    rw [State.spadInRange, Bool.and_eq_true, decide_eq_true_eq] at hrange
    exact hs.onLane l (Lane.sound_write (hs.lane_sound l) hrange.2)
  | reset l0 l1 =>
    rw [HostAccess.sound, Bool.and_eq_true] at ha
    exact .resetWith hs.build_legal _ ha.1 ha.2 hs.inbox_sound

/-- Settles O33: a step waits or performs one access, and every access keeps the invariant. -/
theorem stepKeepsInvariant : Obligations.StepKeepsInvariant := by
  intro s t hs h
  obtain ⟨-, rfl⟩ | ⟨a, rest, hin, hres⟩ := step_cases h
  · exact hs
  · have hrest : State.Inv { s with inbox := rest } := hs.withInbox fun b hb => by simp [hin, hb]
    exact hres.inv hrest (hs.inbox_sound a (by simp [hin]))

/-- Settles O32: the reset state has the default build and empty scratchpads. -/
theorem resetStateMeetsInvariant : Obligations.ResetStateMeetsInvariant :=
  .resetWith (by decide) _ rfl rfl nofun

/-! ## The configuration after the lock -/

theorem SameControl.config_eq {s t : State} (h : SameControl s t) :
    t.cfgBackendHw = s.cfgBackendHw ∧ t.cfgMemLog2 = s.cfgMemLog2 ∧ t.cfgIter = s.cfgIter ∧
      t.lock = s.lock :=
  ⟨h.hw, h.memLog2, h.iter, h.lock⟩

/-- No access but a reset changes the configuration or the lock once UNCONFIGURED is left
(70_reset_and_hazards.md R247). -/
theorem AccessResult.config_eq {s t : State} {a : HostAccess} (h : AccessResult s a t)
    (hrun : s.run ≠ .unconfigured) (ha : ∀ l0 l1, a ≠ .reset l0 l1) :
    t.cfgBackendHw = s.cfgBackendHw ∧ t.cfgMemLog2 = s.cfgMemLog2 ∧ t.cfgIter = s.cfgIter ∧
      t.lock = s.lock := by
  cases h with
  | ignored _ => exact ⟨rfl, rfl, rfl, rfl⟩
  | replied r => exact ⟨rfl, rfl, rfl, rfl⟩
  | faulted c _ => exact ⟨rfl, rfl, rfl, rfl⟩
  | wroteCfgBackend v h => exact absurd h hrun
  | wroteCfgMem v h => exact absurd h hrun
  | wroteCfgIter v h => exact absurd h hrun
  | locked h _ _ _ => exact absurd h hrun
  | completed i _ _ => exact (sameControl_effect i s.start).config_eq
  | storedWord l r v _ => exact (sameControl_onLane s l _).config_eq
  | storedBytes l n bs _ _ => exact (sameControl_onLane s l _).config_eq
  | reset l0 l1 => exact absurd rfl (ha l0 l1)

/-- Settles O17: a step waits or performs one access, which is no reset. -/
theorem configurationIsImmutableAfterLock : Obligations.ConfigurationIsImmutableAfterLock := by
  intro s t hrun h hreset
  obtain ⟨-, rfl⟩ | ⟨a, rest, hin, hres⟩ := step_cases h
  · exact ⟨rfl, rfl, rfl, rfl⟩
  · exact hres.config_eq hrun fun l0 l1 ha => hreset l0 l1 (by simp [hin, ha])

end Sys2Proof.Machine
end

section
/-! PROOF. The register map in both directions (10_state.md R31 to R40), and what it says of the
accesses of the host: which stop, which answer, and what a write stores. -/

namespace Sys2Proof.Machine

/-! ## The register map -/

theorem mixRegNumber_of_mixRegOf {n : Nat} {r : MixReg} (h : mixRegOf n = some r) :
    mixRegNumber r = n := by
  unfold mixRegOf at h
  split at h <;> cases h <;> rfl

/-- A word found in a lane window has the offset it was found at (10_state.md R40). -/
theorem laneRegOffset_of_laneRegAt {n : Nat} {r : LaneReg} (h : laneRegAt n = some r) :
    laneRegOffset r = 4 * n := by
  unfold laneRegAt at h
  split at h
  case isTrue => cases h; rfl
  split at h
  case isTrue => cases h
  split at h
  case isTrue => cases h; simp only [laneRegOffset]; omega
  split at h
  case isTrue => cases h
  split at h
  case isTrue => cases h; simp only [laneRegOffset]; omega
  split at h
  case isTrue => cases h
  obtain ⟨m, hm, rfl⟩ := Option.map_eq_some_iff.1 h
  have hnum := mixRegNumber_of_mixRegOf hm
  simp only [laneRegOffset, hnum]
  omega

/-- A register of a build: the lane of a lane word exists (10_state.md R40). -/
def Reg.Exists (n : Config.LaneCount) (r : Reg) : Prop :=
  ∀ l w, r = .lane l w → l.exists n = true

theorem Reg.exists_lane {n : Config.LaneCount} {l : LaneId} {w : LaneReg} (h : l.exists n = true) :
    (Reg.lane l w).Exists n := by
  rintro l' w' ⟨⟩
  exact h

/-- A register found in the global part has the offset it was found at (10_state.md R31 to R39). -/
theorem regOffset_of_globalRegAt {n : Nat} {r : Reg} (h : globalRegAt n = some r) :
    regOffset r = 4 * n ∧ ∀ l w, r ≠ .lane l w := by
  unfold globalRegAt at h
  split at h <;> cases h <;> exact ⟨rfl, nofun⟩

/-- A register found at an offset has that offset, and exists. -/
theorem regOffset_of_regAt {n : Config.LaneCount} {off : Nat} {r : Reg} (h : regAt n off = some r) :
    regOffset r = off ∧ r.Exists n := by
  unfold regAt at h
  split at h
  case isTrue => cases h
  split at h
  case isTrue =>
    obtain ⟨hoff, hglobal⟩ := regOffset_of_globalRegAt h
    exact ⟨by omega, fun l w hr => absurd hr (hglobal l w)⟩
  split at h
  case isTrue =>
    obtain ⟨w, hw, rfl⟩ := Option.map_eq_some_iff.1 h
    have hoff := laneRegOffset_of_laneRegAt hw
    exact ⟨by simp only [regOffset, windowBase]; omega, Reg.exists_lane rfl⟩
  split at h
  case isTrue hlt =>
    obtain ⟨w, hw, rfl⟩ := Option.map_eq_some_iff.1 h
    have hoff := laneRegOffset_of_laneRegAt hw
    refine ⟨by simp only [regOffset, windowBase]; omega, Reg.exists_lane ?_⟩
    cases n with
    | one => simp only [regSpaceBytes] at hlt; omega
    | two => rfl
  case isFalse => cases h

/-- An existing register is found at its offset. -/
theorem regAt_regOffset {n : Config.LaneCount} {r : Reg} (h : r.Exists n) :
    regAt n (regOffset r) = some r := by
  cases r with
  | lane l w => exact regAt_lane (h l w rfl) w
  | _ => rfl

theorem regAt_eq_some_iff {n : Config.LaneCount} {off : Nat} {r : Reg} :
    regAt n off = some r ↔ regOffset r = off ∧ r.Exists n := by
  refine ⟨regOffset_of_regAt, ?_⟩
  rintro ⟨rfl, h⟩
  exact regAt_regOffset h

/-- Settles O19: the map finds a register at its offset, and only there. -/
theorem registerMapRoundTrip : Obligations.RegisterMapRoundTrip :=
  fun _ _ _ => regAt_eq_some_iff

/-! ## Accesses where nothing is -/

theorem regAt_eq_none {n : Config.LaneCount} {off : Nat}
    (h : ∀ r : Reg, r.Exists n → regOffset r ≠ off) : regAt n off = none := by
  rw [Option.eq_none_iff_forall_ne_some]
  intro r hr
  obtain ⟨hoff, hex⟩ := regOffset_of_regAt hr
  exact h r hex hoff

theorem regWrite_undefined {s : State} {off : Nat} (h : regAt s.build.nlanes off = none) (v : W32) :
    regWrite off v s = noRegister s.build.nlanes off := by
  unfold regWrite
  rw [h]

theorem regRead_undefined {s : State} {off : Nat} (h : regAt s.build.nlanes off = none) :
    regRead off s = noRegister s.build.nlanes off := by
  unfold regRead
  rw [h]

theorem spadInRange_eq_false {s : State} {l : LaneId} {a n : Nat}
    (h : l.exists s.build.nlanes = false ∨ 2 ^ s.build.memPhysLog2 < a + n) :
    s.spadInRange l a n = false := by
  unfold State.spadInRange
  obtain h | h := h
  · rw [h, Bool.false_and]
  · rw [decide_eq_false (by omega), Bool.and_false]

theorem spadWrite_outside {s : State} {l : LaneId} {a : Nat} {bs : List Byte}
    (h : s.spadInRange l a bs.length = false) : spadWrite l a bs s = .fault .noSuchAddress := by
  unfold spadWrite
  rw [h]
  rfl

theorem spadRead_outside {s : State} {l : LaneId} {a n : Nat} (h : s.spadInRange l a n = false) :
    spadRead l a n s = .fault .noSuchAddress := by
  unfold spadRead
  rw [h]
  rfl

/-- Settles O14: no register is found at the offset, or the bytes are not in range. -/
theorem undefinedAddressesStop : Obligations.UndefinedAddressesStop := by
  refine fun s t => ⟨fun off hoff => ?_, fun l a bs hout => ?_⟩
  · have hnone : regAt s.build.nlanes off = none := regAt_eq_none hoff
    refine ⟨fun v => ?_, ?_⟩
    · rw [access, regWrite_undefined hnone]
      exact noRegister_ne_next _ _ _
    · rw [access, regRead_undefined hnone]
      exact noRegister_ne_next _ _ _
  · have hrange := spadInRange_eq_false hout
    rw [access, access, spadWrite_outside hrange, spadRead_outside hrange]
    exact ⟨nofun, nofun⟩

/-! ## Register reads -/

theorem access_regRead {s : State} {r : Reg} (h : r.Exists s.build.nlanes) :
    access (.regRead (regOffset r)) s = hostRead s (r == .status) (.word (s.readReg r)) := by
  simp only [access, regRead, regAt_regOffset h]

/-- A read is performed outside BUSY, and that of `STATUS` in BUSY too (10_state.md R38). -/
theorem hostRead_next {s : State} {b : Bool} (h : s.run = .busy → b = true) (r : Reply) :
    hostRead s b r = .next { s with reply := r } := by
  unfold hostRead
  cases hr : s.run with
  | busy => rw [h hr]
  | _ => rfl

/-- Settles O21: a read outside BUSY is performed, and answers the register's word. -/
theorem registerReadsHaveNoSideEffect : Obligations.RegisterReadsHaveNoSideEffect := by
  intro s r hrun h
  rw [access_regRead h]
  exact hostRead_next (fun hbusy => absurd hbusy hrun) _

/-! ## Accesses while BUSY -/

/-- A configuration write that is performed is not in BUSY (70_reset_and_hazards.md R245). -/
theorem not_busy_of_configWrite {s t : State} {f : State → State} (h : configWrite s f = .next t) :
    s.run ≠ .busy := by
  obtain ⟨hrun, -⟩ | ⟨hrun, -⟩ | ⟨hrun, -⟩ := configWrite_cases h <;> simp [hrun]

theorem not_busy_of_laneWrite {s t : State} {f : State → State} (h : laneWrite s f = .next t) :
    s.run ≠ .busy := by
  obtain ⟨hrun | hrun, -⟩ | ⟨hrun, -⟩ := laneWrite_cases h <;> simp [hrun]

theorem not_busy_of_command {s t : State} {legal : Bool} {body : State → State}
    (h : command legal body s = .next t) : s.run ≠ .busy :=
  fun hbusy => nomatch (command_busy hbusy).symm.trans h

theorem not_busy_of_cmdWrite {s t : State} {w : W32} (h : cmdWrite w s = .next t) :
    s.run ≠ .busy := by
  unfold cmdWrite at h
  split at h
  · rw [exec_eq_command] at h
    exact not_busy_of_command h
  · exact not_busy_of_command (legal := false) (body := id) h

theorem not_busy_of_regWrite {s t : State} {off : Nat} {v : W32} (h : regWrite off v s = .next t) :
    s.run ≠ .busy := by
  unfold regWrite at h
  split at h
  case h_1 => exact absurd h (noRegister_ne_next _ _ _)
  case h_2 => exact (readOnlyWrite_cases h).1
  case h_3 => exact (readOnlyWrite_cases h).1
  case h_4 => exact not_busy_of_configWrite h
  case h_5 => exact not_busy_of_configWrite h
  case h_6 => exact not_busy_of_configWrite h
  case h_7 => exact not_busy_of_configWrite h
  case h_8 => exact not_busy_of_cmdWrite h
  case h_9 => exact (readOnlyWrite_cases h).1
  case h_10 => exact (readOnlyWrite_cases h).1
  case h_11 => exact not_busy_of_laneWrite h

theorem not_busy_of_spadWrite {s t : State} {l : LaneId} {a : Nat} {bs : List Byte}
    (h : spadWrite l a bs s = .next t) : s.run ≠ .busy := by
  unfold spadWrite at h
  split at h
  · exact not_busy_of_laneWrite h
  · cases h

theorem not_busy_of_spadRead {s t : State} {l : LaneId} {a n : Nat}
    (h : spadRead l a n s = .next t) : s.run ≠ .busy := by
  unfold spadRead at h
  split at h
  · exact fun hbusy => nomatch (hostRead_cases h).1 hbusy
  · cases h

/-- The only register read while BUSY is `STATUS` (10_state.md R38). -/
theorem regRead_busy {s t : State} {off : Nat} (hbusy : s.run = .busy)
    (h : regRead off s = .next t) : off = regOffset .status := by
  unfold regRead at h
  split at h
  · exact absurd h (noRegister_ne_next _ _ _)
  · rename_i r hr
    have hstatus : r = .status := by simpa using (hostRead_cases h).1 hbusy
    rw [← (regOffset_of_regAt hr).1, hstatus]

/-- Settles O13: `STATUS` is the one read performed while BUSY, and no write is. -/
theorem busyAllowsStatusReadOnly : Obligations.BusyAllowsStatusReadOnly := by
  intro s hbusy
  refine ⟨hostRead_next (fun _ => rfl) _, fun l0 l1 => ⟨_, rfl⟩, fun a t hread hreset h => ?_⟩
  cases a with
  | regWrite off v => exact not_busy_of_regWrite h hbusy
  | regRead off => exact hread (congrArg HostAccess.regRead (regRead_busy hbusy h))
  | spadWrite l n bs => exact not_busy_of_spadWrite h hbusy
  | spadRead l n k => exact not_busy_of_spadRead h hbusy
  | reset l0 l1 => exact hreset l0 l1 rfl

/-! ## Register writes -/

/-- A write to a lane word by run state (10_state.md R40). -/
theorem access_regWrite_lane {s : State} {l : LaneId} (h : l.exists s.build.nlanes = true)
    (r : LaneReg) (v : W32) :
    access (.regWrite (regOffset (.lane l r)) v) s =
      laneWrite s fun s => s.onLane l (Lane.writeWord · r v) := by
  simp only [access, regWrite, regAt_lane h]

/-- A lane word stored in one lane reads back; every other register reads as before. -/
theorem State.readReg_onLane_writeWord (s : State) (l : LaneId) (r : LaneReg) (v : W32) (r' : Reg) :
    (s.onLane l (Lane.writeWord · r v)).readReg r' =
      if r' = .lane l r then v else s.readReg r' := by
  cases r' with
  | lane l' w =>
    by_cases hl : l' = l
    · subst hl
      simp only [State.readReg, State.lane_onLane_same, Lane.readWord_writeWord, Reg.lane.injEq,
        true_and]
    · rw [if_neg (by simp [hl]), State.readReg, State.readReg, s.lane_onLane_ne hl]
  | _ => cases l <;> rfl

theorem State.sp_onLane_writeWord (s : State) (l : LaneId) (r : LaneReg) (v : W32) (ln : LaneId) :
    ((s.onLane l (Lane.writeWord · r v)).lane ln).sp = (s.lane ln).sp := by
  obtain h | h := s.lane_onLane_cases ln l (Lane.writeWord · r v)
  · rw [h]
  · rw [h, Lane.writeWord_sp]

/-- Settles O20: the write rewrites the one lane by the one word. -/
theorem hostWriteStoresOneWord : Obligations.HostWriteStoresOneWord := by
  intro s l r v hrun hl
  refine ⟨s.onLane l (Lane.writeWord · r v), ?_, ?_, ?_, fun r' hr' => ?_,
    s.sp_onLane_writeWord l r v⟩
  · rw [access_regWrite_lane hl, laneWrite_next hrun]
  · cases l <;> rfl
  · rw [State.readReg_onLane_writeWord, if_pos rfl]
  · rw [State.readReg_onLane_writeWord, if_neg hr']

theorem configWrite_unconfigured {s : State} (h : s.run = .unconfigured) (f : State → State) :
    configWrite s f = .next (f s) := by
  unfold configWrite
  rw [h]

theorem readOnlyWrite_next {s : State} (h : s.run ≠ .busy) : readOnlyWrite s = .next s := by
  unfold readOnlyWrite
  cases hr : s.run with
  | busy => exact absurd hr h
  | _ => rfl

/-- A write to a register the host can only read (10_state.md R31, R32, R38, R39). -/
theorem access_regWrite_readOnly {off : Nat} (h : off ∈ [0x000, 0x004, 0x01C, 0x020]) (v : W32)
    (s : State) : access (.regWrite off v) s = readOnlyWrite s := by
  simp only [List.mem_cons, List.not_mem_nil, or_false] at h
  obtain rfl | rfl | rfl | rfl := h <;> rfl

/-- Settles O22: before the lock the three stores are performed; a read-only register ignores
writes. -/
theorem configurationWritesKeepDefinedBits : Obligations.ConfigurationWritesKeepDefinedBits := by
  refine fun s v => ⟨fun hrun => ⟨?_, ?_, ?_⟩, fun hrun off hoff => ?_⟩
  · exact configWrite_unconfigured hrun (State.writeCfgBackend · v)
  · exact configWrite_unconfigured hrun (State.writeCfgMem · v)
  · exact configWrite_unconfigured hrun (State.writeCfgIter · v)
  · rw [access_regWrite_readOnly hoff, readOnlyWrite_next hrun]

/-- Settles O10: before the lock a write to `CTRL` with bit 0 set runs the check of R213. -/
theorem lockRunsTheConfigurationCheck : Obligations.LockRunsTheConfigurationCheck := by
  intro s v hrun
  refine (configWrite_unconfigured hrun (State.writeCtrl · v)).trans (congrArg _ ?_)
  unfold State.writeCtrl
  cases v.getLsbD 0 with
  | false => rfl
  | true =>
    simp only [State.lockCheck, Bool.and_eq_true, Bool.not_eq_true', gt_iff_lt]
    rfl

/-! ## The step -/

/-- Settles O6: both clauses are the step's own two cases. -/
theorem stepTakesOneAccess : Obligations.StepTakesOneAccess := by
  intro s
  refine ⟨fun hin => ?_, fun a rest hin => ?_⟩
  · rw [step, hin]
  · rw [step, hin]

/-- Settles O5: the step takes the access, finds `CMD` at its offset and runs the command. -/
theorem stepRunsDecodedCommand : Obligations.StepRunsDecodedCommand := by
  intro s w rest i hin hdec
  rw [(stepTakesOneAccess s).2 _ rest hin]
  simp only [access, regWrite, regAt_cmd, cmdWrite, hdec]

end Sys2Proof.Machine
end

section
/-! PROOF. The words of the status, identity and configuration registers field by field (10_state.md
R31 to R39), and what reset leaves in them (R42). -/

namespace Sys2Proof.Machine

/-! ## `STATUS` -/

theorem statusWord_run (s : State) : s.statusWord.extractLsb' 0 2 = s.run.code :=
  BitVec.extractLsb'_append_eq_right

theorem statusWord_done (s : State) : s.statusWord.getLsbD 2 = s.done := by
  simp only [State.statusWord, BitVec.getLsbD_append]
  simp

theorem statusWord_low_reserved (s : State) : s.statusWord.extractLsb' 3 5 = 0 := by
  rw [State.statusWord, BitVec.extractLsb'_append_eq_of_le (by decide),
    BitVec.extractLsb'_append_eq_of_le (by decide), BitVec.extractLsb'_append_eq_right]

theorem statusWord_faultCode (s : State) : s.statusWord.extractLsb' 8 8 = s.faultCode := by
  rw [State.statusWord, BitVec.extractLsb'_append_eq_of_le (by decide),
    BitVec.extractLsb'_append_eq_of_le (by decide), BitVec.extractLsb'_append_eq_of_le (by decide),
    BitVec.extractLsb'_append_eq_right]

theorem statusWord_high_reserved (s : State) : s.statusWord.extractLsb' 16 16 = 0 := by
  rw [State.statusWord, BitVec.extractLsb'_append_eq_of_le (by decide),
    BitVec.extractLsb'_append_eq_of_le (by decide), BitVec.extractLsb'_append_eq_of_le (by decide),
    BitVec.extractLsb'_append_eq_left]

/-- Settles O23: the fields of `STATUS` are those put together. -/
theorem statusFields : Obligations.StatusFields := by
  intro s
  refine ⟨(statusWord_run s).trans ?_, statusWord_done s, statusWord_low_reserved s,
    statusWord_faultCode s, statusWord_high_reserved s⟩
  cases s.run <;> rfl

/-! ## `CAP`, `MASK` and the configuration registers -/

theorem capWord_hwCap (b : Config.Build) : (capWord b).getLsbD 0 = b.hwCap := by
  simp only [capWord, BitVec.getLsbD_append]
  simp

theorem capWord_dual (b : Config.Build) : (capWord b).getLsbD 1 = (b.nlanes == .two) := by
  simp only [capWord, BitVec.getLsbD_append]
  simp

theorem capWord_low_reserved (b : Config.Build) : (capWord b).extractLsb' 2 6 = 0 := by
  rw [capWord, BitVec.extractLsb'_append_eq_of_le (by decide),
    BitVec.extractLsb'_append_eq_of_le (by decide), BitVec.extractLsb'_append_eq_right]

theorem capWord_memPhysLog2 (b : Config.Build) :
    (capWord b).extractLsb' 8 6 = BitVec.ofNat 6 b.memPhysLog2 := by
  rw [capWord, BitVec.extractLsb'_append_eq_of_le (by decide),
    BitVec.extractLsb'_append_eq_of_le (by decide), BitVec.extractLsb'_append_eq_of_le (by decide),
    BitVec.extractLsb'_append_eq_right]

theorem capWord_high_reserved (b : Config.Build) : (capWord b).extractLsb' 14 18 = 0 := by
  rw [capWord, BitVec.extractLsb'_append_eq_of_le (by decide),
    BitVec.extractLsb'_append_eq_of_le (by decide), BitVec.extractLsb'_append_eq_of_le (by decide),
    BitVec.extractLsb'_append_eq_left]

/-- `MASK` as a number fits the register up to `MEM_LOG2 = 36` (10_state.md R39). -/
theorem maskWord_toNat {m : BitVec 6} (h : m.toNat ≤ 36) : (maskWord m).toNat = maskNat m := by
  have hlt : maskNat m < 2 ^ 32 := by
    unfold maskNat
    split
    · have hpow : 2 ^ (m.toNat - 4) ≤ 2 ^ 32 := Nat.pow_le_pow_right (by decide) (by omega)
      have hpos : 0 < 2 ^ (m.toNat - 4) := Nat.two_pow_pos _
      omega
    · decide
  rw [maskWord, if_pos h, BitVec.toNat_ofNat, Nat.mod_eq_of_lt hlt]

/-- Settles O24: the fields of `CAP` are those put together, the configuration registers read their
fields, and `MASK` reads its number where it fits. -/
theorem identityCapabilityAndMask : Obligations.IdentityCapabilityAndMask := by
  intro s
  refine ⟨rfl, rfl, capWord_hwCap _, capWord_dual _, capWord_low_reserved _, fun hphys => ?_,
    capWord_high_reserved _, ?_, BitVec.toNat_setWidth_of_le (by decide), rfl, ?_, maskWord_toNat⟩
  · rw [State.readReg, capWord_memPhysLog2, BitVec.toNat_ofNat, Nat.mod_eq_of_lt hphys]
  · rw [State.readReg, BitVec.toNat_setWidth_of_le (by decide), BitVec.toNat_ofBool]
  · rw [State.readReg, BitVec.toNat_setWidth_of_le (by decide), BitVec.toNat_ofBool]

/-! ## Reset -/

theorem resetWith_status (b : Config.Build) (l0 l1 : Lane) (inbox : List HostAccess)
    (reply : Reply) : (State.resetWith b l0 l1 inbox reply).readReg .status = 0 := by
  simp only [State.readReg, State.statusWord, State.resetWith]
  rfl

/-- Settles O26: reset answers the table of R42, and `State.reset` is one such state. -/
theorem resetLeavesTheStatedValues : Obligations.ResetLeavesTheStatedValues := by
  refine ⟨fun s l0 l1 => ⟨State.resetWith s.build l0 l1 s.inbox s.reply, ?_⟩, ?_⟩
  · exact ⟨rfl, resetWith_status .., rfl, rfl, rfl, rfl, rfl, rfl, rfl, rfl, rfl, rfl, rfl⟩
  · exact ⟨rfl, rfl, rfl, rfl, rfl, rfl, rfl, rfl, rfl, rfl⟩

end Sys2Proof.Machine
end

section
/-! PROOF. The canonical form of a scratchpad decides it (log 6). -/

namespace Sys2Proof.Machine

/-- A scratchpad in canonical form lists a cell exactly where it reads the cell's byte and that is not
the unlisted one. -/
theorem Memory.mem_iff_read {m : Memory} (h : m.wf = true) (c : Host.Cell) :
    c ∈ m ↔ m.read c.1 = c.2 ∧ c.2 ≠ Memory.unlisted := by
  obtain ⟨hrise, hlisted⟩ := m.wf_iff.1 h
  clear h
  induction m with
  | nil => simp [eq_comm]
  | cons d m ih =>
    obtain ⟨hd, hrise⟩ := List.pairwise_cons.1 hrise
    rw [Memory.read_cons, List.mem_cons]
    by_cases hcd : d.1 = c.1
    · have hnot : c ∉ m := fun hc => absurd (hd c hc) (by omega)
      rw [if_pos hcd, or_iff_left hnot]
      refine ⟨?_, fun ⟨hbyte, _⟩ => (Prod.ext hcd hbyte).symm⟩
      rintro rfl
      exact ⟨rfl, hlisted _ List.mem_cons_self⟩
    · have hne : c ≠ d := fun e => hcd (congrArg Prod.fst e.symm)
      rw [if_neg hcd, or_iff_right hne]
      exact ih hrise fun e he => hlisted e (List.mem_cons_of_mem d he)

/-- Settles O28: two lists in rising order that list the same cells are equal. -/
theorem canonicalMemoriesReadingAlikeAreEqual : Obligations.CanonicalMemoriesReadingAlikeAreEqual := by
  intro m m' h h' hread
  have hirrefl : Std.Irrefl fun c d : Host.Cell => c.1 < d.1 := ⟨fun c => Nat.lt_irrefl c.1⟩
  have hantisymm : Std.Antisymm fun c d : Host.Cell => c.1 < d.1 :=
    ⟨fun _ _ hcd hdc => absurd hdc (Nat.lt_asymm hcd)⟩
  refine (m.wf_iff.1 h).1.eq_of_mem_iff (m'.wf_iff.1 h').1 fun c => ?_
  rw [Memory.mem_iff_read h, Memory.mem_iff_read h', hread]

end Sys2Proof.Machine
end

section
/-! PROOF. The scratchpad (20_memory.md): its bytes after a store, the cell of a data-dependent index,
the host's accesses to it, and the bus addresses of its windows. -/

namespace Sys2Proof.Machine

/-! ## Cells -/

/-- Settles O27: the four clauses are the laws of a 16-byte write, byte by byte. -/
theorem cellReadAfterWrite : Obligations.CellReadAfterWrite := by
  refine fun l a v => ⟨l.memRead_memWrite_same a v, fun i hi => ?_, fun x hx => ?_, rfl⟩
  · rw [Lane.read_memWrite, if_pos (by omega), Nat.add_sub_cancel_left, byteOf]
  · rw [Lane.read_memWrite, if_neg (by omega)]

/-- A scratchpad of at least one cell is a whole number of cells (10_state.md R34). -/
theorem memBytes_eq {m : BitVec 6} (hm : 4 ≤ m.toNat) : memBytes m = 16 * 2 ^ (m.toNat - 4) := by
  rw [memBytes, ← Nat.pow_add 2 4, Nat.add_sub_cancel' hm]

/-- `MASK` is all ones, and fits the 64 bits it is extended to, so masking is reduction modulo the
number of cells (20_memory.md R65). -/
theorem cellOf_eq_mod (b : Config.Build) {m : BitVec 6} (hm : 4 ≤ m.toNat) (idx : W64) :
    cellOf b m idx = idx.toNat / 2 ^ idxShiftNat b.idxShift % 2 ^ (m.toNat - 4) := by
  have hmask : 2 ^ (m.toNat - 4) - 1 < 2 ^ 64 := by
    have hpow : 2 ^ (m.toNat - 4) ≤ 2 ^ 64 := Nat.pow_le_pow_right (by decide) (by omega)
    have hpos : 0 < 2 ^ (m.toNat - 4) := Nat.two_pow_pos _
    omega
  rw [cellOf, maskNat, if_pos hm, BitVec.toNat_and, BitVec.toNat_ofNat, Nat.mod_eq_of_lt hmask,
    Nat.and_two_pow_sub_one_eq_mod, BitVec.toNat_ushiftRight, Nat.shiftRight_eq_div_pow]

/-- Settles O29: `EA` is 16 times a cell number, which is reduced modulo the number of cells. -/
theorem effectiveAddressesStayInRange : Obligations.EffectiveAddressesStayInRange := by
  intro b m idx hm
  have hm4 : 4 ≤ m.toNat := by omega
  refine ⟨Nat.mul_mod_right 16 _, ea_add_le b hm idx, ?_⟩
  rw [ea, cellOf_eq_mod b hm4, memBytes_eq hm4, Nat.mul_div_cancel_left _ (by decide)]

/-! ## One cell selected twice -/

/-- `MIXS` on an existing lane in READY rewrites that lane and sets `DONE`. -/
theorem exec_mixs_ready {s : State} {ln : LaneId} (hrun : s.run = .ready)
    (hln : ln.exists s.build.nlanes = true) :
    exec (.mixs ln) s = .next { s.setLane ln
      ((s.lane ln).mixs (ciphersOf s.build) s.build s.cfgMemLog2) with done := true } :=
  exec_onLane hrun (by simpa [Instr.wellFormed, Instr.operandsLegal, Instr.lanesExist] using hln) rfl

/-- Where both indices select one cell, the iteration of R162 with the value step 3 stored in place of
the cell that step 5 loads (43_mixer.md R168). -/
theorem Lane.mixs_same_cell (C : Config.Ciphers) (b : Config.Build) (m : BitVec 6) (l : Lane) :
    let ea1 := ea b m l.idx
    let cx := C.round (l.memRead ea1) (cat l.ah l.al)
    ea b m (lo64 cx) = ea1 →
    let d := cx ^^^ cat l.bh l.bl
    let p := wideMul (lo64 cx) (lo64 d)
    l.mixs C b m =
      { (l.memWrite ea1 d).memWrite ea1 (cat (l.ah + lo64 p) (l.al + hi64 p)) with
        al := (l.al + hi64 p) ^^^ lo64 d
        ah := (l.ah + lo64 p) ^^^ hi64 d
        bl := lo64 cx
        bh := hi64 cx
        idx := (l.al + hi64 p) ^^^ lo64 d } := by
  intro ea1 cx hcell d p
  rw [Lane.mixs_eq]
  simp only [ea1, cx] at hcell
  simp only [hcell, Lane.memRead_memWrite_same]
  rfl

theorem State.lane_setLane_done (s : State) (ln : LaneId) (l : Lane) (b : Bool) :
    State.lane { s.setLane ln l with done := b } ln = l := by
  cases ln <;> rfl

/-- Settles O42: step 5 loads what step 3 stored, and step 8 stores over it. -/
theorem mixsSameCellReadsItsOwnStore : Obligations.MixsSameCellReadsItsOwnStore := by
  intro s ln hrun hln l ea1 cx hcell d p
  refine ⟨_, exec_mixs_ready hrun hln, ?_⟩
  rw [State.lane_setLane_done, Lane.mixs_same_cell _ _ _ _ hcell]
  exact ⟨Lane.memRead_memWrite_same _ ea1 _, rfl, rfl, rfl⟩

/-! ## The host's accesses -/

/-- The bytes of a written range, in order, are the byte string written (20_memory.md R73). -/
theorem Memory.range_read_write (m : Memory) (a : Nat) (bs : List Byte) :
    ((List.range bs.length).map fun i => (m.write a bs).read (a + i)) = bs := by
  refine List.ext_getElem (by simp) fun i _ hi => ?_
  rw [List.getElem_map, List.getElem_range, Memory.read_write, dif_pos (by omega)]
  simp only [Nat.add_sub_cancel_left]

theorem access_spadWrite_inside {s : State} {l : LaneId} {a : Nat} {bs : List Byte}
    (hrun : s.run = .unconfigured ∨ s.run = .ready) (h : s.spadInRange l a bs.length = true) :
    access (.spadWrite l a bs) s =
      .next (s.setLane l { s.lane l with sp := (s.lane l).sp.write a bs }) := by
  rw [access, spadWrite, if_pos h, laneWrite_next hrun, State.onLane]

theorem access_spadRead_inside {s : State} {l : LaneId} {a n : Nat} (hrun : s.run ≠ .busy)
    (h : s.spadInRange l a n = true) :
    access (.spadRead l a n) s = .next { s with
      reply := .bytes ((List.range n).map fun i => (s.lane l).sp.read (a + i)) } := by
  rw [access, spadRead, if_pos h, hostRead_next fun hbusy => absurd hbusy hrun]

/-- Settles O25: the write rewrites one scratchpad, and the read answers the bytes of it. -/
theorem scratchpadHostAccess : Obligations.ScratchpadHostAccess := by
  intro s l a bs hrun hl hbound
  have hrange : s.spadInRange l a bs.length = true := by simp [State.spadInRange, hl, hbound]
  refine ⟨_, access_spadWrite_inside hrun hrange, ?_, ?_, fun x hx => ?_⟩
  · rw [State.lane_setLane_same]
  · rw [access_spadRead_inside _ (by simpa [State.spadInRange] using hrange),
      State.lane_setLane_same, Memory.range_read_write]
    obtain h | h := hrun <;> simp [h]
  · rw [State.lane_setLane_same, Memory.read_write_outside _ _ _ (by omega)]

/-! ## The bus addresses -/

theorem apart_iff {a n b m : Nat} : apart a n b m = true ↔ a + n ≤ b ∨ b + m ≤ a := by
  simp [apart]

/-- The windows of a legal platform share no address (20_memory.md R71). -/
theorem Platform.apart_of_legal {b : Config.Build} {p : Platform} (h : p.legal b = true) :
    apart p.regBase (regSpaceBytes b.nlanes) p.spadBase0 (2 ^ b.memPhysLog2) = true ∧
      (b.nlanes = .two →
        apart p.regBase (regSpaceBytes b.nlanes) p.spadBase1 (2 ^ b.memPhysLog2) = true ∧
        apart p.spadBase0 (2 ^ b.memPhysLog2) p.spadBase1 (2 ^ b.memPhysLog2) = true) := by
  simp only [Platform.legal, Bool.and_eq_true, Bool.or_eq_true] at h
  obtain ⟨⟨-, h0⟩, h1⟩ := h
  refine ⟨h0, fun htwo => ?_⟩
  obtain hone | ⟨⟨-, hreg⟩, hspad⟩ := h1
  · rw [htwo] at hone
    cases hone
  · exact ⟨hreg, hspad⟩

/-- Settles O60: an address in one window fails the test of each window before it, as these are apart
from it, and its offset is what was added to the base. -/
theorem platformWindowsAreDisjoint : Obligations.PlatformWindowsAreDisjoint := by
  intro b p x hlegal hx
  obtain ⟨hreg0, htwo⟩ := Platform.apart_of_legal hlegal
  rw [apart_iff] at hreg0
  cases x with
  | reg off =>
    rw [Located.inWindow, decide_eq_true_eq] at hx
    rw [Platform.address, Platform.locate, if_pos (by omega), Nat.add_sub_cancel_left]
  | spad l a =>
    rw [Located.inWindow, Bool.and_eq_true, decide_eq_true_eq] at hx
    obtain ⟨hl, ha⟩ := hx
    cases l with
    | l0 =>
      rw [Platform.address, Platform.spadBase, Platform.locate, if_neg (by omega),
        if_pos (by omega), Nat.add_sub_cancel_left]
    | l1 =>
      have hn : b.nlanes = .two := by
        cases hb : b.nlanes with
        | one => rw [hb] at hl; cases hl
        | two => rfl
      obtain ⟨hreg1, hspad⟩ := htwo hn
      rw [apart_iff] at hreg1 hspad
      rw [Platform.address, Platform.spadBase, Platform.locate, if_neg (by omega),
        if_neg (by omega), if_pos ⟨hn, by omega⟩, Nat.add_sub_cancel_left]

end Sys2Proof.Machine
end

section
/-! PROOF. The command word (30_encoding.md R90 to R101): decoding and encoding are inverse to each other,
the rows of the decoder are those of the printed table, and the spec's examples. -/

namespace Sys2Proof

open Machine

/-! ## Fields by arithmetic -/

theorem toNat_extractLsb' (w : W32) (a k : Nat) :
    (w.extractLsb' a k).toNat = w.toNat / 2 ^ a % 2 ^ k := by
  rw [BitVec.extractLsb'_toNat, Nat.shiftRight_eq_div_pow]

theorem Field.ln_eq (w : W32) : Field.ln w = if lnOf w = 1 then .l1 else .l0 :=
  if_congr (by rw [BitVec.getLsbD, Nat.testBit_eq_decide_div_mod_eq, decide_eq_true_eq, lnOf]) rfl rfl

theorem Field.sel_eq (w : W32) : Field.sel w = if w.toNat / 2 ^ 15 % 2 = 1 then .b else .a :=
  if_congr (by rw [BitVec.getLsbD, Nat.testBit_eq_decide_div_mod_eq, decide_eq_true_eq]) rfl rfl

theorem Field.toNat_kr (w : W32) : (Field.kr w).toNat = krOf w := toNat_extractLsb' w 16 4

theorem LaneId.bit_ln (w : W32) : (Field.ln w).bit = w.extractLsb' 8 1 := by
  apply BitVec.eq_of_toNat_eq
  rw [Field.ln_eq, toNat_extractLsb', lnOf, pow_one]
  obtain h | h := Nat.mod_two_eq_zero_or_one (w.toNat / 2 ^ 8) <;> rw [h] <;> rfl

theorem Seed.bit_sel (w : W32) : (Field.sel w).bit = w.extractLsb' 15 1 := by
  apply BitVec.eq_of_toNat_eq
  rw [Field.sel_eq, toNat_extractLsb', pow_one]
  obtain h | h := Nat.mod_two_eq_zero_or_one (w.toNat / 2 ^ 15) <;> rw [h] <;> rfl

/-! ## A word from its fields -/

/-- An assembled word as a number, field by field (30_encoding.md R91). -/
theorem toNat_assemble (op : BitVec 8) (ln : BitVec 1) (xd xs : BitVec 3) (sel : BitVec 1)
    (kr : BitVec 4) (rc : BitVec 8) :
    (assemble op ln xd xs sel kr rc).toNat = op.toNat + 2 ^ 8 * ln.toNat + 2 ^ 9 * xd.toNat +
      2 ^ 12 * xs.toNat + 2 ^ 15 * sel.toNat + 2 ^ 16 * kr.toNat + 2 ^ 24 * rc.toNat := by
  simp only [assemble, append_toNat, BitVec.ofNat_eq_ofNat, BitVec.toNat_ofNat]
  omega

section

variable {op : BitVec 8} {ln sel : BitVec 1} {xd xs : BitVec 3} {kr : BitVec 4} {rc : BitVec 8}

@[simp] theorem Field.ln_assemble (l : LaneId) : Field.ln (assemble op l.bit xd xs sel kr rc) = l := by
  have h : lnOf (assemble op l.bit xd xs sel kr rc) = l.bit.toNat := by
    rw [lnOf, toNat_assemble]
    omega
  rw [Field.ln_eq, h]
  cases l <;> rfl

@[simp] theorem Field.sel_assemble (s : Seed) : Field.sel (assemble op ln xd xs s.bit kr rc) = s := by
  have h : (assemble op ln xd xs s.bit kr rc).toNat / 2 ^ 15 % 2 = s.bit.toNat := by
    rw [toNat_assemble]
    omega
  rw [Field.sel_eq, h]
  cases s <;> rfl

@[simp] theorem Field.xd_assemble (j : Fin 8) :
    Field.xd (assemble op ln (.ofFin j) xs sel kr rc) = j := by
  apply Fin.val_injective
  refine (toNat_extractLsb' _ _ _).trans ?_
  rw [toNat_assemble, BitVec.toNat_ofFin (n := 3) j]
  omega

@[simp] theorem Field.xs_assemble (j : Fin 8) :
    Field.xs (assemble op ln xd (.ofFin j) sel kr rc) = j := by
  apply Fin.val_injective
  refine (toNat_extractLsb' _ _ _).trans ?_
  rw [toNat_assemble, BitVec.toNat_ofFin (n := 3) j]
  omega

@[simp] theorem Field.kr_assemble : Field.kr (assemble op ln xd xs sel kr rc) = kr := by
  apply BitVec.eq_of_toNat_eq
  rw [Field.kr, toNat_extractLsb', toNat_assemble]
  omega

@[simp] theorem Field.rc_assemble : Field.rc (assemble op ln xd xs sel kr rc) = rc := by
  apply BitVec.eq_of_toNat_eq
  rw [Field.rc, toNat_extractLsb', toNat_assemble]
  omega

/-- A word whose `Z` is zero is its other fields laid out in order (30_encoding.md R91). -/
theorem assemble_fields {w : W32} (hop : Field.op w = op) (hln : w.extractLsb' 8 1 = ln)
    (hxd : w.extractLsb' 9 3 = xd) (hxs : w.extractLsb' 12 3 = xs) (hsel : w.extractLsb' 15 1 = sel)
    (hkr : w.extractLsb' 16 4 = kr) (hz : w.extractLsb' 20 4 = 0) (hrc : w.extractLsb' 24 8 = rc) :
    assemble op ln xd xs sel kr rc = w := by
  subst hop hln hxd hxs hsel hkr hrc
  have hz : w.toNat / 2 ^ 20 % 2 ^ 4 = 0 := by rw [← toNat_extractLsb', hz]; rfl
  apply BitVec.eq_of_toNat_eq
  simp only [toNat_assemble, Field.op, toNat_extractLsb']
  omega

end

/-! ## Masked words -/

/-- A field that a mask covers is read off the masked word. -/
theorem extractLsb'_of_masked {w mask v : W32} (h : w &&& mask = v) {a k : Nat}
    (hm : mask.extractLsb' a k = .allOnes k) : w.extractLsb' a k = v.extractLsb' a k := by
  rw [← h, BitVec.extractLsb'_and, hm, BitVec.and_allOnes]

/-- A masked field above the opcode is zero in a word that a row selects (30_encoding.md R100). -/
theorem extractLsb'_eq_zero {w mask : W32} {op : BitVec 8} (h : w &&& mask = op.setWidth 32) {a k : Nat}
    (ha : 8 ≤ a) (hm : mask.extractLsb' a k = .allOnes k) : w.extractLsb' a k = 0 := by
  rw [extractLsb'_of_masked h hm]
  ext i hi
  simp [BitVec.getLsbD_of_ge op (a + i) (by omega)]

/-! ## The rows of the decoder -/

/-- The opcodes of the table are 0 to 10 (30_encoding.md R97). -/
theorem eq_ofNat_of_rowOf {op : BitVec 8} {row : Row} (h : rowOf op = some row) :
    ∃ k < 11, op = .ofNat 8 k := by
  refine ⟨op.toNat, ?_, by simp⟩
  unfold rowOf at h
  split at h
  case h_12 => cases h
  all_goals omega

/-- Every row masks the whole opcode. -/
theorem op_mask_of_rowOf {op : BitVec 8} {row : Row} (h : rowOf op = some row) :
    Field.op row.mask = .allOnes 8 := by
  obtain ⟨k, hk, rfl⟩ := eq_ofNat_of_rowOf h
  interval_cases k <;> cases h <;> rfl

/-- A word that a row selects has the row's opcode. -/
theorem op_of_selected {op : BitVec 8} {row : Row} {w : W32} (hrow : rowOf op = some row)
    (hw : w &&& row.mask = op.setWidth 32) : Field.op w = op := by
  rw [Field.op, extractLsb'_of_masked hw (op_mask_of_rowOf hrow)]
  apply BitVec.eq_of_toNat_eq
  rw [toNat_extractLsb', BitVec.toNat_setWidth]
  omega

/-- What decodes to a command, and to which: a word that a row selects, to the command the row reads
from it, if that is well-formed (30_encoding.md R100). -/
theorem decode_eq_ok_iff {n : Config.LaneCount} {w : W32} {i : Instr} :
    decode n w = .ok i ↔ ∃ op row, rowOf op = some row ∧ w &&& row.mask = op.setWidth 32 ∧
      row.make w = i ∧ i.wellFormed n = true := by
  constructor
  · intro h
    unfold decode at h
    split at h
    · cases h
    · rename_i row hrow
      split_ifs at h with hmask hops hlanes
      cases h
      exact ⟨_, row, hrow, not_not.mp hmask, rfl, by simp [Instr.wellFormed, hops, hlanes]⟩
  · rintro ⟨op, row, hrow, hmask, rfl, hwf⟩
    obtain rfl := op_of_selected hrow hmask
    rw [Instr.wellFormed, Bool.and_eq_true] at hwf
    simp [decode, hrow, hmask, hwf]

/-! ## Decoding and encoding -/

/-- The word of every command selects a row. -/
theorem encode_selectsRow : ∀ i : Instr, Laws.SelectsRow.Statement i
  | .nop => Laws.SelectsRow.nop
  | .encr ln xd xs kr => Laws.SelectsRow.encr ln xd xs kr
  | .kstep ln kr rc => Laws.SelectsRow.kstep ln kr rc
  | .kexp ln sel => Laws.SelectsRow.kexp ln sel
  | .explode ln => Laws.SelectsRow.explode ln
  | .mixi ln => Laws.SelectsRow.mixi ln
  | .mixs ln => Laws.SelectsRow.mixs ln
  | .mix ln => Laws.SelectsRow.mix ln
  | .implode ln => Laws.SelectsRow.implode ln
  | .core ln => Laws.SelectsRow.core ln
  | .core2 => Laws.SelectsRow.core2

/-- The row of a command's word reads the command back. -/
theorem make_encode {i : Instr} {row : Row} (h : rowOf (Field.op (encode i)) = some row) :
    row.make (encode i) = i := by
  cases i <;> rw [encode, Laws.SelectsRow.op_assemble] at h <;> cases h <;> simp [encode]

/-- The command a row reads from a word it selects has that word as its encoding: every field is read
or masked. -/
theorem encode_make {op : BitVec 8} {row : Row} {w : W32} (hrow : rowOf op = some row)
    (hw : w &&& row.mask = op.setWidth 32) : encode (row.make w) = w := by
  have hop := op_of_selected hrow hw
  have hln := (LaneId.bit_ln w).symm
  have zero {a k : Nat} (ha : 8 ≤ a := by decide)
      (hm : row.mask.extractLsb' a k = .allOnes k := by decide) : w.extractLsb' a k = 0 :=
    extractLsb'_eq_zero hw ha hm
  obtain ⟨k, hk, rfl⟩ := eq_ofNat_of_rowOf hrow
  interval_cases k <;> cases hrow
  · exact assemble_fields hop zero zero zero zero zero zero zero
  · exact assemble_fields hop hln rfl rfl zero rfl zero zero
  · exact assemble_fields hop hln zero zero zero rfl zero rfl
  · exact assemble_fields hop hln zero zero (Seed.bit_sel w).symm zero zero zero
  iterate 6 exact assemble_fields hop hln zero zero zero zero zero zero
  · exact assemble_fields hop zero zero zero zero zero zero zero

/-- Settles O1: the word selects its row, and the row reads the command back. -/
theorem decodeOfEncode : Obligations.DecodeOfEncode := by
  intro n i hwf
  obtain ⟨row, hrow, hmask⟩ := encode_selectsRow i
  exact decode_eq_ok_iff.mpr ⟨_, row, hrow, hmask, make_encode hrow, hwf⟩

/-- Settles O2: the row that selects the word masks every field it does not read. -/
theorem decodedWordsAreEncodings : Obligations.DecodedWordsAreEncodings := by
  intro n w i h
  obtain ⟨op, row, hrow, hmask, rfl, hwf⟩ := decode_eq_ok_iff.mp h
  exact ⟨encode_make hrow hmask, hwf⟩

/-! ## The printed table -/

/-- A row of the decoder as the table prints it: match, mask, constraint (30_encoding.md R97). -/
def Row.printed (op : BitVec 8) (row : Row) : W32 × W32 × (Config.LaneCount → W32 → Bool) :=
  (op.setWidth 32, row.mask, fun n w => (row.make w).wellFormed n)

theorem exists_ln (n : Config.LaneCount) (w : W32) : (Field.ln w).exists n = laneBitLegal n w := by
  rw [Field.ln_eq, laneBitLegal]
  obtain h | h : lnOf w = 0 ∨ lnOf w = 1 := Nat.mod_two_eq_zero_or_one _ <;>
    simp [h, LaneId.exists]

theorem encrKeyLegal_kr (w : W32) : encrKeyLegal (Field.kr w) = decide (krOf w ≤ 9) := by
  rw [encrKeyLegal, Field.toNat_kr]

theorem kstepKeyLegal_kr (w : W32) :
    kstepKeyLegal (Field.kr w) = [0, 2, 4, 6].contains (krOf w) := by
  rw [← Field.toNat_kr]
  generalize Field.kr w = kr
  revert kr
  decide

/-- The printed table is the rows of the decoder, opcode by opcode. -/
theorem specTable_eq : specTable = (List.range 11).filterMap fun k =>
    (rowOf (.ofNat 8 k)).map (Row.printed (.ofNat 8 k)) := by
  have hlane : laneBitLegal = fun n w => (Field.ln w).exists n := by
    funext n w
    exact (exists_ln n w).symm
  simp only [specTable, hlane, ← encrKeyLegal_kr, ← kstepKeyLegal_kr]
  rfl

theorem mem_specTable_iff {p : W32 × W32 × (Config.LaneCount → W32 → Bool)} :
    p ∈ specTable ↔ ∃ op row, rowOf op = some row ∧ row.printed op = p := by
  simp only [specTable_eq, List.mem_filterMap, List.mem_range, Option.map_eq_some_iff]
  constructor
  · rintro ⟨k, -, row, hrow, rfl⟩
    exact ⟨_, row, hrow, rfl⟩
  · rintro ⟨op, row, hrow, rfl⟩
    obtain ⟨k, hk, rfl⟩ := eq_ofNat_of_rowOf hrow
    exact ⟨k, hk, row, hrow, rfl⟩

/-- Settles O3: the rows of the decoder, as the table prints them, are the printed rows. -/
theorem legalWordsAreTheTableRows : Obligations.LegalWordsAreTheTableRows := by
  intro n w
  simp only [decode_eq_ok_iff, mem_specTable_iff]
  constructor
  · rintro ⟨i, op, row, hrow, hmask, rfl, hwf⟩
    exact ⟨_, ⟨op, row, hrow, rfl⟩, hmask, hwf⟩
  · rintro ⟨-, ⟨op, row, hrow, rfl⟩, hmask, hwf⟩
    exact ⟨_, op, row, hrow, hmask, rfl, hwf⟩

/-! ## The spec's examples -/

/-- Each illegal example fails at the clause that R101 names. -/
theorem decode_specIllegalWords : ∀ w ∈ specIllegalWords, ∃ e, decode .two w = .error e := by
  simp only [specIllegalWords, List.forall_mem_cons]
  exact ⟨⟨.unknownOpcode, rfl⟩, ⟨.badKeyIndex, rfl⟩, ⟨.badKeyIndex, rfl⟩, ⟨.badKeyIndex, rfl⟩,
    ⟨.mustBeZero, rfl⟩, ⟨.mustBeZero, rfl⟩, ⟨.mustBeZero, rfl⟩, nofun⟩

/-- Settles O4: the examples are well-formed commands printed and encoded as listed, so O1 decodes
them. -/
theorem specExampleWords : Obligations.SpecExampleWords := by
  have hasm : ∀ p ∈ specWords, assembly p.2.2 = p.1 := by decide
  have henc : ∀ p ∈ specWords, encode p.2.2 = p.2.1 := by decide
  have hwf : ∀ p ∈ specWords, p.2.2.wellFormed .two = true := by decide
  refine ⟨fun p hp => ⟨hasm p hp, henc p hp, ?_⟩, fun w hw i hi => ?_⟩
  · rw [← henc p hp]
    exact decodeOfEncode .two p.2.2 (hwf p hp)
  · obtain ⟨e, he⟩ := decode_specIllegalWords w hw
    rw [he] at hi
    cases hi

end Sys2Proof
end

section
/-! PROOF. Commands on one lane issued one after the other, and the pseudo-command `ENCRK`
(30_encoding.md R103). -/

namespace Sys2Proof.Machine

/-- A single-lane command rewrites its lane (30_encoding.md R96). -/
theorem effect_eq_onLane {i : Instr} {ln : LaneId} (h : laneOf i = some ln) (s : State) :
    effect i s = s.onLane ln (laneEffect s i) := by
  cases i <;> cases h <;> rfl

/-- In READY, single-lane commands of one lane issued one after the other complete with their lane effects
in that order, and nothing else changes but `DONE` (45_pipeline.md R203). -/
theorem runCommands_onLane {ln : LaneId} {i : Instr} {is : List Instr} {s : State}
    (hrun : s.run = .ready)
    (his : ∀ j ∈ i :: is, laneOf j = some ln ∧ j.wellFormed s.build.nlanes = true) :
    runCommands (i :: is) s = .next { s.setLane ln
      ((i :: is).foldl (fun l j => laneEffect s j l) (s.lane ln)) with done := true } := by
  induction is generalizing i s with
  | nil =>
    obtain ⟨hln, hwf⟩ := his i (by simp)
    rw [runCommands, exec_onLane hrun hwf (effect_eq_onLane hln _)]
    rfl
  | cons j js ih =>
    obtain ⟨hln, hwf⟩ := his i (by simp)
    rw [runCommands, exec_onLane hrun hwf (effect_eq_onLane hln _)]
    dsimp only
    rw [ih (by simpa using hrun) (by simpa using fun k hk => his k (List.mem_cons_of_mem i hk))]
    cases ln <;> rfl

/-- The expansion of `ENCRK` on a lane is one round on its lane group (42_explode.md R151). -/
theorem foldl_encrk (s : State) (ln : LaneId) (kr : BitVec 4) (l : Lane) :
    (expand (.encrk ln kr)).foldl (fun l j => laneEffect s j l) l =
      l.roundGroup (ciphersOf s.build) kr.toNat := rfl

/-- A round on the lane group changes the `X` registers only. -/
theorem Lane.roundGroup_eq (C : Config.Ciphers) (r : Nat) (l : Lane) :
    l.roundGroup C r = { l with x := (l.roundGroup C r).x } := by
  rw [Lane.mk.injEq]
  simp

/-- Settles O51: the eight commands are one round on the lane group. -/
theorem encrkRoundsAllEightLanes : Obligations.EncrkRoundsAllEightLanes := by
  intro s ln kr hrun hln hkr
  refine ⟨((s.lane ln).roundGroup (ciphersOf s.build) kr.toNat).x, ?_,
    fun j hj => (s.lane ln).xreg_roundGroup _ _ hj⟩
  have his : ∀ i ∈ expand (.encrk ln kr), laneOf i = some ln ∧ i.wellFormed s.build.nlanes = true := by
    simp [expand, laneOf, Instr.wellFormed, Instr.operandsLegal, Instr.lanesExist, encrKeyLegal, hln,
      hkr]
  rw [← Lane.roundGroup_eq, ← foldl_encrk s ln]
  exact runCommands_onLane hrun his

end Sys2Proof.Machine
end

section
/-! PROOF. The round backend (40_round_backend.md): the default `ROUND` and `KEYGEN` by bytes and lanes,
the cascade, the commands `ENCR` and `KSTEP`, and the backend bit. -/

namespace Sys2Proof.Machine

/-! ## The round -/

/-- A 32-bit word is its four bytes (00_scope.md R6). -/
theorem byteOf_ext {v w : W32} (h : ∀ r, r < 4 → byteOf v r = byteOf w r) : v = w := by
  ext j hj
  have hbit := congrArg (·.getLsbD (j % 8)) (h (j / 8) (by omega))
  have hmod : j % 8 < 8 := Nat.mod_lt _ (by decide)
  simpa [byteOf, BitVec.getLsbD_extractLsb', hmod, Nat.div_add_mod,
    BitVec.getLsbD_eq_getElem hj] using hbit

/-- A rotation left by whole bytes moves the bytes. -/
theorem byteOf_rotateLeft (w : W32) {n r : Nat} (hn : n < 4) (hr : r < 4) :
    byteOf (w.rotateLeft (8 * n)) r = byteOf w ((r + 4 - n) % 4) := by
  ext j hj
  simp only [byteOf, BitVec.getElem_extractLsb', BitVec.getLsbD_rotateLeft]
  by_cases hlow : r < n
  · have hmod : (r + 4 - n) % 4 = r + 4 - n := Nat.mod_eq_of_lt (by omega)
    have hpos : 32 - 8 * n + (8 * r + j) = 8 * (r + 4 - n) + j := by omega
    have hwrap : 8 * r + j < 8 * n := by omega
    rw [Nat.mod_eq_of_lt (by omega : 8 * n < 32), hmod, hpos]
    simp [hwrap]
  · have hmod : (r + 4 - n) % 4 = r - n := by omega
    have hpos : 8 * r + j - 8 * n = 8 * (r - n) + j := by omega
    have hwrap : ¬ 8 * r + j < 8 * n := by omega
    have hin : 8 * r + j < 32 := by omega
    rw [Nat.mod_eq_of_lt (by omega : 8 * n < 32), hmod, hpos]
    simp [hwrap, hin]

theorem lane32_roundAes (x k : W128) {c : Nat} (hc : c < 4) :
    lane32 (roundAes x k) c = mixedColumn x c ^^^ lane32 k c := by
  rw [roundAes, lane32_xor]
  interval_cases c <;> simp

theorem lane32_roundTable (x k : W128) {c : Nat} (hc : c < 4) :
    lane32 (roundTable x k) c = tableColumn x c ^^^ lane32 k c := by
  rw [roundTable]
  interval_cases c <;> simp

/-- Row `r` of `Tn[v]` is row `r - n` of `T0[v]`, counted modulo 4 (40_round_backend.md R126). -/
theorem byteOf_tableEntry (v : Byte) {n r : Nat} (hn : n < 4) (hr : r < 4) :
    byteOf (tableEntry n v) r = byteOf (tableZero v) ((r + 4 - n) % 4) :=
  byteOf_rotateLeft _ hn hr

/-- The four table entries of a column add up to SubBytes, ShiftRows and MixColumns
(40_round_backend.md R126). -/
theorem tableColumn_eq_mixedColumn (x : W128) {c : Nat} (hc : c < 4) :
    tableColumn x c = mixedColumn x c := by
  refine byteOf_ext fun r hr => ?_
  simp only [tableColumn, byteOf_xor, byteOf_tableEntry _ (by decide : 0 < 4) hr,
    byteOf_tableEntry _ (by decide : 1 < 4) hr, byteOf_tableEntry _ (by decide : 2 < 4) hr,
    byteOf_tableEntry _ (by decide : 3 < 4) hr]
  interval_cases r <;>
    simp [tableZero, mixedColumn, shiftedByte, Nat.mod_eq_of_lt hc, Nat.add_comm]

/-- Settles O54: the two forms agree column by column. -/
theorem tableFormEqualsTheRound : Obligations.TableFormEqualsTheRound := by
  intro x k
  refine lane32_ext fun c hc => ?_
  rw [lane32_roundTable x k hc, lane32_roundAes x k hc, tableColumn_eq_mixedColumn x hc]

/-- AddRoundKey on one byte of a column (40_round_backend.md R125). -/
theorem byteOf_roundAes (x k : W128) {c r : Nat} (hc : c < 4) (hr : r < 4) :
    byteOf (roundAes x k) (4 * c + r) = byteOf (mixedColumn x c) r ^^^ byteOf k (4 * c + r) := by
  rw [← byteOf_lane32 _ c hr, lane32_roundAes x k hc, byteOf_xor, byteOf_lane32 _ c hr]

/-- Settles O55: each byte of a column is that row of MixColumns XORed with its key byte. -/
theorem roundByteByByte : Obligations.RoundByteByByte := by
  intro x k c hc a m2 m3
  have hbyte {r : Nat} (hr : r < 4) := byteOf_roundAes x k hc hr
  exact ⟨(hbyte (by decide)).trans (congrArg (· ^^^ _) (byteOf_ofBytes4_0 _ _ _ _)),
    (hbyte (by decide)).trans (congrArg (· ^^^ _) (byteOf_ofBytes4_1 _ _ _ _)),
    (hbyte (by decide)).trans (congrArg (· ^^^ _) (byteOf_ofBytes4_2 _ _ _ _)),
    (hbyte (by decide)).trans (congrArg (· ^^^ _) (byteOf_ofBytes4_3 _ _ _ _))⟩

/-! ## The S-box -/

/-- The inverse of the affine map of the S-box (40_round_backend.md R122). -/
def sboxAffineInv (z : Byte) : Byte :=
  z.rotateLeft 1 ^^^ z.rotateLeft 3 ^^^ z.rotateLeft 6 ^^^ 0x05

theorem sboxAffine_sboxAffineInv (z : Byte) : sboxAffine (sboxAffineInv z) = z := by
  revert z
  decide +kernel

/-- The table entry with the affine map undone is the inverse in GF(2^8), entry by entry. -/
theorem gfMul_sboxAffineInv_sbox (v : Byte) (hv : v ≠ 0) : gfMul v (sboxAffineInv (sbox v)) = 1 := by
  revert v
  decide +kernel

/-- Settles O56: the inverse is the table entry with the affine map undone. -/
theorem sboxIsTheAffineMapOfTheInverse : Obligations.SboxIsTheAffineMapOfTheInverse := by
  intro v
  refine ⟨sboxAffineInv (sbox v), ?_, gfMul_sboxAffineInv_sbox v, (sboxAffine_sboxAffineInv _).symm⟩
  rintro rfl
  decide

/-! ## The key generation and the cascade -/

/-- Settles O57: the lanes are those put together, `RotWord` being a rotation right by eight. -/
theorem keygenLanes : Obligations.KeygenLanes := by
  refine ⟨fun x rc => ?_, by decide, by decide⟩
  simp only [keygenAes, rotWord_eq, lane32_ofLanes_0, lane32_ofLanes_1, lane32_ofLanes_2,
    lane32_ofLanes_3]
  exact ⟨rfl, rfl, rfl, rfl⟩

/-- Lane `i` of the cascade: each of the three shifts adds the lane one further down, while there is one
(40_round_backend.md R128). -/
theorem lane32_cascade (s : W128) {i : Nat} (hi : i < 4) :
    lane32 (cascade s) i = lane32 s i ^^^ (if 1 ≤ i then lane32 s (i - 1) else 0) ^^^
      (if 2 ≤ i then lane32 s (i - 2) else 0) ^^^ (if 3 ≤ i then lane32 s (i - 3) else 0) := by
  simp only [cascade, lane32_xor, ← lane32_shiftLeft s hi]

/-- Settles O58: what the three shifts add to each lane. -/
theorem cascadeLanes : Obligations.CascadeLanes := by
  intro s
  refine ⟨?_, ?_, ?_, ?_⟩
  · simp [lane32_cascade]
  · simp [lane32_cascade, BitVec.xor_comm]
  · simp [lane32_cascade, BitVec.xor_comm, ← BitVec.xor_assoc]
  · simp [lane32_cascade, BitVec.xor_comm, ← BitVec.xor_assoc]

/-! ## `ENCR` and `KSTEP` -/

/-- A single-lane command on a lane the build has is legal when its operands are (30_encoding.md R99). -/
theorem wellFormed_of_laneOf {i : Instr} {ln : LaneId} {n : Config.LaneCount} (hi : laneOf i = some ln)
    (hln : ln.exists n = true) : i.wellFormed n = i.operandsLegal := by
  have hlanes : i.lanesExist n = true := by cases i <;> cases hi <;> exact hln
  rw [Instr.wellFormed, hlanes, Bool.and_true]

section

variable {i : Instr} {s : State} {ln : LaneId} (hrun : s.run = .ready) (hi : laneOf i = some ln)
  (hln : ln.exists s.build.nlanes = true)
include hrun hi hln

/-- With legal operands such a command in READY rewrites its lane and sets `DONE`. -/
theorem exec_laneEffect (hop : i.operandsLegal = true) :
    exec i s = .next { s.setLane ln (laneEffect s i (s.lane ln)) with done := true } :=
  exec_onLane hrun ((wellFormed_of_laneOf hi hln).trans hop) (effect_eq_onLane hi _)

/-- With illegal operands it takes fault 6 (60_exceptions.md R221; log 13). -/
theorem exec_illegalOperands (hop : i.operandsLegal = false) :
    exec i s = .next { s with run := .fault, faultCode := 6, done := false } := by
  rw [exec_eq_command, command_ready hrun, wellFormed_of_laneOf hi hln, hop]
  rfl

end

theorem fileWrite_lt {n w : Nat} (f : Vector (BitVec w) n) {i : Nat} (h : i < n) (v : BitVec w) :
    fileWrite f i v = f.set i v := by
  ext1 j hj
  simp [fileWrite, Vector.getElem_set, Vector.getElem_setIfInBounds]

/-- `ENCR` on a lane rewrites one `X` register (40_round_backend.md R130). -/
theorem Lane.encr_eq (C : Config.Ciphers) (l : Lane) (xd xs : Fin 8) {kr : Nat} (hkr : kr < 10) :
    l.encr C xd xs kr = { l with x := l.x.set xd (C.round l.x[xs] l.k[kr]) } := by
  rw [Lane.encr, Lane.setXreg, Lane.xreg, Lane.key, fileRead_lt _ xs.isLt, fileRead_lt _ hkr,
    fileWrite_lt _ xd.isLt]
  rfl

/-- Settles O35: a legal `ENCR` is its lane effect, an illegal one fault 6. -/
theorem encrAppliesOneRound : Obligations.EncrAppliesOneRound := by
  refine ⟨fun s ln xd xs kr hrun hln => ⟨fun hkr => ?_, fun hkr => ?_⟩, by decide, by decide⟩
  · have hlane := exec_laneEffect (i := .encr ln xd xs kr) hrun rfl hln (decide_eq_true hkr)
    rwa [laneEffect, Lane.encr_eq _ _ _ _ (Nat.lt_succ_of_le hkr)] at hlane
  · exact exec_illegalOperands hrun rfl hln (decide_eq_false (Nat.not_le_of_lt hkr))

theorem kstepKeyLegal_eq (kr : BitVec 4) : kstepKeyLegal kr = decide (kr ∈ [0, 2, 4, 6]) := by
  revert kr
  decide

/-- The pair a legal `KSTEP` writes exists (30_encoding.md R99). -/
theorem kstep_pair_lt {kr : BitVec 4} (hkr : kr ∈ [0, 2, 4, 6]) : kr.toNat + 3 < 10 := by
  revert kr
  decide

/-- The round keys after `KSTEP` (40_round_backend.md R132). -/
theorem Lane.key_kstep (C : Config.Ciphers) (b : Config.Build) {kr : Nat} (hkr : kr + 3 < 10)
    (rc : BitVec 8) (l : Lane) (r : Nat) :
    (l.kstep C b kr rc).key r =
      if r = kr + 3 then (kstepf C b rc (l.key kr) (l.key (kr + 1))).2
      else if r = kr + 2 then (kstepf C b rc (l.key kr) (l.key (kr + 1))).1 else l.key r := by
  rw [Lane.kstep, Lane.key_setKey _ hkr, Lane.key_setKey _ (by omega)]

/-- Settles O36: a legal `KSTEP` is its lane effect, which writes keys only, an illegal one fault 6. -/
theorem kstepWritesTheNextPair : Obligations.KstepWritesTheNextPair := by
  refine ⟨fun s ln kr rc hrun hln => ⟨fun hkr => ?_, fun hkr => ?_⟩, by decide, by decide,
    by decide⟩
  · have hkey := (s.lane ln).key_kstep (ciphersOf s.build) s.build (kstep_pair_lt hkr) rc
    refine ⟨_, exec_laneEffect hrun rfl hln ((kstepKeyLegal_eq kr).trans (decide_eq_true hkr)),
      fun r h2 h3 => ?_, ?_, ?_⟩
    · exact (hkey r).trans (by rw [if_neg h3, if_neg h2])
    · exact (hkey _).trans (by rw [if_neg (by omega), if_pos rfl]; rfl)
    · exact (hkey _).trans (by rw [if_pos rfl]; rfl)
  · exact exec_illegalOperands hrun rfl hln ((kstepKeyLegal_eq kr).trans (decide_eq_false hkr))

/-! ## The backend bit -/

/-- The machine with the backend bit set to a value (10_state.md R33). -/
def State.withBackend (hw : Bool) (s : State) : State := { s with cfgBackendHw := hw }

theorem State.onLane_withBackend (hw : Bool) (s : State) (ln : LaneId) (f : Lane → Lane) :
    (s.withBackend hw).onLane ln f = (s.onLane ln f).withBackend hw := by
  cases ln <;> rfl

theorem State.runCore_withBackend (hw : Bool) (s : State) (ln : LaneId) :
    (s.withBackend hw).runCore ln = (s.runCore ln).withBackend hw :=
  s.onLane_withBackend hw ln _

/-- No effect looks at the backend bit or writes it. -/
theorem effect_withBackend (i : Instr) (hw : Bool) (s : State) :
    effect i (s.withBackend hw) = (effect i s).withBackend hw := by
  cases i with
  | nop => rfl
  | core2 => simp only [effect, State.runCore_withBackend]
  | _ => exact s.onLane_withBackend hw _ _

/-- A command whose effect commutes with setting the backend bit does so in every run state
(60_exceptions.md R225). -/
theorem command_withBackend {legal : Bool} {body : State → State} {hw : Bool}
    (hbody : ∀ s, body (s.withBackend hw) = (body s).withBackend hw) (s : State) :
    command legal body (s.withBackend hw) = mapNext (State.withBackend hw) (command legal body s) := by
  have hrun : (s.withBackend hw).run = s.run := rfl
  cases hs : s.run with
  | unconfigured => rw [command_unconfigured hs, command_unconfigured (hrun.trans hs)]; rfl
  | fault => rw [command_fault hs, command_fault (hrun.trans hs)]; rfl
  | busy => rw [command_busy hs, command_busy (hrun.trans hs)]; rfl
  | ready =>
    rw [command_ready hs, command_ready (hrun.trans hs)]
    cases legal with
    | false => rfl
    | true => exact congrArg (fun t => Host.Outcome.next t.complete) (hbody s.start)

/-- Settles O50: every command is the shared operation on an effect that ignores the bit. -/
theorem backendHasNoEffect : Obligations.BackendHasNoEffect := by
  intro i s hw
  rw [exec_eq_command, exec_eq_command]
  exact command_withBackend (fun t => effect_withBackend i hw t) s

end Sys2Proof.Machine
end

section
/-! PROOF. The key schedule expander (41_key_schedule.md): the file it computes is the one schedule of its
seed, and `KEXP` writes it. -/

namespace Sys2Proof.Machine

/-- Step `i` of a schedule holds of a key file: keys `2i+2` and `2i+3` are one step from the two before
them (41_key_schedule.md R141). -/
def KexpStepHolds (C : Config.Ciphers) (b : Config.Build) (k : Vector W128 10) (i : Nat) : Prop :=
  (fileRead k (2 * i + 2), fileRead k (2 * i + 3)) =
    kstepf C b (fileRead b.rcon i) (fileRead k (2 * i)) (fileRead k (2 * i + 1))

section

variable {C : Config.Ciphers} {b : Config.Build} {s0 s2 : W128} {k k' : Vector W128 10}

/-- A schedule is its seed halves and four steps. -/
theorem isSchedule_iff_kexpStepHolds : IsSchedule C b s0 s2 k ↔
    fileRead k 0 = s0 ∧ fileRead k 1 = s2 ∧ ∀ i, i < 4 → KexpStepHolds C b k i := by
  constructor
  · rintro ⟨h0, h1, hstep0, hstep1, hstep2, hstep3⟩
    refine ⟨h0, h1, fun i hi => ?_⟩
    interval_cases i
    exacts [hstep0, hstep1, hstep2, hstep3]
  · rintro ⟨h0, h1, hstep⟩
    exact ⟨h0, h1, hstep 0 (by decide), hstep 1 (by decide), hstep 2 (by decide),
      hstep 3 (by decide)⟩

/-- Step `i` of the expansion keeps the keys before those it writes. -/
theorem fileRead_kexpStep_of_lt {i j : Nat} (hi : i < 4) (hj : j < 2 * i + 2) :
    fileRead (kexpStep C b i k) j = fileRead k j := by
  rw [fileRead_kexpStep C b hi, if_neg (by omega), if_neg (by omega)]

/-- After step `m` of the expansion it holds of the file, as each earlier step that held still does. -/
theorem kexpStepHolds_kexpStep {i m : Nat} (hm : m < 4) (hi : i < m + 1)
    (h : ∀ i, i < m → KexpStepHolds C b k i) : KexpStepHolds C b (kexpStep C b m k) i := by
  rw [KexpStepHolds, fileRead_kexpStep_of_lt hm (j := 2 * i) (by omega),
    fileRead_kexpStep_of_lt hm (j := 2 * i + 1) (by omega)]
  obtain hlt | rfl := Nat.lt_succ_iff_lt_or_eq.mp hi
  · rw [fileRead_kexpStep_of_lt hm (by omega), fileRead_kexpStep_of_lt hm (by omega)]
    exact h i hlt
  · simp [fileRead_kexpStep C b hm]

/-- What `KEXPF` computes is a schedule: the seed halves stand and after `n` turns the first `n` steps
hold. -/
theorem isSchedule_kexpf (C : Config.Ciphers) (b : Config.Build) (s0 s2 : W128) :
    IsSchedule C b s0 s2 (kexpf C b s0 s2) := by
  refine isSchedule_iff_kexpStepHolds.mpr (forRange_inv (n := 4)
    (P := fun n k => fileRead k 0 = s0 ∧ fileRead k 1 = s2 ∧ ∀ i, i < n → KexpStepHolds C b k i)
    ⟨rfl, rfl, fun i hi => absurd hi (Nat.not_lt_zero i)⟩ fun m k hm ⟨h0, h1, hstep⟩ => ?_)
  rw [Nat.zero_add]
  exact ⟨(fileRead_kexpStep_of_lt hm (by omega)).trans h0,
    (fileRead_kexpStep_of_lt hm (by omega)).trans h1, fun i hi => kexpStepHolds_kexpStep hm hi hstep⟩

/-- A seed has one schedule: the seed halves are its first two keys, and a step fixes the next two. -/
theorem IsSchedule.unique (h : IsSchedule C b s0 s2 k) (h' : IsSchedule C b s0 s2 k') : k = k' := by
  obtain ⟨h0, h1, hstep⟩ := isSchedule_iff_kexpStepHolds.mp h
  obtain ⟨h0', h1', hstep'⟩ := isSchedule_iff_kexpStepHolds.mp h'
  have hpair : ∀ i, i < 5 → fileRead k (2 * i) = fileRead k' (2 * i) ∧
      fileRead k (2 * i + 1) = fileRead k' (2 * i + 1) := by
    intro i hi
    induction i with
    | zero => exact ⟨h0.trans h0'.symm, h1.trans h1'.symm⟩
    | succ i ih =>
      obtain ⟨heven, hodd⟩ := ih (by omega)
      have hnext := hstep i (by omega)
      rw [KexpStepHolds, heven, hodd, ← hstep' i (by omega)] at hnext
      exact Prod.mk.inj hnext
  refine file_ext fun j hj => ?_
  obtain ⟨i, rfl | rfl⟩ := Nat.even_or_odd' j
  · exact (hpair i (by omega)).1
  · exact (hpair i (by omega)).2

end

/-- Settles O37: `KEXP` is its lane effect, which writes the keys only, and the key file of each example
is the one `KEXPF` computes. -/
theorem kexpWritesTheSchedule : Obligations.KexpWritesTheSchedule := by
  refine ⟨fun s ln sel hrun hln => ?_, by decide, fun k hk => ?_, fun k hk => ?_⟩
  · have hexec := exec_laneEffect (i := .kexp ln sel) hrun rfl hln rfl
    cases sel <;> exact ⟨_, hexec, isSchedule_kexpf _ _ _ _⟩
  · rw [hk.unique (isSchedule_kexpf _ _ _ _)]
    decide
  · rw [hk.unique (isSchedule_kexpf _ _ _ _)]
    decide

end Sys2Proof.Machine
end

section
/-! PROOF. The scratchpad expander (42_explode.md): the key file, the lane group and the cells that
`EXPLODE` leaves. -/

namespace Sys2Proof.Machine

/-- A scratchpad of at least one chunk is a whole number of chunks (42_explode.md R151). -/
theorem memBytes_eq_chunks {m : BitVec 6} (hm : 7 ≤ m.toNat) : memBytes m = 128 * chunkCount m := by
  have hdvd : 128 ∣ memBytes m := Nat.pow_dvd_pow 2 hm
  exact (Nat.mul_div_cancel' hdvd).symm

theorem chunkCount_pos {m : BitVec 6} (hm : 7 ≤ m.toNat) : 0 < chunkCount m :=
  Nat.div_pos (Nat.pow_le_pow_right (n := 2) (by decide) hm) (by decide)

section

variable (C : Config.Ciphers) (b : Config.Build) (m : BitVec 6) (l : Lane)

/-- `EXPLODE` leaves schedule A in the key file (42_explode.md R151). -/
theorem Lane.explode_k : (l.explode C b m).k = (l.kexp C b (seedOffset .a)).k :=
  (forRange_view Lane.k (fun _ _ => Lane.explodeChunk_k _ _ _) _ _ _).trans (Lane.loadGroup_k _ _)

/-- `EXPLODE` writes no field but the key file, the lane group and the scratchpad. -/
theorem Lane.explode_frame : l.explode C b m =
    { l with k := (l.explode C b m).k, x := (l.explode C b m).x, sp := (l.explode C b m).sp } := by
  rw [← l.explode_st C b m, ← l.explode_al C b m, ← l.explode_ah C b m, ← l.explode_bl C b m,
    ← l.explode_bh C b m, ← l.explode_idx C b m]

/-- The lane group that enters the chunk loop (42_explode.md R151). -/
theorem Lane.xreg_explodeLoad {j : Nat} (hj : j < 8) :
    ((l.kexp C b (seedOffset .a)).loadGroup (xinitOff b)).xreg j = l.st128 (xinitOff b + 16 * j) :=
  (Lane.xreg_loadGroup _ _ hj).trans (Lane.st128_congr (Lane.kexp_st _ _ _ _) _)

/-- The lane group after `EXPLODE`: ten rounds for each chunk (42_explode.md R152). -/
theorem Lane.xreg_explode {j : Nat} (hj : j < 8) :
    (l.explode C b m).xreg j = iterated (tenRoundsOf C (l.explode C b m).k) (chunkCount m)
      (l.st128 (xinitOff b + 16 * j)) := by
  rw [Lane.explode_k, Lane.explode, (Lane.explodeLoop C _ _).1 j hj, l.xreg_explodeLoad C b hj,
    Lane.loadGroup_k]

/-- Cell `j` of chunk `c` after `EXPLODE` (42_explode.md R152). -/
theorem Lane.memRead_explode {c j : Nat} (hc : c < chunkCount m) (hj : j < 8) :
    (l.explode C b m).memRead (128 * c + 16 * j) =
      iterated (tenRoundsOf C (l.explode C b m).k) (c + 1) (l.st128 (xinitOff b + 16 * j)) := by
  refine ofNat_leRead_eq (by rfl) _ _ _ fun i hi => ?_
  have hchunk : (128 * c + 16 * j + i) / 128 = c := by omega
  have hcell : (128 * c + 16 * j + i) % 128 / 16 = j := by omega
  have hbyte : (128 * c + 16 * j + i) % 16 = i := by omega
  rw [Lane.explode_k, Lane.explode, (Lane.explodeLoop C _ _).2, if_pos (by omega), hchunk, hcell,
    hbyte, l.xreg_explodeLoad C b hj, Lane.loadGroup_k]

/-- The lane group after `EXPLODE` is the last chunk written (42_explode.md R152). -/
theorem Lane.xreg_explode_eq_memRead (hm : 7 ≤ m.toNat) {j : Nat} (hj : j < 8) :
    (l.explode C b m).xreg j = (l.explode C b m).memRead (memBytes m - 128 + 16 * j) := by
  obtain ⟨n, hn⟩ := Nat.exists_eq_succ_of_ne_zero (chunkCount_pos hm).ne'
  have hlast : memBytes m - 128 = 128 * n := by rw [memBytes_eq_chunks hm]; omega
  rw [hlast, l.memRead_explode C b m (by omega) hj, l.xreg_explode C b m hj, hn]

end

/-- Settles O38: `EXPLODE` is its lane effect, whose key file is schedule A and whose chunk loop fills
the cells below `MEM`. -/
theorem explodeFillsTheScratchpad : Obligations.ExplodeFillsTheScratchpad := by
  intro s ln hrun hln hm
  refine ⟨_, exec_laneEffect (i := .explode ln) hrun rfl hln rfl, Lane.explode_frame _ _ _ _, ?_,
    fun c j hc hj => Lane.memRead_explode _ _ _ _ hc hj,
    fun j hj => Lane.xreg_explode_eq_memRead _ _ _ _ hm hj,
    fun a ha => (Lane.cellWrites_explode _ _ _).read_above ha⟩
  rw [laneEffect, Lane.explode_k]
  exact isSchedule_kexpf _ _ _ _

end Sys2Proof.Machine
end

section
/-! PROOF. The memory-hard mixer (43_mixer.md): the exact product, the nine steps of an iteration, the
bytes it writes, and the loop of `MIX`. -/

namespace Sys2Proof.Machine

/-! ## The product -/

theorem toNat_lo64 (v : W128) : (lo64 v).toNat = v.toNat % 2 ^ 64 := by
  rw [lo64, BitVec.extractLsb'_toNat, Nat.shiftRight_zero]

theorem toNat_hi64 (v : W128) : (hi64 v).toNat = v.toNat / 2 ^ 64 := by
  have hv := v.isLt
  rw [hi64, BitVec.extractLsb'_toNat, Nat.shiftRight_eq_div_pow]
  omega

/-- The product of two operands below `2^64` fits 128 bits (43_mixer.md R165). -/
theorem toNat_mul_le (a b : W64) : a.toNat * b.toNat ≤ (2 ^ 64 - 1) * (2 ^ 64 - 1) :=
  Nat.mul_le_mul (Nat.le_pred_of_lt a.isLt) (Nat.le_pred_of_lt b.isLt)

theorem toNat_wideMul (a b : W64) : (wideMul a b).toNat = a.toNat * b.toNat := by
  have hle := toNat_mul_le a b
  rw [wideMul, BitVec.toNat_mul, BitVec.toNat_setWidth_of_le (by decide),
    BitVec.toNat_setWidth_of_le (by decide), Nat.mod_eq_of_lt (by omega)]

/-- Settles O59: the halves are the quotient and the remainder of the product by `2^64`. -/
theorem wideProductIsExact : Obligations.WideProductIsExact := by
  intro a b
  have hle := toNat_mul_le a b
  rw [toNat_hi64, toNat_lo64, toNat_wideMul]
  omega

theorem hi64_wideMul (a b : W64) :
    hi64 (wideMul a b) = BitVec.ofNat 64 (a.toNat * b.toNat / 2 ^ 64) := by
  rw [← toNat_wideMul, ← toNat_hi64, BitVec.ofNat_toNat, BitVec.setWidth_eq]

theorem lo64_wideMul (a b : W64) :
    lo64 (wideMul a b) = BitVec.ofNat 64 (a.toNat * b.toNat % 2 ^ 64) := by
  rw [← toNat_wideMul, ← toNat_lo64, BitVec.ofNat_toNat, BitVec.setWidth_eq]

/-! ## One iteration -/

/-- Settles O40: the lane effect of `MIXS` in one piece, its product halves as the quotient and the
remainder by `2^64`. -/
theorem mixsPerformsTheNineSteps : Obligations.MixsPerformsTheNineSteps := by
  refine ⟨fun s ln hrun hln => ?_, by decide, by decide +kernel⟩
  have hexec := exec_mixs_ready hrun hln
  simp only [Lane.mixs_eq, hi64_wideMul, lo64_wideMul] at hexec
  exact hexec

/-- Two cells are one or disjoint: an effective address is a multiple of 16 (20_memory.md R66). -/
theorem ea_disjoint {b : Config.Build} {m : BitVec 6} {idx idx' : W64}
    (h : ea b m idx ≠ ea b m idx') :
    ea b m idx + 16 ≤ ea b m idx' ∨ ea b m idx' + 16 ≤ ea b m idx := by
  unfold ea at h ⊢
  omega

/-- The scratchpad after an iteration: the two stores of R162, in order. -/
theorem Lane.mixs_sp (C : Config.Ciphers) (b : Config.Build) (m : BitVec 6) (l : Lane) :
    let ea1 := ea b m l.idx
    let cx := C.round (l.memRead ea1) (cat l.ah l.al)
    ∃ v, (l.mixs C b m).sp =
      ((l.memWrite ea1 (cx ^^^ cat l.bh l.bl)).memWrite (ea b m (lo64 cx)) v).sp := by
  rw [Lane.mixs_eq]
  exact ⟨_, rfl⟩

/-- Settles O41: the scratchpad is that after two 16-byte stores, and two cells are one or disjoint. -/
theorem mixsTouchesTwoCells : Obligations.MixsTouchesTwoCells := by
  intro s ln hrun hln l ea1 cx ea2
  refine ⟨_, exec_mixs_ready hrun hln, ?_⟩
  rw [State.lane_setLane_done]
  obtain ⟨v, hsp⟩ : ∃ v, (l.mixs (ciphersOf s.build) s.build s.cfgMemLog2).sp =
      ((l.memWrite ea1 (cx ^^^ cat l.bh l.bl)).memWrite ea2 v).sp := l.mixs_sp _ _ _
  refine ⟨fun x h1 h2 => ?_, fun hne => ?_, Lane.mixs_k _ _ _ _, Lane.mixs_x _ _ _ _,
    Lane.mixs_st _ _ _ _, s.lane_setLane_ne (LaneId_other_ne ln) _⟩
  · rw [hsp, Lane.read_memWrite, if_neg (by omega), Lane.read_memWrite, if_neg (by omega)]
  · rw [Lane.memRead_sp hsp, Lane.memRead_memWrite_disjoint _ _ (ea_disjoint hne),
      Lane.memRead_memWrite_same]

/-! ## The loop -/

/-- A list of equal elements is folded by a loop that does not look at its counter. -/
theorem foldl_replicate_eq_forRange {α β : Type} (g : β → α → β) (x : α) (i n : Nat) (b : β) :
    (List.replicate n x).foldl g b = forRange (fun _ b => g b x) i n b := by
  induction n generalizing i b with
  | zero => rfl
  | succ n ih => exact ih (i + 1) (g b x)

/-- Settles O43: the commands complete with their lane effects in order, which is the loop of `MIX`. -/
theorem mixIsMixiThenIterations : Obligations.MixIsMixiThenIterations := by
  intro s ln hrun hln
  have his : ∀ j ∈ .mixi ln :: List.replicate s.cfgIter.toNat (.mixs ln),
      laneOf j = some ln ∧ j.wellFormed s.build.nlanes = true := by
    intro j hj
    obtain rfl | hj := List.mem_cons.mp hj
    · exact ⟨rfl, wellFormed_of_laneOf rfl hln⟩
    · rw [List.eq_of_mem_replicate hj]
      exact ⟨rfl, wellFormed_of_laneOf rfl hln⟩
  have hloop : (Instr.mixi ln :: List.replicate s.cfgIter.toNat (.mixs ln)).foldl
      (fun l j => laneEffect s j l) (s.lane ln) = laneEffect s (.mix ln) (s.lane ln) :=
    foldl_replicate_eq_forRange _ _ 1 _ _
  refine ⟨_, exec_laneEffect (i := .mix ln) hrun rfl hln rfl, ?_⟩
  rw [runCommands_onLane hrun his, hloop]

end Sys2Proof.Machine
end

section
/-! PROOF. The scratchpad compressor (44_implode.md): the key file, the lane group and the compact state
that `IMPLODE` leaves. -/

namespace Sys2Proof.Machine

/-- The cells of the compact state after the lane group is written back (44_implode.md R181). -/
theorem Lane.st128_writeGroup (l : Lane) {j : Nat} (hj : j < 8) :
    l.writeGroup.st128 (64 + 16 * j) = l.xreg j := by
  refine ofNat_leRead_eq (by rfl) _ _ _ fun i hi => ?_
  have hcell : (64 + 16 * j + i - 64) / 16 = j := by omega
  have hbyte : (64 + 16 * j + i) % 16 = i := by omega
  rw [Lane.stByte_writeGroup, if_pos (by omega), hcell, hbyte]

section

variable (C : Config.Ciphers) (b : Config.Build) (m : BitVec 6) (l : Lane)

/-- `IMPLODE` leaves schedule B in the key file (44_implode.md R181). -/
theorem Lane.implode_k : (l.implode C b m).k = (l.kexp C b (seedOffset .b)).k := by
  rw [Lane.implode, Lane.writeGroup_k]
  exact (forRange_view Lane.k (fun _ _ => Lane.implodeChunk_k _ _ _) _ _ _).trans
    (Lane.loadGroup_k _ _)

/-- `IMPLODE` writes no field but the key file, the lane group and the compact state. -/
theorem Lane.implode_frame : l.implode C b m =
    { l with k := (l.implode C b m).k, x := (l.implode C b m).x, st := (l.implode C b m).st } := by
  rw [← l.implode_sp C b m, ← l.implode_al C b m, ← l.implode_ah C b m, ← l.implode_bl C b m,
    ← l.implode_bh C b m, ← l.implode_idx C b m]

/-- `IMPLODE` leaves one value in `X[j]` and in `ST128(64 + 16j)` (44_implode.md R181). -/
theorem Lane.xreg_implode_eq_st128 {j : Nat} (hj : j < 8) :
    (l.implode C b m).xreg j = (l.implode C b m).st128 (64 + 16 * j) := by
  rw [Lane.implode, Lane.st128_writeGroup _ hj, Lane.xreg_congr (Lane.writeGroup_x _)]

/-- That value folds the cells congruent to `j` modulo 8 from the old `ST128(64 + 16j)`
(44_implode.md R182): what the chunk loop reads is as it was before the command. -/
theorem Lane.st128_implode {j : Nat} (hj : j < 8) :
    (l.implode C b m).st128 (64 + 16 * j) =
      foldCells C (l.implode C b m).k (fun c => l.memRead (128 * c + 16 * j)) (chunkCount m)
        (l.st128 (64 + 16 * j)) := by
  have hstart : ((l.kexp C b (seedOffset .b)).loadGroup 64).xreg j = l.st128 (64 + 16 * j) :=
    (Lane.xreg_loadGroup _ _ hj).trans (Lane.st128_congr (Lane.kexp_st _ _ _ _) _)
  have hcells : ∀ a, ((l.kexp C b (seedOffset .b)).loadGroup 64).memRead a = l.memRead a :=
    Lane.memRead_sp ((Lane.loadGroup_sp _ _).trans (Lane.kexp_sp _ _ _ _))
  rw [Lane.implode_k, Lane.implode, Lane.st128_writeGroup _ hj, Lane.implodeLoop C _ _ hj, hstart,
    funext fun c => hcells (128 * c + 16 * j), Lane.loadGroup_k]

end

/-- Settles O44: `IMPLODE` is its lane effect, whose key file is schedule B and whose chunk loop folds the
cells below `MEM`. -/
theorem implodeFoldsTheScratchpad : Obligations.ImplodeFoldsTheScratchpad := by
  intro s ln hrun hln
  refine ⟨_, exec_laneEffect (i := .implode ln) hrun rfl hln rfl, Lane.implode_frame _ _ _ _, ?_,
    fun j hj => ⟨Lane.st128_implode _ _ _ _ hj, Lane.xreg_implode_eq_st128 _ _ _ _ hj⟩,
    fun a ha => Lane.stByte_implode_outside _ _ _ _ ha⟩
  rw [laneEffect, Lane.implode_k]
  exact isSchedule_kexpf _ _ _ _

end Sys2Proof.Machine
end

section
/-! PROOF. The pipeline (45_pipeline.md): a command in READY as its effect, `NOP`, `CORE` and `CORE2`, and
the lane a single-lane command leaves alone. -/

namespace Sys2Proof.Machine

/-! ## A command in READY -/

/-- The machine with the run state and `DONE` set to given values (10_state.md R38). -/
def State.withStatus (r : RunState) (d : Bool) (s : State) : State := { s with run := r, done := d }

theorem State.onLane_withStatus (r : RunState) (d : Bool) (s : State) (ln : LaneId)
    (f : Lane → Lane) : (s.withStatus r d).onLane ln f = (s.onLane ln f).withStatus r d := by
  cases ln <;> rfl

theorem State.runCore_withStatus (r : RunState) (d : Bool) (s : State) (ln : LaneId) :
    (s.withStatus r d).runCore ln = (s.runCore ln).withStatus r d :=
  s.onLane_withStatus r d ln _

theorem State.complete_eq_withStatus (s : State) : s.complete = s.withStatus .ready true := rfl

/-- No effect looks at the run state or `DONE`, or writes them. -/
theorem effect_withStatus (i : Instr) (r : RunState) (d : Bool) (s : State) :
    effect i (s.withStatus r d) = (effect i s).withStatus r d := by
  cases i with
  | nop => rfl
  | core2 => simp only [effect, State.runCore_withStatus]
  | _ => exact s.onLane_withStatus r d _ _

/-- A well-formed command in READY completes with its effect on the machine before it. -/
theorem exec_effect {i : Instr} {s : State} (hrun : s.run = .ready)
    (hwf : i.wellFormed s.build.nlanes = true) : exec i s = .next (effect i s).complete := by
  have hstart : effect i s.start = (effect i s).start := effect_withStatus i .busy false s
  rw [exec_ready hrun hwf, hstart]
  rfl

@[simp] theorem State.complete_complete (s : State) : s.complete.complete = s.complete := rfl

/-- A machine in READY that completes has `DONE` set and is otherwise as before (10_state.md R38). -/
theorem State.complete_of_ready {s : State} (hrun : s.run = .ready) :
    s.complete = { s with done := true } := by
  cases s
  cases hrun
  rfl

/-! ## `NOP` -/

/-- The zero word with `LN = 1` sets a bit that `NOP` masks (30_encoding.md R100, R101). -/
theorem decode_nop_lane_one (n : Config.LaneCount) : decode n 0x00000100 = .error .mustBeZero := by
  cases n <;> rfl

/-- Settles O34: the effect of `NOP` is none, and the decoder rejects the word with `LN = 1`. -/
theorem nopSetsDone : Obligations.NopSetsDone := by
  refine ⟨fun s hrun => ?_, by decide, fun n i => ?_⟩
  · rw [exec_effect hrun rfl, effect, id, State.complete_of_ready hrun]
  · rw [decode_nop_lane_one]
    nofun

/-! ## `CORE` and `CORE2` -/

/-- Settles O45: the three commands complete with their lane effects in order, which is that of
`CORE`. -/
theorem coreIsExplodeMixImplode : Obligations.CoreIsExplodeMixImplode := by
  intro s ln hrun hln
  have his : ∀ j ∈ [Instr.explode ln, .mix ln, .implode ln],
      laneOf j = some ln ∧ j.wellFormed s.build.nlanes = true := by
    simp [laneOf, Instr.wellFormed, Instr.operandsLegal, Instr.lanesExist, hln]
  exact ⟨_, exec_laneEffect (i := .core ln) hrun rfl hln rfl, runCommands_onLane hrun his⟩

/-- A command that completes is followed by the rest of the sequence (45_pipeline.md R203). -/
theorem runCommands_cons {i : Instr} {s t : State} (h : exec i s = .next t) (is : List Instr) :
    runCommands (i :: is) s = runCommands is t := by
  rw [runCommands, h]

/-- `CORE` on one lane and then on the other is what `CORE2` does, from whichever lane it begins: the
lanes are separate storage (10_state.md R28). -/
theorem State.runCore_other (s : State) (ln : LaneId) :
    (s.runCore ln).runCore ln.other = effect .core2 s := by
  simp only [effect, State.runCore, State.onLane_build, State.onLane_cfgMemLog2, State.onLane_cfgIter]
  cases ln with
  | l0 => rfl
  | l1 => exact s.onLane_comm .l1 _ _

theorem exec_core_ready {s : State} {ln : LaneId} (hrun : s.run = .ready)
    (hln : ln.exists s.build.nlanes = true) : exec (.core ln) s = .next (s.runCore ln).complete :=
  exec_effect hrun ((wellFormed_of_laneOf rfl hln).trans rfl)

section

variable {s : State} (htwo : s.build.nlanes = .two)
include htwo

theorem exists_of_two (ln : LaneId) : ln.exists s.build.nlanes = true := by
  rw [htwo]
  cases ln <;> rfl

theorem wellFormed_core2 : Instr.core2.wellFormed s.build.nlanes = true := by
  rw [htwo]
  rfl

theorem exec_core2_ready (hrun : s.run = .ready) :
    exec .core2 s = .next (effect .core2 s).complete :=
  exec_effect hrun (wellFormed_core2 htwo)

/-- Both `CORE` commands, one after the other, leave the machine that `CORE2` leaves. -/
theorem runCommands_core_other (hrun : s.run = .ready) (ln : LaneId) :
    runCommands [.core ln, .core ln.other] s = .next (effect .core2 s).complete := by
  have hfirst := exec_core_ready hrun (exists_of_two htwo ln)
  have hln : ln.other.exists (s.runCore ln).complete.build.nlanes = true := by
    simpa [State.runCore] using exists_of_two htwo ln.other
  have hsecond : (s.runCore ln).complete.runCore ln.other = (effect .core2 s).complete := by
    rw [State.complete_eq_withStatus, State.runCore_withStatus, State.runCore_other,
      State.complete_eq_withStatus]
  rw [runCommands_cons hfirst, runCommands_cons (exec_core_ready rfl hln), hsecond,
    State.complete_complete, runCommands]

end

/-- Settles O46: with two lanes all three run `CORE` on both lanes, with one `CORE2` is ill-formed. -/
theorem coreTwoIsBothCoresInEitherOrder : Obligations.CoreTwoIsBothCoresInEitherOrder := by
  refine fun s hrun => ⟨fun htwo => ?_, fun hone => ?_⟩
  · exact ⟨_, exec_core2_ready htwo hrun, runCommands_core_other htwo hrun .l0,
      runCommands_core_other htwo hrun .l1⟩
  · rw [exec_eq_command, command_ready hrun, hone]
    rfl

/-- `CORE2` does to a lane what `CORE` does to it alone (45_pipeline.md R198). -/
theorem lane_core2_eq_runCore (s : State) (ln : LaneId) :
    (effect .core2 s).complete.lane ln = (s.runCore ln).complete.lane ln := by
  rw [State.lane_complete, State.lane_complete, lane_core2, State.runCore, State.lane_onLane_same]
  rfl

/-- Settles O47: all three complete, and each lane is as its own `CORE` leaves it. -/
theorem dualLaneDecomposition : Obligations.DualLaneDecomposition := by
  intro s hrun htwo
  refine ⟨_, _, _, exec_core2_ready htwo hrun, exec_core_ready hrun (exists_of_two htwo .l0),
    exec_core_ready hrun (exists_of_two htwo .l1), ?_, ?_⟩
  · exact lane_core2_eq_runCore s .l0
  · exact lane_core2_eq_runCore s .l1

/-! ## The other lane -/

/-- Settles O49: the command rewrites its own lane by a function of that lane. -/
theorem singleLaneCommandsIgnoreTheOtherLane : Obligations.SingleLaneCommandsIgnoreTheOtherLane := by
  intro i ln s l' hi hrun hwf
  have hlane (t : State) : effect i t = t.onLane ln (laneEffect t i) := effect_eq_onLane hi t
  refine ⟨_, exec_onLane hrun hwf (hlane _), s.lane_setLane_ne (LaneId_other_ne ln) _, ?_⟩
  rw [exec_onLane (by simpa using hrun) (by simpa using hwf) (hlane _)]
  cases ln <;> rfl

end Sys2Proof.Machine
end

section
/-! PROOF. What `CORE` depends on (45_pipeline.md R193, 70_reset_and_hazards.md R242): two lanes that agree
on `ST[0..191]` agree on everything that `EXPLODE`, `MIX` and `IMPLODE` leave behind. -/

namespace Sys2Proof.Machine

/-! ## Agreement of two lanes -/

/-- Two lanes agree on `ST[0..191]`, the bytes of the compact state that commands read (10_state.md
R26). -/
def Lane.SameSt (l l' : Lane) : Prop := ∀ a, a < 192 → l.stByte a = l'.stByte a

/-- Two lanes agree on the mixer registers and on the first `n` bytes of the scratchpad. -/
structure Lane.SameMixer (n : Nat) (l l' : Lane) : Prop where
  al : l.al = l'.al
  ah : l.ah = l'.ah
  bl : l.bl = l'.bl
  bh : l.bh = l'.bh
  idx : l.idx = l'.idx
  read : ∀ a, a < n → l.sp.read a = l'.sp.read a

/-- Two lanes agree on all that `CORE` determines. -/
structure Lane.SameCore (n : Nat) (l l' : Lane) : Prop extends Lane.SameMixer n l l' where
  st : l.SameSt l'
  k : l.k = l'.k
  x : l.x = l'.x

section

variable {l l' : Lane} (h : l.SameSt l')
include h

theorem Lane.SameSt.st128 {a : Nat} (ha : a + 16 ≤ 192) : l.st128 a = l'.st128 a := by
  rw [Lane.st128, Lane.st128, leRead_congr fun i _ => h (a + i) (by omega)]

theorem Lane.SameSt.st64 (i : Fin 24) : l.st64 i = l'.st64 i := by
  rw [Lane.st64, Lane.st64, leRead_congr fun k _ => h (8 * i + k) (by omega)]

/-- The words `MIXINIT` names lie in `ST[0..191]` (43_mixer.md R161; log 23). -/
theorem Lane.SameSt.xorWords (is : List (Fin 24)) : l.xorWords is = l'.xorWords is := by
  induction is with
  | nil => rfl
  | cons i is ih => rw [Lane.xorWords, Lane.xorWords, h.st64, ih]

/-- Both key seeds lie in `ST[0..63]` (41_key_schedule.md R142). -/
theorem Lane.SameSt.kexp_k (C : Config.Ciphers) (b : Config.Build) (sel : Seed) :
    (l.kexp C b (seedOffset sel)).k = (l'.kexp C b (seedOffset sel)).k := by
  have hoff : seedOffset sel ≤ 32 := by cases sel <;> decide
  rw [Lane.kexp_k, Lane.kexp_k, h.st128 (by omega), h.st128 (by omega)]

end

/-! ## `EXPLODE` -/

/-- A byte of the scratchpad as a byte of its cell (20_memory.md R61). -/
theorem Lane.read_eq_byteOf_memRead (l : Lane) (x : Nat) :
    l.sp.read x = byteOf (l.memRead (128 * (x / 128) + 16 * (x % 128 / 16))) (x % 16) := by
  rw [Lane.byteOf_memRead l _ _ (by omega)]
  congr 1
  omega

/-- What `EXPLODE` stores comes from schedule A and the 128 bytes at `XINIT_OFF` (42_explode.md R152). -/
theorem Lane.SameSt.read_explode {l l' : Lane} (h : l.SameSt l') (C : Config.Ciphers)
    (b : Config.Build) {m : BitVec 6} (hm : 7 ≤ m.toNat) {x : Nat} (hx : x < memBytes m) :
    (l.explode C b m).sp.read x = (l'.explode C b m).sp.read x := by
  have hk : (l.explode C b m).k = (l'.explode C b m).k := by
    rw [Lane.explode_k, Lane.explode_k, h.kexp_k]
  have hoff : xinitOff b ≤ 64 := by unfold xinitOff; omega
  have hchunk : x / 128 < chunkCount m := by rw [memBytes_eq_chunks hm] at hx; omega
  have hcell : x % 128 / 16 < 8 := by omega
  rw [Lane.read_eq_byteOf_memRead, Lane.memRead_explode C b m l hchunk hcell, hk,
    h.st128 (by omega), Lane.read_eq_byteOf_memRead, Lane.memRead_explode C b m l' hchunk hcell]

/-! ## `MIX` -/

namespace Lane.SameMixer

theorem memRead {l l' : Lane} {n : Nat} (h : l.SameMixer n l') {a : Nat} (ha : a + 16 ≤ n) :
    l.memRead a = l'.memRead a :=
  Lane.memRead_congr fun i _ => h.read (a + i) (by omega)

theorem read_memWrite {l l' : Lane} {n : Nat} (h : l.SameMixer n l') (a : Nat) (v : W128) {x : Nat}
    (hx : x < n) : (l.memWrite a v).sp.read x = (l'.memWrite a v).sp.read x := by
  rw [Lane.read_memWrite, Lane.read_memWrite, h.read x hx]

variable {m : BitVec 6} (hm : 7 ≤ m.toNat) (C : Config.Ciphers) (b : Config.Build) {l l' : Lane}
include hm

/-- Steps 1 to 4 read the mixer registers and one cell below `MEM` (43_mixer.md R162). -/
theorem mixFirst (h : l.SameMixer (memBytes m) l') :
    (l.mixFirst C b m).SameMixer (memBytes m) (l'.mixFirst C b m) := by
  have hcell := h.memRead (ea_add_le b hm l'.idx)
  simp only [Lane.mixFirst, h.idx, hcell, h.ah, h.al, h.bh, h.bl]
  exact ⟨h.al, h.ah, rfl, rfl, rfl, fun _ => h.read_memWrite _ _⟩

/-- So do steps 5 to 9. -/
theorem mixSecond (h : l.SameMixer (memBytes m) l') :
    (l.mixSecond b m).SameMixer (memBytes m) (l'.mixSecond b m) := by
  have hcell := h.memRead (ea_add_le b hm l'.idx)
  simp only [Lane.mixSecond, h.idx, hcell, h.ah, h.al]
  exact ⟨rfl, rfl, h.bl, h.bh, rfl, fun _ => h.read_memWrite _ _⟩

theorem mixs (h : l.SameMixer (memBytes m) l') :
    (l.mixs C b m).SameMixer (memBytes m) (l'.mixs C b m) :=
  (h.mixFirst hm C b).mixSecond hm b

end Lane.SameMixer

/-- `MIX` loads the mixer registers from the compact state and then depends on them and the scratchpad
alone (43_mixer.md R163). -/
theorem Lane.SameSt.mix {l l' : Lane} (h : l.SameSt l') {m : BitVec 6} (hm : 7 ≤ m.toNat)
    (hsp : ∀ a, a < memBytes m → l.sp.read a = l'.sp.read a) (C : Config.Ciphers) (b : Config.Build)
    (n : Nat) : (l.mix C b m n).SameMixer (memBytes m) (l'.mix C b m n) :=
  forRange_rel (Lane.SameMixer (memBytes m)) 1 n (fun _ _ _ _ _ hmix => hmix.mixs hm C b)
    ⟨h.xorWords _, h.xorWords _, h.xorWords _, h.xorWords _, h.xorWords _, hsp⟩

/-! ## `IMPLODE` -/

/-- The fold looks at the cells of its own chunks only (44_implode.md R182). -/
theorem foldCells_congr {C : Config.Ciphers} {k : Vector W128 10} {cells cells' : Nat → W128} {n : Nat}
    (h : ∀ c, c < n → cells c = cells' c) (a : W128) :
    foldCells C k cells n a = foldCells C k cells' n a :=
  forRange_rel Eq 0 n (fun c v w _ hc hvw => by rw [hvw, h c (by omega)]) rfl

/-- A byte of `ST[64..191]` as a byte of what `IMPLODE` writes back (44_implode.md R181). -/
theorem Lane.stByte_eq_byteOf_st128 (l : Lane) {a : Nat} (ha : 64 ≤ a) :
    l.stByte a = byteOf (l.st128 (64 + 16 * ((a - 64) / 16))) (a % 16) := by
  rw [Lane.st128, byteOf_leRead _ _ _ _ (by omega) (by decide)]
  congr 1
  omega

section

variable {m : BitVec 6} (hm : 7 ≤ m.toNat) (C : Config.Ciphers) (b : Config.Build) {l l' : Lane}
  (h : l.SameSt l')
include h

theorem Lane.SameSt.implode_k : (l.implode C b m).k = (l'.implode C b m).k := by
  rw [Lane.implode_k, Lane.implode_k, h.kexp_k]

variable (hsp : ∀ a, a < memBytes m → l.sp.read a = l'.sp.read a)
include hm hsp

/-- What `IMPLODE` leaves in `X` lane `j` comes from schedule B, the cells below `MEM` and the old
`ST[64..191]` (44_implode.md R182). -/
theorem Lane.SameSt.st128_implode {j : Nat} (hj : j < 8) :
    (l.implode C b m).st128 (64 + 16 * j) = (l'.implode C b m).st128 (64 + 16 * j) := by
  have hmem := memBytes_eq_chunks hm
  have hcells (c : Nat) (hc : c < chunkCount m) :
      l.memRead (128 * c + 16 * j) = l'.memRead (128 * c + 16 * j) :=
    Lane.memRead_congr fun i _ => hsp _ (by omega)
  rw [Lane.st128_implode C b m l hj, Lane.st128_implode C b m l' hj, h.implode_k,
    h.st128 (by omega), foldCells_congr hcells]

theorem Lane.SameSt.implode_x : (l.implode C b m).x = (l'.implode C b m).x :=
  file_ext fun j hj => by
    have hx := h.st128_implode hm C b hsp hj
    rwa [← Lane.xreg_implode_eq_st128 _ _ _ _ hj, ← Lane.xreg_implode_eq_st128 _ _ _ _ hj] at hx

theorem Lane.SameSt.implode : (l.implode C b m).SameSt (l'.implode C b m) := by
  intro a ha
  by_cases hlow : a < 64
  · rw [Lane.stByte_implode_outside C b m l (.inl hlow),
      Lane.stByte_implode_outside C b m l' (.inl hlow), h a ha]
  · rw [Lane.stByte_eq_byteOf_st128 _ (by omega), h.st128_implode hm C b hsp (by omega),
      ← Lane.stByte_eq_byteOf_st128 _ (by omega)]

end

/-! ## `CORE` -/

/-- `CORE` is a function of `ST[0..191]` (45_pipeline.md R193): `EXPLODE` refills the scratchpad, `MIX` the
mixer registers, and `IMPLODE` the key file, the lane group and `ST[64..191]`. -/
theorem Lane.SameSt.core {l l' : Lane} (h : l.SameSt l') {m : BitVec 6} (hm : 7 ≤ m.toNat)
    (C : Config.Ciphers) (b : Config.Build) (n : Nat) :
    (l.core C b m n).SameCore (memBytes m) (l'.core C b m n) := by
  have hexplode : (l.explode C b m).SameSt (l'.explode C b m) := fun a ha => by
    rw [Lane.stByte, Lane.explode_st, Lane.stByte, Lane.explode_st]
    exact h a ha
  have hmixer := hexplode.mix hm (fun _ => h.read_explode C b hm) C b n
  have hmix : ((l.explode C b m).mix C b m n).SameSt ((l'.explode C b m).mix C b m n) := fun a ha => by
    rw [Lane.stByte, Lane.mix_st, Lane.stByte, Lane.mix_st]
    exact hexplode a ha
  exact {
    al := by simpa only [Lane.core, Lane.implode_al] using hmixer.al
    ah := by simpa only [Lane.core, Lane.implode_ah] using hmixer.ah
    bl := by simpa only [Lane.core, Lane.implode_bl] using hmixer.bl
    bh := by simpa only [Lane.core, Lane.implode_bh] using hmixer.bh
    idx := by simpa only [Lane.core, Lane.implode_idx] using hmixer.idx
    read := by simpa only [Lane.core, Lane.implode_sp] using hmixer.read
    st := hmix.implode hm C b hmixer.read
    k := hmix.implode_k C b
    x := hmix.implode_x hm C b hmixer.read }

/-- Settles O48: both complete with the one lane effect, on lanes that agree on `ST[0..191]`. -/
theorem coreIsPure : Obligations.CoreIsPure := by
  intro s s' ln ln' hrun hrun' hln hln' hbuild hmem hiter hm hst
  have heffect : laneEffect s' (.core ln') = laneEffect s (.core ln) := by
    rw [laneEffect, laneEffect, hbuild, hmem, hiter]
  have hsame : (laneEffect s (.core ln) (s.lane ln)).SameCore (memBytes s.cfgMemLog2)
      (laneEffect s (.core ln) (s'.lane ln')) := Lane.SameSt.core hst hm _ _ _
  refine ⟨_, _, exec_laneEffect (i := .core ln) hrun rfl hln rfl,
    exec_laneEffect (i := .core ln') hrun' rfl (hbuild ▸ hln') rfl, ?_⟩
  rw [State.lane_setLane_done, State.lane_setLane_done, heffect]
  exact ⟨fun a ha => stByte_laneEffect_outside s (.core ln) _ ha, hsame.st, hsame.k, hsame.x, hsame.al,
    hsame.ah, hsame.bl, hsame.bh, hsame.idx, hsame.read⟩

end Sys2Proof.Machine
end

section
/-! PROOF. The host procedures (45_pipeline.md R199 to R203): the compact state loaded and read back word
by word, a command issued and polled, and the digests of `HASH` and `DOUBLEHASH`. -/

namespace Sys2Proof.Machine

/-! ## The words of the compact state -/

/-- A byte of a compact state is a byte of its word (20_memory.md R60). -/
theorem byteOf_stWord (st : Vector Byte 200) (a : Nat) :
    byteOf (stWord st (a / 4)) (a % 4) = fileRead st a := by
  rw [stWord, byteOf_leRead _ _ _ _ (by omega) (by decide)]
  congr 1
  omega

/-- The fifty words of a compact state give it back. -/
theorem stOfWords_stWord (st : Vector Byte 200) : stOfWords ((List.range 50).map (stWord st)) = st := by
  ext1 i hi
  have hword : ((List.range 50).map (stWord st)).getD (i / 4) 0 = stWord st (i / 4) := by
    simp [show i / 4 < 50 by omega]
  rw [stOfWords, Vector.getElem_ofFn, hword, byteOf_stWord, fileRead_lt st hi]

theorem st_ext_words {st st' : Vector Byte 200} (h : ∀ k, k < 50 → stWord st k = stWord st' k) :
    st = st' := by
  rw [← stOfWords_stWord st, ← stOfWords_stWord st',
    List.map_congr_left fun k hk => h k (List.mem_range.mp hk)]

/-! ## Loading a lane -/

theorem perform_regWrite {s t : State} {off : Nat} {v : W32}
    (h : access (.regWrite off v) s = .next t) : perform [.regWrite off v] s = .next (t, []) := by
  simp only [perform, h]

theorem access_loadWord {s : State} {l : LaneId} (hrun : s.run = .unconfigured ∨ s.run = .ready)
    (hln : l.exists s.build.nlanes = true) {k : Nat} (hk : k < 50) (v : W32) :
    access (.regWrite (windowBase l + 4 * k) v) s =
      .next (s.setLane l { s.lane l with st := stWrite (s.lane l).st (4 * k) 4 v }) :=
  (access_regWrite_lane hln (.st ⟨k, hk⟩) v).trans (laneWrite_next hrun)

/-- The machine with the compact state of a lane replaced. -/
def State.withSt (s : State) (l : LaneId) (st : Vector Byte 200) : State :=
  s.setLane l { s.lane l with st := st }

/-- The first `n` writes of a load store the first `n` words, and touch the lane's `ST` only. -/
theorem perform_loadWords {s : State} {l : LaneId} (hrun : s.run = .unconfigured ∨ s.run = .ready)
    (hln : l.exists s.build.nlanes = true) (st : Vector Byte 200) {n : Nat} (hn : n ≤ 50) :
    ∃ st', perform ((List.range n).map fun k => .regWrite (windowBase l + 4 * k) (stWord st k)) s =
        .next (s.withSt l st', []) ∧
      ∀ k, k < n → stWord st' k = stWord st k := by
  induction n with
  | zero =>
    refine ⟨(s.lane l).st, ?_, fun k hk => absurd hk (Nat.not_lt_zero k)⟩
    cases l <;> rfl
  | succ n ih =>
    obtain ⟨st', hst', hwords⟩ := ih (by omega)
    have hnext := perform_regWrite (access_loadWord (s := s.withSt l st')
      (by simpa [State.withSt] using hrun) (by simpa [State.withSt] using hln) hn (stWord st n))
    refine ⟨stWrite st' (4 * n) 4 (stWord st n), ?_, fun k hk => ?_⟩
    · rw [List.range_succ, List.map_append, perform_append hst', List.map_singleton, hnext,
        State.withSt, State.lane_setLane_same, State.setLane_setLane]
      rfl
    · have hread := leRead_stWrite st' ⟨n, hn⟩ ⟨k, by omega⟩ (stWord st n)
      rw [stWord, hread]
      by_cases hkn : k = n
      · subst hkn
        exact if_pos rfl
      · rw [if_neg (by simpa using hkn)]
        exact hwords k (by omega)

/-- Before the lock or in READY, the fifty writes replace the compact state (45_pipeline.md R200). -/
theorem perform_loadSt {s : State} {l : LaneId} (hrun : s.run = .unconfigured ∨ s.run = .ready)
    (hln : l.exists s.build.nlanes = true) (st : Vector Byte 200) :
    perform (loadSt l st) s = .next (s.withSt l st, []) := by
  obtain ⟨st', hst', hwords⟩ := perform_loadWords hrun hln st (n := 50) (Nat.le_refl 50)
  rwa [st_ext_words hwords] at hst'

/-! ## Reading a lane back -/

theorem State.lane_reply (s : State) (r : Reply) (l : LaneId) :
    State.lane { s with reply := r } l = s.lane l := by
  cases l <;> rfl

theorem perform_readWords {s : State} {l : LaneId} (hrun : s.run ≠ .busy)
    (hln : l.exists s.build.nlanes = true) {ks : List Nat} (hks : ∀ k ∈ ks, k < 50) :
    ∃ r, perform (ks.map fun k => .regRead (windowBase l + 4 * k)) s =
      .next ({ s with reply := r }, ks.map (stWord (s.lane l).st)) := by
  induction ks generalizing s with
  | nil => exact ⟨s.reply, rfl⟩
  | cons k ks ih =>
    have hread : access (.regRead (windowBase l + 4 * k)) s =
        .next { s with reply := .word (stWord (s.lane l).st k) } :=
      registerReadsHaveNoSideEffect s (.lane l (.st ⟨k, hks k (by simp)⟩)) hrun
        (Reg.exists_lane hln)
    obtain ⟨r, hr⟩ := ih (s := { s with reply := .word (stWord (s.lane l).st k) }) hrun hln
      fun j hj => hks j (List.mem_cons_of_mem k hj)
    refine ⟨r, ?_⟩
    simp only [List.map_cons, perform, hread, hr, State.lane_reply]

/-- Outside BUSY the fifty reads answer the compact state (45_pipeline.md R200). -/
theorem fetchSt_eq {s : State} {l : LaneId} (hrun : s.run ≠ .busy)
    (hln : l.exists s.build.nlanes = true) :
    ∃ r, fetchSt l s = .next ({ s with reply := r }, (s.lane l).st) := by
  obtain ⟨r, hr⟩ := perform_readWords hrun hln (ks := List.range 50) fun k => List.mem_range.mp
  have hr : perform (readSt l) s = _ := hr
  exact ⟨r, by simp only [fetchSt, hr, stOfWords_stWord]⟩

/-! ## A command issued and polled -/

theorem saysCompleted_statusWord (s : State) :
    saysCompleted s.statusWord = (decide (s.run = .ready) && s.done) := by
  rw [saysCompleted, statusWord_run, statusWord_done]
  cases s.run <;> rfl

/-- The poll after a `CMD` write answers the status of the machine the command leaves. -/
theorem issueAndWait_eq {loads : List HostAccess} {w : W32} {s t u : State} {ws : List W32}
    (hloads : perform loads s = .next (t, ws))
    (hcmd : access (.regWrite cmdOffset w) t = .next u) :
    issueAndWait loads w s =
      .next ({ u with reply := .word u.statusWord }, saysCompleted u.statusWord) := by
  have hpoll : access waitPoll u = .next { u with reply := .word u.statusWord } :=
    (access_regRead (r := .status) nofun).trans (hostRead_next (fun _ => rfl) _)
  have htail : perform [.regWrite cmdOffset w, waitPoll] t =
      .next ({ u with reply := .word u.statusWord }, [u.statusWord]) := by
    rw [perform, hcmd]
    simp only [perform, hpoll] <;> rfl
  simp only [issueAndWait, perform_append hloads, htail, List.getLastD_concat]

/-- A well-formed command issued in READY is seen to complete (45_pipeline.md R203). -/
theorem issueAndWait_completes {loads : List HostAccess} {i : Instr} {s t : State} {ws : List W32}
    (hloads : perform loads s = .next (t, ws)) (hrun : t.run = .ready)
    (hwf : i.wellFormed t.build.nlanes = true) :
    ∃ r, issueAndWait loads (encode i) s = .next ({ (effect i t).complete with reply := r }, true) := by
  have hcmd : access (.regWrite cmdOffset (encode i)) t = .next (effect i t).complete := by
    simp only [access, regWrite, cmdOffset, regAt_cmd, cmdWrite, decodeOfEncode _ i hwf,
      exec_effect hrun hwf]
  have hissue := issueAndWait_eq hloads hcmd
  rw [saysCompleted_statusWord] at hissue
  exact ⟨_, hissue⟩

/-- After a command every lane of the build can be read back, whatever the last reply was. -/
theorem fetchSt_effect (i : Instr) (t : State) (r : Reply) {l : LaneId}
    (hln : l.exists t.build.nlanes = true) :
    ∃ r', fetchSt l { (effect i t).complete with reply := r } =
      .next ({ (effect i t).complete with reply := r' }, ((effect i t).lane l).st) := by
  have hbuild : (effect i t).build = t.build := (sameControl_effect i t).build
  obtain ⟨r', hfetch⟩ := fetchSt_eq (s := { (effect i t).complete with reply := r }) (l := l) nofun
    (by rwa [State.complete_build, hbuild])
  rw [State.lane_reply, State.lane_complete] at hfetch
  exact ⟨r', hfetch⟩

/-! ## The procedures in READY -/

/-- A lane after `CORE` on the compact state `ABSORB` gives for an input (45_pipeline.md R200). -/
def hashLane (C : Config.Collaborators) (s : State) (input : List Byte) (l : Lane) : Lane :=
  Lane.core (ciphersOf s.build) s.build s.cfgMemLog2 s.cfgIter.toNat { l with st := C.absorb input }

/-- `HASH` leaves lane 0 so, and answers the digest of its compact state. -/
theorem hash_ready {s : State} (hrun : s.run = .ready) (C : Config.Collaborators)
    (input : List Byte) :
    ∃ r, hash C input s =
      .next ({ s with lane0 := hashLane C s input s.lane0, done := true, reply := r },
        some (finalDigest C (hashLane C s input s.lane0).st).toList) := by
  have hcmd : encode (.core .l0) = 0x00000009 := by decide
  have hload := perform_loadSt (l := .l0) (.inr hrun) rfl (C.absorb input)
  obtain ⟨r, hissue⟩ := issueAndWait_completes (i := .core .l0) hload hrun rfl
  obtain ⟨r', hfetch⟩ := fetchSt_effect (.core .l0) (s.withSt .l0 (C.absorb input)) r (l := .l0) rfl
  rw [hcmd] at hissue
  refine ⟨r', ?_⟩
  simp only [hash, hissue, hfetch]
  cases s
  cases hrun
  rfl

/-- The compact state `CORE` leaves is a function of the one it starts from (45_pipeline.md R193). -/
theorem hashLane_st_eq (C : Config.Collaborators) {s : State} (hm : 7 ≤ s.cfgMemLog2.toNat)
    (input : List Byte) (l l' : Lane) : (hashLane C s input l).st = (hashLane C s input l').st := by
  have hst : Lane.SameSt { l with st := C.absorb input } { l' with st := C.absorb input } :=
    fun _ _ => rfl
  refine file_ext fun a _ => ?_
  by_cases ha : a < 192
  · exact (hst.core hm (ciphersOf s.build) s.build s.cfgIter.toNat).st a ha
  · have hkept (l : Lane) : (hashLane C s input l).stByte a = fileRead (C.absorb input) a :=
      Lane.stByte_core_outside (ciphersOf s.build) s.build s.cfgMemLog2 s.cfgIter.toNat
        { l with st := C.absorb input } (.inr (by omega))
    exact (hkept l).trans (hkept l').symm

/-- `DOUBLEHASH` answers the digests of both lanes, that of lane 0 first. -/
theorem doubleHash_ready {s : State} (hrun : s.run = .ready) (htwo : s.build.nlanes = .two)
    (C : Config.Collaborators) (inputA inputB : List Byte) :
    ∃ t, doubleHash C inputA inputB s =
      .next (t, some ((finalDigest C (hashLane C s inputA s.lane0).st).toList ++
        (finalDigest C (hashLane C s inputB s.lane1).st).toList)) := by
  have hcmd : encode .core2 = 0x0000000A := by decide
  have hloadA := perform_loadSt (l := .l0) (.inr hrun) rfl (C.absorb inputA)
  have hloadB := perform_loadSt (s := s.withSt .l0 (C.absorb inputA)) (l := .l1) (.inr hrun)
    (exists_of_two htwo .l1) (C.absorb inputB)
  have hload : perform (loadSt .l0 (C.absorb inputA) ++ loadSt .l1 (C.absorb inputB)) s =
      .next ((s.withSt .l0 (C.absorb inputA)).withSt .l1 (C.absorb inputB), []) := by
    rw [perform_append hloadA, hloadB]
    rfl
  obtain ⟨r, hissue⟩ := issueAndWait_completes hload hrun (wellFormed_core2 htwo)
  rw [hcmd] at hissue
  have hfetch := fetchSt_effect .core2
    ((s.withSt .l0 (C.absorb inputA)).withSt .l1 (C.absorb inputB))
  obtain ⟨rA, hfetchA⟩ := hfetch r (l := .l0) rfl
  obtain ⟨rB, hfetchB⟩ := hfetch rA (exists_of_two htwo .l1)
  rw [lane_core2] at hfetchA hfetchB
  exact ⟨_, by simp only [doubleHash, hissue, hfetchA, hfetchB] <;> rfl⟩

/-! ## Where a digest can come from -/

theorem perform_cons_next {a : HostAccess} {as : List HostAccess} {s u : State} {ws : List W32}
    (h : perform (a :: as) s = .next (u, ws)) :
    ∃ t vs, access a s = .next t ∧ perform as t = .next (u, vs) := by
  rw [perform] at h
  split at h
  · rename_i t ha
    split at h
    · rename_i u' vs has
      cases h
      exact ⟨t, vs, ha, has⟩
    · cases h
    · cases h
  · cases h
  · cases h

theorem perform_append_next {as bs : List HostAccess} {s u : State} {ws : List W32}
    (h : perform (as ++ bs) s = .next (u, ws)) :
    ∃ t vs vs', perform as s = .next (t, vs) ∧ perform bs t = .next (u, vs') := by
  induction as generalizing s ws with
  | nil => exact ⟨s, [], ws, rfl, h⟩
  | cons a as ih =>
    obtain ⟨s', vs, ha, has⟩ := perform_cons_next h
    obtain ⟨t, ws', vs', hfirst, hrest⟩ := ih has
    exact ⟨t, _, vs', by rw [perform, ha]; simp only [hfirst] <;> rfl, hrest⟩

/-- A lane the build lacks has no window (10_state.md R40, 20_memory.md R70). -/
theorem regAt_missing_lane {n : Config.LaneCount} {l : LaneId} (h : l.exists n = false) (off : Nat) :
    regAt n (windowBase l + off) = none := by
  cases l with
  | l0 => cases h
  | l1 =>
    cases n with
    | two => cases h
    | one =>
      have hlow : ¬ 2048 + off < 1024 := by omega
      have hlane0 : ¬ 2048 + off < 2048 := by omega
      rw [regAt, windowBase, regSpaceBytes, if_neg hlow, if_neg hlane0, if_neg hlane0, ite_self]

/-- A word of a load needs the lane, and leaves the run state and the build (10_state.md R40). -/
theorem access_loadWord_next {s t : State} {l : LaneId} {k : Nat} (hk : k < 50) {v : W32}
    (h : access (.regWrite (windowBase l + 4 * k) v) s = .next t) :
    l.exists s.build.nlanes = true ∧ t.run = s.run ∧ t.build = s.build := by
  cases hln : l.exists s.build.nlanes with
  | false =>
    rw [access, regWrite_undefined (regAt_missing_lane hln _)] at h
    exact absurd h (noRegister_ne_next _ _ _)
  | true =>
    have hwrite := (access_regWrite_lane hln (.st ⟨k, hk⟩) v).symm.trans h
    obtain ⟨-, rfl⟩ | ⟨-, rfl⟩ := laneWrite_cases hwrite
    · exact ⟨rfl, s.onLane_run l _, s.onLane_build l _⟩
    · exact ⟨rfl, rfl, rfl⟩

theorem perform_loadWords_next {s t : State} {l : LaneId} {st : Vector Byte 200} {ks : List Nat}
    (hks : ∀ k ∈ ks, k < 50) {ws : List W32}
    (h : perform (ks.map fun k => .regWrite (windowBase l + 4 * k) (stWord st k)) s = .next (t, ws)) :
    (ks ≠ [] → l.exists s.build.nlanes = true) ∧ t.run = s.run ∧ t.build = s.build := by
  induction ks generalizing s ws with
  | nil =>
    cases h
    exact ⟨fun h => absurd rfl h, rfl, rfl⟩
  | cons k ks ih =>
    obtain ⟨s', vs, hword, hrest⟩ := perform_cons_next h
    obtain ⟨hln, hrun, hbuild⟩ := access_loadWord_next (hks k (by simp)) hword
    obtain ⟨-, hrun', hbuild'⟩ := ih (fun j hj => hks j (List.mem_cons_of_mem k hj)) hrest
    exact ⟨fun _ => hln, hrun'.trans hrun, hbuild'.trans hbuild⟩

/-- A load that is performed found the lane, and left the run state and the build. -/
theorem perform_loadSt_next {s t : State} {l : LaneId} {st : Vector Byte 200} {ws : List W32}
    (h : perform (loadSt l st) s = .next (t, ws)) :
    l.exists s.build.nlanes = true ∧ t.run = s.run ∧ t.build = s.build := by
  obtain ⟨hln, hsame⟩ := perform_loadWords_next (ks := List.range 50) (fun k => List.mem_range.mp) h
  exact ⟨hln (by decide), hsame⟩

/-- READY is not entered by a command (60_exceptions.md R225). -/
theorem ready_of_command {legal : Bool} {body : State → State} {s t : State}
    (h : command legal body s = .next t) (ht : t.run = .ready) : s.run = .ready := by
  obtain ⟨-, rfl⟩ | ⟨hrun, -, -⟩ | ⟨hrun, -, -⟩ | ⟨-, rfl⟩ := command_cases h
  · cases ht
  · exact hrun
  · exact hrun
  · exact ht

theorem ready_of_cmdWrite {s t : State} {w : W32} (h : cmdWrite w s = .next t)
    (ht : t.run = .ready) : s.run = .ready := by
  unfold cmdWrite at h
  split at h
  · rw [exec_eq_command] at h
    exact ready_of_command h ht
  · exact ready_of_command (legal := false) (body := id) h ht

/-- A command is seen to complete only where the loads were performed and left READY. -/
theorem ready_of_issueAndWait {loads : List HostAccess} {w : W32} {s t : State}
    (h : issueAndWait loads w s = .next (t, true)) :
    ∃ u ws, perform loads s = .next (u, ws) ∧ u.run = .ready := by
  obtain ⟨ws, hp, -⟩ := issueAndWait_cases h
  obtain ⟨u, vs, vs', hloads, hrest⟩ := perform_append_next hp
  obtain ⟨v, _, hcmd, -⟩ := perform_cons_next hrest
  rw [issueAndWait_eq hloads hcmd, saysCompleted_statusWord] at h
  have hsays := (Prod.mk.inj (Host.Outcome.next.inj h)).2
  have hv : v.run = .ready := of_decide_eq_true (Bool.and_eq_true_iff.mp hsays).1
  rw [access, regWrite, cmdOffset, regAt_cmd] at hcmd
  exact ⟨u, vs, hloads, ready_of_cmdWrite hcmd hv⟩

/-- A digest of `DOUBLEHASH` comes from loads of both lanes and a completed `CORE2` (45_pipeline.md
R201). -/
theorem doubleHash_some {C : Config.Collaborators} {inputA inputB d : List Byte} {s u : State}
    (h : doubleHash C inputA inputB s = .next (u, some d)) :
    ∃ t, issueAndWait (loadSt .l0 (C.absorb inputA) ++ loadSt .l1 (C.absorb inputB)) 0x0000000A s =
      .next (t, true) := by
  unfold doubleHash at h
  split at h
  · exact ⟨_, by assumption⟩
  · cases h
  · cases h
  · cases h

/-! ## The obligations -/

/-- The selector of `FINAL` as a number: the two low bits of byte 0 (45_pipeline.md R199). -/
theorem extractLsb'_two_toFin (v : Byte) :
    (v.extractLsb' 0 2).toFin = ⟨v.toNat % 4, Nat.mod_lt _ (by decide)⟩ :=
  Fin.ext (by simp)

/-- Settles O52: in READY the load, `CORE.0`, the poll and the read-back are performed; a digest needs a
poll that shows READY, which a load and a `CMD` write do not enter. -/
theorem hashIsTheDigestOfCore : Obligations.HashIsTheDigestOfCore := by
  refine fun C input s => ⟨fun hrun => ?_, fun hrun t d h => hrun ?_⟩
  · obtain ⟨r, hr⟩ := hash_ready hrun C input
    rw [finalDigest, extractLsb'_two_toFin] at hr
    exact ⟨_, hr, rfl⟩
  · obtain ⟨u, st, hissue, -, -⟩ := hash_some h
    obtain ⟨v, ws, hload, hv⟩ := ready_of_issueAndWait hissue
    obtain ⟨-, hkept, -⟩ := perform_loadSt_next hload
    rw [← hkept, hv]

/-- Settles O53: lane 1 starts from another lane than `HASH B` does, but `CORE` leaves the same compact
state; a digest needs a poll that shows READY and a lane 1 to load. -/
theorem doubleHashIsTheConcatenation : Obligations.DoubleHashIsTheConcatenation := by
  refine fun C inputA inputB s => ⟨fun hrun htwo hm => ?_, fun hpre t d h => ?_⟩
  · obtain ⟨rA, hA⟩ := hash_ready hrun C inputA
    obtain ⟨rB, hB⟩ := hash_ready hrun C inputB
    obtain ⟨t, ht⟩ := doubleHash_ready hrun htwo C inputA inputB
    rw [hashLane_st_eq C hm inputB s.lane1 s.lane0] at ht
    exact ⟨t, _, _, _, _, hA, hB, ht, by simp⟩
  · obtain ⟨u, hissue⟩ := doubleHash_some h
    obtain ⟨v, ws, hload, hv⟩ := ready_of_issueAndWait hissue
    obtain ⟨w, vs, vs', hloadA, hloadB⟩ := perform_append_next hload
    obtain ⟨-, hrunA, hbuildA⟩ := perform_loadSt_next hloadA
    obtain ⟨hlane, hrunB, -⟩ := perform_loadSt_next hloadB
    obtain hrun | hone := hpre
    · exact hrun (by rw [← hrunA, ← hrunB, hv])
    · rw [hbuildA, hone] at hlane
      cases hlane

end Sys2Proof.Machine
end

section
/-! PROOF. Run states and faults (60_exceptions.md R216 to R234): what a write to `CMD` or to the
configuration does in each run state, that FAULT keeps the machine, and that no lane contents stop a
command. -/

namespace Sys2Proof.Machine

/-! ## Commands -/

/-- A completed command whose effect keeps the control fields (10_state.md R43) changes the lanes and
`DONE` only. -/
theorem SameControl.complete_eq {s t : State} (h : SameControl s t) (hrun : s.run = .ready) :
    t.complete = { s with done := true, lane0 := t.lane0, lane1 := t.lane1 } := by
  obtain ⟨hbuild, hhw, hmem, hiter, hlock, -, -, hcode, hinbox, hreply⟩ := h
  rw [State.complete, hbuild, hhw, hmem, hiter, hlock, hcode, hinbox, hreply, hrun]

/-- Settles O15: the command completes with its effect, which touches the lanes only. -/
theorem everyCommandCompletes : Obligations.EveryCommandCompletes :=
  fun i s hrun hwf => ⟨_, exec_effect hrun hwf, (sameControl_effect i s).complete_eq hrun⟩

/-- Settles O16: every command is the shared operation, which looks at the run state first and at
legality second. -/
theorem commandsByRunState : Obligations.CommandsByRunState := by
  intro i s
  rw [exec_eq_command]
  refine ⟨command_unconfigured, command_fault, command_busy, fun hrun hwf => ?_⟩
  rw [command_ready hrun, hwf]
  rfl

/-! ## Writes to `CMD` and to the configuration -/

theorem access_regWrite_cmd (w : W32) (s : State) : access (.regWrite 0x018 w) s = cmdWrite w s := by
  simp only [access, regWrite, regAt_cmd]

/-- A write to `CMD` is the shared operation on the decoded command, or on none
(10_state.md R37, 60_exceptions.md R221). -/
theorem exists_cmdWrite_eq_command (w : W32) (s : State) :
    ∃ legal body, cmdWrite w s = command legal body s := by
  unfold cmdWrite
  cases decode s.build.nlanes w with
  | ok i => exact ⟨_, _, exec_eq_command i s⟩
  | error e => exact ⟨_, _, rfl⟩

/-- Settles O7: a word that does not decode is an illegal command, which takes fault 6 in READY. -/
theorem illegalWordRaisesFaultSix : Obligations.IllegalWordRaisesFaultSix := by
  rintro s w hrun ⟨e, hdecode⟩
  rw [access_regWrite_cmd, cmdWrite, hdecode]
  exact command_ready hrun

/-- Settles O8: legal or not, the word reaches the shared operation, which looks at the run state
first. -/
theorem commandBeforeLockRaisesFaultSeven : Obligations.CommandBeforeLockRaisesFaultSeven := by
  intro s w hrun
  obtain ⟨legal, body, hcmd⟩ := exists_cmdWrite_eq_command w s
  rw [access_regWrite_cmd, hcmd]
  exact command_unconfigured hrun

theorem configWrite_ready {s : State} (h : s.run = .ready) (f : State → State) :
    configWrite s f = .next (s.raiseFault .cfgLocked) := by
  unfold configWrite
  rw [h]

/-- A write to `CFG_BACKEND`, `CFG_MEM`, `CFG_ITER` or `CTRL` (10_state.md R33 to R36). -/
theorem exists_access_eq_configWrite {off : Nat} (h : off ∈ [0x008, 0x00C, 0x010, 0x014]) (v : W32)
    (s : State) : ∃ f, access (.regWrite off v) s = configWrite s f := by
  simp only [List.mem_cons, List.not_mem_nil, or_false] at h
  obtain rfl | rfl | rfl | rfl := h
  · exact ⟨(State.writeCfgBackend · v), rfl⟩
  · exact ⟨(State.writeCfgMem · v), rfl⟩
  · exact ⟨(State.writeCfgIter · v), rfl⟩
  · exact ⟨(State.writeCtrl · v), rfl⟩

/-- Settles O9: each of the four is a configuration write, which takes fault 8 in READY before it
looks at the value. -/
theorem configWriteAfterLockRaisesFaultEight : Obligations.ConfigWriteAfterLockRaisesFaultEight := by
  intro s v hrun off hoff
  obtain ⟨f, hf⟩ := exists_access_eq_configWrite hoff v s
  rw [hf]
  exact configWrite_ready hrun f

/-! ## In FAULT -/

/-- In FAULT an access that is not a reset changes the answer of a read at most
(60_exceptions.md R217). -/
theorem AccessResult.eq_of_fault {s t : State} {a : HostAccess} (h : AccessResult s a t)
    (hrun : s.run = .fault) (hreset : ∀ l0 l1, a ≠ .reset l0 l1) :
    t = { s with reply := t.reply } := by
  cases h with
  | ignored | replied => rfl
  | reset l0 l1 => exact absurd rfl (hreset l0 l1)
  | wroteCfgBackend _ h | wroteCfgMem _ h | wroteCfgIter _ h | locked h | completed _ h
  | faulted _ h | storedWord _ _ _ h | storedBytes _ _ _ h => simp [hrun] at h

/-- Settles O11: the step waits, or takes an access that in FAULT changes the reply at most. -/
theorem onlyResetLeavesFault : Obligations.OnlyResetLeavesFault := by
  intro s t hrun h hreset
  obtain ⟨hin, rfl⟩ | ⟨a, rest, hin, hres⟩ := step_cases h
  · have htail : t.inbox.tail = t.inbox := by rw [hin, List.tail_nil]
    rw [htail]
  · have ha : ∀ l0 l1, a ≠ .reset l0 l1 := by simpa [hin] using hreset
    rw [hin]
    exact hres.eq_of_fault hrun ha

section

variable {s : State} (hrun : s.run = .fault)
include hrun

theorem configWrite_fault (f : State → State) : configWrite s f = .next s := by
  unfold configWrite
  rw [hrun]

theorem laneWrite_fault (f : State → State) : laneWrite s f = .next s := by
  unfold laneWrite
  rw [hrun]

theorem cmdWrite_fault (w : W32) : cmdWrite w s = .next s := by
  obtain ⟨legal, body, hcmd⟩ := exists_cmdWrite_eq_command w s
  rw [hcmd, command_fault hrun]

/-- In FAULT a write to any register is ignored (60_exceptions.md R217). -/
theorem access_regWrite_fault {r : Reg} (h : r.Exists s.build.nlanes) (v : W32) :
    access (.regWrite (regOffset r) v) s = .next s := by
  have hignored : readOnlyWrite s = .next s := readOnlyWrite_next (by simp [hrun])
  simp only [access, regWrite, regAt_regOffset h]
  cases r with
  | id | cap | status | mask => exact hignored
  | cfgBackend | cfgMem | cfgIter | ctrl => exact configWrite_fault hrun _
  | cmd => exact cmdWrite_fault hrun v
  | lane l w => exact laneWrite_fault hrun _

end

/-- Settles O12: in FAULT every kind of write is ignored, and a read is performed as it is outside
BUSY. -/
theorem faultAllowsReadsIgnoresWrites : Obligations.FaultAllowsReadsIgnoresWrites := by
  intro s hrun
  have hbusy : s.run ≠ .busy := by simp [hrun]
  refine ⟨fun r hr => ⟨access_regWrite_fault hrun hr, ?_⟩, fun l a bs hl hbound => ?_⟩
  · exact registerReadsHaveNoSideEffect s r hbusy hr
  · have hrange : s.spadInRange l a bs.length = true := by simp [State.spadInRange, hl, hbound]
    refine ⟨?_, access_spadRead_inside hbusy hrange⟩
    rw [access, spadWrite, if_pos hrange, laneWrite_fault hrun]

end Sys2Proof.Machine
end
